-- ==== Sys2Proof/Word.lean ====
section
/-! DEFINITION. The word and byte types of the machine, and the register file and memory as plain data. -/

namespace Sys2Proof

/-- A byte of memory or of the instruction stream. -/
abbrev Byte := BitVec 8

/-- A 64-bit value: a register slot, an offset, a port number, an interrupt code (R11, `XLEN` = 64). -/
abbrev Word := BitVec 64

/-- The 24 slots of the register file, in id order (R20). -/
abbrev Slots := Vector Word 24

/-- Memory as (physical index, byte) pairs in canonical form: see `Memory.wf`. -/
abbrev Memory := List Host.Cell

end Sys2Proof
end

