-- ==== Sys2Proof/Config.lean ====
section
/-! DEFINITION. The implementation parameters of 00_scope.md rule R11, and the two oracles of the outside world
(a device's answer, R279; an interrupt listener's answer, R291) as free values: opaque constants with no body. -/

namespace Sys2Proof

/-- What a single-cell access whose bytes pass the end of the buffer does (R64). -/
inductive BoundaryPolicy where
  /-- The bytes past the end continue at index 0. -/
  | wrap
  /-- The access is refused before any byte moves. -/
  | fault
deriving DecidableEq, Repr, Inhabited

/-- `MEM_SIZE`: the size in bytes of the memory buffer, in the range R11 gives it. -/
abbrev MemSize := { n : Nat // 16 ≤ n ∧ n ≤ 2147483647 }

/-- A device of the port registry as the block sees it: the port it is bound to and its name (R279). -/
structure Device where
  port : Word
  name : String
deriving DecidableEq, Repr, Inhabited

/-- The parameters of R11 that vary between machines. No instruction and no reset changes them (R48, R312); the host, and
so a listener, may change the two registries (R7, R291). -/
structure Config where
  memSize   : MemSize
  policy    : BoundaryPolicy
  /-- `DEVICES`: at most one device per port (R279). -/
  devices   : List Device
  /-- `LISTENERS`: the listeners' identities in registration order (R9, R290). -/
  listeners : List Nat
deriving DecidableEq, Repr

/-- One access to a device: an output of the block (R279). -/
inductive DeviceEvent where
  /-- `DeviceRead(port, address)`, and what the device answered. -/
  | read  (port address value : Word)
  /-- `DeviceWrite(port, address, value)`. -/
  | write (port address value : Word)
deriving DecidableEq, Repr

/-- The CPU as a listener reads it: the whole architectural state (R49) and the parameters with the two registries. -/
structure CpuView where
  config      : Config
  slots       : Slots
  mem         : Memory
  stepCount   : Word
  interrupted : Bool
  intCode     : Word
deriving DecidableEq, Repr

/-- What a listener does with a code it is offered (R291): the boolean it returns (true = handled), and the state as it
leaves it (R49, and the registries of R48), each part any value; memory as the bytes it writes, in order. -/
structure ListenerAnswer where
  handled     : Bool
  slots       : Slots
  writes      : List Host.Cell
  stepCount   : Word
  interrupted : Bool
  intCode     : Word
  devices     : List Device
  listeners   : List Nat
deriving DecidableEq, Repr, Inhabited

namespace Config

/-- DESIGN CHOICE (log entry 1). The parameters of the machine `State.reset` stands for: the size the spec's test vectors
use, the default policy, and a host that has registered no device and no listener. -/
def default : Config :=
  { memSize := ⟨65536, by decide⟩, policy := .wrap, devices := [], listeners := [] }

/-- FREE VALUE (log entry 4). What the device at `port` answers to a read of `address`: "a value drawn from the
environment" (R279). `draw` counts the draws made so far and `log` is every device access made so far. -/
opaque deviceRead (draw : Nat) (log : List DeviceEvent) (port address : Word) : Word

/-- FREE VALUE (log entry 5). What listener `listener` does when it is offered `code`: "an oracle that returns the
boolean and a new state" (R291). `draw` counts the draws made so far; `cpu` is all the state there is to read. -/
opaque onInterrupt (draw listener : Nat) (code : Word) (cpu : CpuView) : ListenerAnswer

end Config

end Sys2Proof
end

