-- ==== Sys2Proof/Syntax.lean ====
section
/-! DEFINITION. The abstract instructions: registers and regions (10_state.md R20, R22), the nine addressing modes
(30_encoding.md R106), the three operand types (R94), and one constructor of `Instr` per row of the opcode map
(R116) with the operands R119 gives it, in encoding order. -/

namespace Sys2Proof

/-- The 24 register slots (R20). -/
inductive Reg where
  | rax | rbx | rcx | rdx | rsi | rdi | rbp | rsp
  | r8 | r9 | r10 | r11 | r12 | r13 | r14 | r15
  | rip | rflags
  | cs | ds | ss | es | fs | gs
deriving DecidableEq, Repr, Inhabited

/-- The named sub-slices of a slot (R22). -/
inductive Region where
  | lowByte | highByte | word | dword | qword
deriving DecidableEq, Repr, Inhabited

/-- Operand widths (R94, R101). -/
inductive Width where
  | byte | word | dword | qword
deriving DecidableEq, Repr, Inhabited

/-- The width in bytes: 1, 2, 4 or 8. -/
def Width.bytes : Width → Nat
  | .byte => 1
  | .word => 2
  | .dword => 4
  | .qword => 8

/-- The width in bits, `W = 8 * n` (R12). -/
def Width.bits (w : Width) : Nat := 8 * w.bytes

/-- A register byte: a register at a region (R103). -/
structure RegRef where
  reg    : Reg
  region : Region
deriving DecidableEq, Repr, Inhabited

/-- The segment field of a memory operand (R108). -/
inductive SegSel where
  | cs | ds | ss | es | fs | gs
  /-- Id 7: no override, DS is used. -/
  | noOverride
deriving DecidableEq, Repr, Inhabited

/-- The nine addressing modes with their fields, in the order R106 lists both. -/
inductive AddrMode where
  | direct         (addr : Word)
  | indirect       (base : RegRef)
  | disp           (disp : Word) (base : RegRef)
  | indexed        (base index : RegRef)
  | indexedDisp    (disp : Word) (base index : RegRef)
  | scaled         (scale : BitVec 16) (index : RegRef)
  | scaledDisp     (disp : Word) (scale : BitVec 16) (index : RegRef)
  | baseScaled     (scale : BitVec 16) (base index : RegRef)
  | baseScaledDisp (disp : Word) (scale : BitVec 16) (base index : RegRef)
deriving DecidableEq, Repr, Inhabited

/-- A tagged operand (R94). A register operand's width is its region's (R101, R104). An immediate carries its
literal zero-extended; `WellFormed` says that it fits the width. -/
inductive Operand where
  | reg (r : RegRef)
  | mem (w : Width) (seg : SegSel) (mode : AddrMode)
  | imm (w : Width) (lit : Word)
deriving DecidableEq, Repr, Inhabited

/-- The 57 instructions of R116. -/
inductive Instr where
  | nop
  | mov (dst src : Operand)
  | xchg (a b : Operand)
  | lea (dst src : Operand)
  | inc (dst : Operand)
  | dec (dst : Operand)
  | add (dst src : Operand)
  | adc (dst src : Operand)
  | sub (dst src : Operand)
  | sbb (dst src : Operand)
  | neg (dst : Operand)
  | mul (dst src : Operand)
  | imul (dst src : Operand)
  | div (dst src : Operand)
  | idiv (dst src : Operand)
  | mod (dst src : Operand)
  | imod (dst src : Operand)
  | and (dst src : Operand)
  | or (dst src : Operand)
  | xor (dst src : Operand)
  | not (dst : Operand)
  | shl (dst count : Operand)
  | shr (dst count : Operand)
  | sal (dst count : Operand)
  | sar (dst count : Operand)
  | rol (dst count : Operand)
  | ror (dst count : Operand)
  | rcl (dst count : Operand)
  | rcr (dst count : Operand)
  | cmp (a b : Operand)
  | test (a b : Operand)
  | jmp (target : Operand)
  | jz (target : Operand)
  | jnz (target : Operand)
  | jc (target : Operand)
  | jnc (target : Operand)
  | js (target : Operand)
  | jns (target : Operand)
  | jo (target : Operand)
  | jno (target : Operand)
  | jp (target : Operand)
  | jnp (target : Operand)
  | jl (target : Operand)
  | jge (target : Operand)
  | jle (target : Operand)
  | jg (target : Operand)
  | call (target : Operand)
  | ret (count : Operand)
  | push (src : Operand)
  | pop (dst : Operand)
  | pushf
  | popf
  | pusha
  | popa
  /-- IN (the word `in` is Lean's). -/
  | inp (port address dst : Operand)
  | out (port address src : Operand)
  | int (code : Operand)
deriving DecidableEq, Repr, Inhabited

/-- The operands in encoding order (R119). -/
def Instr.operands : Instr → List Operand
  | .nop | .pushf | .popf | .pusha | .popa => []
  | .inc a | .dec a | .neg a | .not a | .jmp a | .jz a | .jnz a | .jc a | .jnc a | .js a | .jns a | .jo a | .jno a
  | .jp a | .jnp a | .jl a | .jge a | .jle a | .jg a | .call a | .ret a | .push a | .pop a | .int a => [a]
  | .mov a b | .xchg a b | .lea a b | .add a b | .adc a b | .sub a b | .sbb a b | .mul a b | .imul a b | .div a b
  | .idiv a b | .mod a b | .imod a b | .and a b | .or a b | .xor a b | .shl a b | .shr a b | .sal a b | .sar a b
  | .rol a b | .ror a b | .rcl a b | .rcr a b | .cmp a b | .test a b => [a, b]
  | .inp a b c | .out a b c => [a, b, c]

end Sys2Proof
end

