-- ==== Sys2Proof/WellFormed.lean ====
section
/-! DEFINITION. Which abstract operands and instructions have an encoding. Registers, regions, segments, modes and
scales are closed types, so one check remains: an immediate's literal fits its width (30_encoding.md R98). -/

namespace Sys2Proof

/-- An immediate is a "width-sized little-endian literal" (R98). -/
def Operand.wellFormed : Operand → Bool
  | .reg _ => true
  | .mem _ _ _ => true
  | .imm w lit => decide (lit.toNat < 2 ^ w.bits)

/-- Every operand has an encoding. The decoder checks no roles (R119), so neither does this. -/
def Instr.wellFormed (i : Instr) : Bool := i.operands.all Operand.wellFormed

end Sys2Proof
end

