-- ==== Sys2Proof/Decode.lean ====
section
/-! DEFINITION. The instruction encoding of 30_encoding.md: little-endian fields (R69, R98, R106), the ids of
registers (R20), regions (R22), segments (R108) and opcodes (R116), the decoder (R91 to R118), total on any source of
bytes and rejecting by the diagnostic kind of R287, and after it the encoder (R120). -/

namespace Sys2Proof

/-! ## Byte order (R69) -/

/-- The unsigned value of bytes in little-endian order. -/
def leNat : List Byte → Nat
  | [] => 0
  | b :: bs => b.toNat + 256 * leNat bs

/-- The low `n` bytes of a number, least significant first. -/
def leBytes : Nat → Nat → List Byte
  | 0, _ => []
  | n + 1, v => BitVec.ofNat 8 v :: leBytes n (v / 256)

/-! ## Ids -/

/-- The id of a register (R20). -/
def Reg.id : Reg → Fin 24
  | .rax => 0 | .rbx => 1 | .rcx => 2 | .rdx => 3
  | .rsi => 4 | .rdi => 5 | .rbp => 6 | .rsp => 7
  | .r8 => 8 | .r9 => 9 | .r10 => 10 | .r11 => 11 | .r12 => 12 | .r13 => 13 | .r14 => 14 | .r15 => 15
  | .rip => 16 | .rflags => 17
  | .cs => 18 | .ds => 19 | .ss => 20 | .es => 21 | .fs => 22 | .gs => 23

/-- The register with an id; ids 24 to 31 name none (R20). -/
def Reg.ofId : Nat → Option Reg
  | 0 => some .rax | 1 => some .rbx | 2 => some .rcx | 3 => some .rdx
  | 4 => some .rsi | 5 => some .rdi | 6 => some .rbp | 7 => some .rsp
  | 8 => some .r8 | 9 => some .r9 | 10 => some .r10 | 11 => some .r11
  | 12 => some .r12 | 13 => some .r13 | 14 => some .r14 | 15 => some .r15
  | 16 => some .rip | 17 => some .rflags
  | 18 => some .cs | 19 => some .ds | 20 => some .ss | 21 => some .es | 22 => some .fs | 23 => some .gs
  | _ => none

/-- The id of a region (R22). -/
def Region.id : Region → Nat
  | .lowByte => 0 | .highByte => 1 | .word => 2 | .dword => 3 | .qword => 4

/-- The region with an id; ids 5 to 7 name none (R22). -/
def Region.ofId : Nat → Option Region
  | 0 => some .lowByte | 1 => some .highByte | 2 => some .word | 3 => some .dword | 4 => some .qword
  | _ => none

/-- The width of a region (R22). -/
def Region.width : Region → Width
  | .lowByte => .byte
  | .highByte => .byte
  | .word => .word
  | .dword => .dword
  | .qword => .qword

/-- The lowest bit of a region: HIGH_BYTE is bits 15:8, every other region starts at bit 0 (R22). -/
def Region.lo : Region → Nat
  | .highByte => 8
  | _ => 0

/-- `width(op)` (R101). -/
def Operand.width : Operand → Width
  | .reg r => r.region.width
  | .mem w _ _ => w
  | .imm w _ => w

/-- The width field of a tag byte (R94). -/
def Width.code : Width → Nat
  | .byte => 0 | .word => 1 | .dword => 2 | .qword => 3

/-- The width a tag's bits 1:0 name (R94). -/
def Width.ofCode : Nat → Width
  | 0 => .byte | 1 => .word | 2 => .dword | _ => .qword

/-- The segment id (R108). -/
def SegSel.id : SegSel → Nat
  | .cs => 0 | .ds => 1 | .ss => 2 | .es => 3 | .fs => 4 | .gs => 5 | .noOverride => 7

/-- The segment with an id; id 6 is malformed (R108). -/
def SegSel.ofId : Nat → Option SegSel
  | 0 => some .cs | 1 => some .ds | 2 => some .ss | 3 => some .es | 4 => some .fs | 5 => some .gs
  | 7 => some .noOverride
  | _ => none

/-- `SegOf(op)`: the segment register a segment field selects; without an override it is DS (R108). -/
def SegSel.reg : SegSel → Reg
  | .cs => .cs | .ds => .ds | .ss => .ss | .es => .es | .fs => .fs | .gs => .gs
  | .noOverride => .ds

/-- The id of an addressing mode (R106). -/
def AddrMode.id : AddrMode → Nat
  | .direct .. => 0 | .indirect .. => 1 | .disp .. => 2 | .indexed .. => 3 | .indexedDisp .. => 4
  | .scaled .. => 5 | .scaledDisp .. => 6 | .baseScaled .. => 7 | .baseScaledDisp .. => 8

/-- The base and index registers a mode names, the base first. -/
def AddrMode.regs : AddrMode → List RegRef
  | .direct _ => []
  | .indirect b | .disp _ b => [b]
  | .indexed b i | .indexedDisp _ b i => [b, i]
  | .scaled _ i | .scaledDisp _ _ i => [i]
  | .baseScaled _ b i | .baseScaledDisp _ _ b i => [b, i]

/-! ## The decoder -/

/-- Why an instruction does not decode: the decode kinds of R287. -/
inductive DecodeError where
  | unknownOpcode | badType | badRegister | badRegion | widthMismatch | badMode | badSegment | bounds
deriving DecidableEq, Repr, Inhabited

/-- A source of instruction bytes: the little-endian field of a width at a cursor position (R93), or the error of
reading it. -/
abbrev Fetch := Nat → Width → Except DecodeError Word

/-- A register byte: bits 7:3 the register id, bits 2:0 the region id, checked in that order (R103, R104, R109). -/
def decodeRegRef (b : Nat) : Except DecodeError RegRef :=
  match Reg.ofId (b / 8) with
  | none => .error .badRegister
  | some r =>
    match Region.ofId (b % 8) with
    | none => .error .badRegion
    | some g => .ok ⟨r, g⟩

/-- Reads the register byte at a cursor position. -/
def fetchRegRef (rd : Fetch) (k : Nat) : Except DecodeError RegRef := do
  let b ← rd k .byte
  decodeRegRef b.toNat

/-- Reads the scale field at a cursor position: 2 bytes (R106). -/
def fetchScale (rd : Fetch) (k : Nat) : Except DecodeError (BitVec 16) := do
  let v ← rd k .word
  return v.setWidth 16

/-- The fields of an addressing mode, read from cursor position `k` in the order of R106 and R107: the 8-byte field,
the scale, the base byte, the index byte. Answers the mode and the position after it. -/
def decodeMode (rd : Fetch) (mode k : Nat) : Except DecodeError (AddrMode × Nat) :=
  match mode with
  | 0 => do
    let d ← rd k .qword
    return (.direct d, k + 8)
  | 1 => do
    let b ← fetchRegRef rd k
    return (.indirect b, k + 1)
  | 2 => do
    let d ← rd k .qword
    let b ← fetchRegRef rd (k + 8)
    return (.disp d b, k + 9)
  | 3 => do
    let b ← fetchRegRef rd k
    let i ← fetchRegRef rd (k + 1)
    return (.indexed b i, k + 2)
  | 4 => do
    let d ← rd k .qword
    let b ← fetchRegRef rd (k + 8)
    let i ← fetchRegRef rd (k + 9)
    return (.indexedDisp d b i, k + 10)
  | 5 => do
    let c ← fetchScale rd k
    let i ← fetchRegRef rd (k + 2)
    return (.scaled c i, k + 3)
  | 6 => do
    let d ← rd k .qword
    let c ← fetchScale rd (k + 8)
    let i ← fetchRegRef rd (k + 10)
    return (.scaledDisp d c i, k + 11)
  | 7 => do
    let c ← fetchScale rd k
    let b ← fetchRegRef rd (k + 2)
    let i ← fetchRegRef rd (k + 3)
    return (.baseScaled c b i, k + 4)
  | 8 => do
    let d ← rd k .qword
    let c ← fetchScale rd (k + 8)
    let b ← fetchRegRef rd (k + 10)
    let i ← fetchRegRef rd (k + 11)
    return (.baseScaledDisp d c b i, k + 12)
  | _ => .error .badMode

/-- The mode id names one of the nine modes (R106). -/
def modeIdValid (mode : Nat) : Bool := mode ≤ 8

/-- A memory operand from its payload byte at `k` on: mode id in bits 7:3, segment id in bits 2:0, then the mode's
fields; the checks in the order of R113. -/
def decodeMem (rd : Fetch) (w : Width) (k : Nat) : Except DecodeError (Operand × Nat) := do
  let payload ← rd k .byte
  if modeIdValid (payload.toNat / 8) then
    match SegSel.ofId (payload.toNat % 8) with
    | none => .error .badSegment
    | some seg =>
      let (mode, k') ← decodeMode rd (payload.toNat / 8) (k + 1)
      return (.mem w seg mode, k')
  else .error .badMode

/-- One operand at cursor position `k`: the tag byte (bits 7:6 the type, bits 1:0 the width, bits 5:2 ignored, R94),
then the operand's own fields (R95 to R113). -/
def decodeOperand (rd : Fetch) (k : Nat) : Except DecodeError (Operand × Nat) := do
  let tag ← rd k .byte
  let w := Width.ofCode (tag.toNat % 4)
  match tag.toNat / 64 with
  | 0 =>
    let r ← fetchRegRef rd (k + 1)
    if r.region.width = w then return (.reg r, k + 2) else .error .widthMismatch
  | 1 => decodeMem rd w (k + 1)
  | 2 =>
    let lit ← rd (k + 1) w
    return (.imm w lit, k + 1 + w.bytes)
  | _ => .error .badType

/-- An instruction of one operand after its opcode byte (R90). -/
def decode1 (rd : Fetch) (mk : Operand → Instr) : Except DecodeError (Instr × Nat) := do
  let (a, k) ← decodeOperand rd 1
  return (mk a, k)

/-- An instruction of two operands. -/
def decode2 (rd : Fetch) (mk : Operand → Operand → Instr) : Except DecodeError (Instr × Nat) := do
  let (a, k) ← decodeOperand rd 1
  let (b, k) ← decodeOperand rd k
  return (mk a b, k)

/-- An instruction of three operands. -/
def decode3 (rd : Fetch) (mk : Operand → Operand → Operand → Instr) : Except DecodeError (Instr × Nat) := do
  let (a, k) ← decodeOperand rd 1
  let (b, k) ← decodeOperand rd k
  let (c, k) ← decodeOperand rd k
  return (mk a b c, k)

/-- The loader of an opcode (R116, R119); every other byte value is an unknown opcode (R117). Answers the instruction
and its encoded length. -/
def decodeBody (rd : Fetch) (opc : Nat) : Except DecodeError (Instr × Nat) :=
  match opc with
  | 0x01 => .ok (.nop, 1)
  | 0x02 => decode2 rd .mov
  | 0x03 => decode2 rd .xchg
  | 0x04 => decode2 rd .lea
  | 0x10 => decode1 rd .inc
  | 0x11 => decode1 rd .dec
  | 0x12 => decode2 rd .add
  | 0x13 => decode2 rd .adc
  | 0x14 => decode2 rd .sub
  | 0x15 => decode2 rd .sbb
  | 0x16 => decode1 rd .neg
  | 0x17 => decode2 rd .mul
  | 0x18 => decode2 rd .imul
  | 0x19 => decode2 rd .div
  | 0x1A => decode2 rd .idiv
  | 0x1B => decode2 rd .mod
  | 0x1C => decode2 rd .imod
  | 0x20 => decode2 rd .and
  | 0x21 => decode2 rd .or
  | 0x22 => decode2 rd .xor
  | 0x23 => decode1 rd .not
  | 0x28 => decode2 rd .shl
  | 0x29 => decode2 rd .shr
  | 0x2A => decode2 rd .sal
  | 0x2B => decode2 rd .sar
  | 0x2C => decode2 rd .rol
  | 0x2D => decode2 rd .ror
  | 0x2E => decode2 rd .rcl
  | 0x2F => decode2 rd .rcr
  | 0x30 => decode2 rd .cmp
  | 0x31 => decode2 rd .test
  | 0x40 => decode1 rd .jmp
  | 0x41 => decode1 rd .jz
  | 0x42 => decode1 rd .jnz
  | 0x43 => decode1 rd .jc
  | 0x44 => decode1 rd .jnc
  | 0x45 => decode1 rd .js
  | 0x46 => decode1 rd .jns
  | 0x47 => decode1 rd .jo
  | 0x48 => decode1 rd .jno
  | 0x49 => decode1 rd .jp
  | 0x4A => decode1 rd .jnp
  | 0x4B => decode1 rd .jl
  | 0x4C => decode1 rd .jge
  | 0x4D => decode1 rd .jle
  | 0x4E => decode1 rd .jg
  | 0x50 => decode1 rd .call
  | 0x51 => decode1 rd .ret
  | 0x60 => decode1 rd .push
  | 0x61 => decode1 rd .pop
  | 0x62 => .ok (.pushf, 1)
  | 0x63 => .ok (.popf, 1)
  | 0x64 => .ok (.pusha, 1)
  | 0x65 => .ok (.popa, 1)
  | 0x70 => decode3 rd .inp
  | 0x71 => decode3 rd .out
  | 0x80 => decode1 rd .int
  | _ => .error .unknownOpcode

/-- The whole decoder: the opcode byte, then its loader (R142). -/
def decode (rd : Fetch) : Except DecodeError (Instr × Nat) := do
  let opc ← rd 0 .byte
  decodeBody rd opc.toNat

/-- A list of bytes as a source; a field that runs past its end is refused. -/
def listFetch (bs : List Byte) : Fetch := fun k w =>
  if k + w.bytes ≤ bs.length then .ok (BitVec.ofNat 64 (leNat ((bs.drop k).take w.bytes))) else .error .bounds

/-- The decoder on a list of bytes. -/
def decodeBytes (bs : List Byte) : Except DecodeError (Instr × Nat) := decode (listFetch bs)

/-- The length of the longest instruction: three 14-byte memory operands (R91). -/
def maxLength : Nat := 43

/-- The bytes of an instruction whose low `nbits` bits are `w` and whose other bits, up to the longest instruction,
are zero. The first byte is the opcode; the bytes are as the hardware stores them. -/
def tableBytes (nbits w : Nat) : List Byte := (leBytes (nbits / 8) w ++ List.replicate maxLength 0#8).take maxLength

/-- The instruction the decoder reads from an opcode-table word. -/
def decodeTableWord (nbits w : Nat) : Option Instr :=
  match decodeBytes (tableBytes nbits w) with
  | .ok (i, _) => some i
  | .error _ => none

/-! ## The encoder (R120) -/

/-- A register byte (R103). -/
def RegRef.encode (r : RegRef) : Byte := BitVec.ofNat 8 (8 * r.reg.id + r.region.id)

/-- The fields of an addressing mode (R106, R107). -/
def AddrMode.encode : AddrMode → List Byte
  | .direct a => leBytes 8 a.toNat
  | .indirect b => [b.encode]
  | .disp d b => leBytes 8 d.toNat ++ [b.encode]
  | .indexed b i => [b.encode, i.encode]
  | .indexedDisp d b i => leBytes 8 d.toNat ++ [b.encode, i.encode]
  | .scaled c i => leBytes 2 c.toNat ++ [i.encode]
  | .scaledDisp d c i => leBytes 8 d.toNat ++ leBytes 2 c.toNat ++ [i.encode]
  | .baseScaled c b i => leBytes 2 c.toNat ++ [b.encode, i.encode]
  | .baseScaledDisp d c b i => leBytes 8 d.toNat ++ leBytes 2 c.toNat ++ [b.encode, i.encode]

/-- A tag byte with bits 5:2 zero (R94, R120): type 0 register, 1 memory, 2 immediate. -/
def encodeTag (kind : Nat) (w : Width) : Byte := BitVec.ofNat 8 (64 * kind + w.code)

/-- An operand: the tag byte, the payload byte, the fields (R98, R102, R105). -/
def Operand.encode : Operand → List Byte
  | .reg r => [encodeTag 0 r.region.width, r.encode]
  | .mem w seg mode => encodeTag 1 w :: BitVec.ofNat 8 (8 * mode.id + seg.id) :: mode.encode
  | .imm w lit => encodeTag 2 w :: leBytes w.bytes lit.toNat

/-- The length of an operand's encoding (R115). -/
def Operand.encodedLength : Operand → Nat
  | .reg _ => 2
  | .imm w _ => 1 + w.bytes
  | .mem _ _ mode =>
    match mode with
    | .direct .. => 10
    | .indirect .. => 3
    | .disp .. => 11
    | .indexed .. => 4
    | .indexedDisp .. => 12
    | .scaled .. => 5
    | .scaledDisp .. => 13
    | .baseScaled .. => 6
    | .baseScaledDisp .. => 14

/-- The opcode byte (R116). -/
def Instr.opcode : Instr → Byte
  | .nop => 0x01 | .mov .. => 0x02 | .xchg .. => 0x03 | .lea .. => 0x04
  | .inc .. => 0x10 | .dec .. => 0x11 | .add .. => 0x12 | .adc .. => 0x13 | .sub .. => 0x14 | .sbb .. => 0x15
  | .neg .. => 0x16 | .mul .. => 0x17 | .imul .. => 0x18 | .div .. => 0x19 | .idiv .. => 0x1A | .mod .. => 0x1B
  | .imod .. => 0x1C
  | .and .. => 0x20 | .or .. => 0x21 | .xor .. => 0x22 | .not .. => 0x23
  | .shl .. => 0x28 | .shr .. => 0x29 | .sal .. => 0x2A | .sar .. => 0x2B | .rol .. => 0x2C | .ror .. => 0x2D
  | .rcl .. => 0x2E | .rcr .. => 0x2F
  | .cmp .. => 0x30 | .test .. => 0x31
  | .jmp .. => 0x40 | .jz .. => 0x41 | .jnz .. => 0x42 | .jc .. => 0x43 | .jnc .. => 0x44 | .js .. => 0x45
  | .jns .. => 0x46 | .jo .. => 0x47 | .jno .. => 0x48 | .jp .. => 0x49 | .jnp .. => 0x4A | .jl .. => 0x4B
  | .jge .. => 0x4C | .jle .. => 0x4D | .jg .. => 0x4E
  | .call .. => 0x50 | .ret .. => 0x51
  | .push .. => 0x60 | .pop .. => 0x61 | .pushf => 0x62 | .popf => 0x63 | .pusha => 0x64 | .popa => 0x65
  | .inp .. => 0x70 | .out .. => 0x71
  | .int .. => 0x80

/-- The encoded length of an instruction: `1 + Σ(operand encoded lengths)` (R90). -/
def Instr.encodedLength (i : Instr) : Nat := 1 + (i.operands.map Operand.encodedLength).sum

/-- The bytes of an instruction: the opcode byte, then each operand (R90, R120). -/
def encode (i : Instr) : List Byte := i.opcode :: i.operands.flatMap Operand.encode

end Sys2Proof
end

