-- ==== Sys2Proof/Machine/ResetValues.lean ====
section
/-! DEFINITION. The register values of 10_state.md rule R50, as a function of the memory size. -/

namespace Sys2Proof.Machine

/-- The 24 slots after reset, in id order: RIP is `MEM_SIZE div 3`, RSP and RBP are `MEM_SIZE − 1`, all others 0
(R50). -/
def resetSlots (memSize : Nat) : Slots :=
  let top := BitVec.ofNat 64 (memSize - 1)
  #v[0, 0, 0, 0, 0, 0, top, top,
     0, 0, 0, 0, 0, 0, 0, 0,
     BitVec.ofNat 64 (memSize / 3), 0,
     0, 0, 0, 0, 0, 0]

end Sys2Proof.Machine
end

