-- ==== Sys2Proof/Machine/State.lean ====
section
/-! DEFINITION. The state of the machine as plain data (10_state.md R49, with the outputs of R47 and the parameters of
00_scope.md R11 beside it), the reasons a step can stop, and the state after reset (R50). -/

namespace Sys2Proof.Machine

/-- Why an instruction's rule raises: the execute kinds of R287. -/
inductive ExecError where
  | regionUnsupported | writeImmediate | operandKind | bounds | divideByZero
deriving DecidableEq, Repr, Inhabited

/-- The informational kinds of R287. -/
inductive InfoKind where
  | noDeviceIn | noDeviceOut | stackHistoryMismatch
deriving DecidableEq, Repr, Inhabited

/-- The diagnostic kinds of R287, by class (R286). -/
inductive DiagKind where
  | decode (e : DecodeError)
  | exec (e : ExecError)
  | info (i : InfoKind)
deriving DecidableEq, Repr, Inhabited

/-- One record of the diagnostic stream (R285); its code is `DiagKind.code` of its kind. -/
structure DiagEvent where
  kind : DiagKind
  ip0  : Word
  opc  : Byte
deriving DecidableEq, Repr, Inhabited

/-- One entry of the stack history: the value pushed, the new stack offset, the width in bytes (R272). -/
structure HistoryEntry where
  value   : Word
  address : Word
  width   : Nat
deriving DecidableEq, Repr, Inhabited

/-- A pending jump (R45): the target offset, and a segment value if the jump also targets a segment. -/
structure PendingJump where
  ip  : Word
  seg : Option Word
deriving DecidableEq, Repr, Inhabited

/-- The state between steps. -/
structure State where
  /-- The parameters of R11. -/
  config      : Config
  /-- The register file (R20). -/
  slots       : Slots
  /-- The memory buffer (R61). -/
  mem         : Memory
  /-- `STEP_COUNT` (R43). -/
  stepCount   : Word
  /-- `INTERRUPTED` (R44). -/
  interrupted : Bool
  /-- `INT_CODE` (R44). -/
  intCode     : Word
  /-- `PENDING` (R45). -/
  pending     : Option PendingJump
  /-- The offset of the last step's instruction (R46, R285). -/
  ip0         : Word
  /-- The opcode byte of the last step (R285). -/
  opc         : Byte
  /-- The stack history, oldest entry first (R272). -/
  history     : List HistoryEntry
  /-- The stack history's revision counter (R272). -/
  historyRev  : Nat
  /-- The diagnostic stream, oldest event first (R285). -/
  diags       : List DiagEvent
  /-- The device accesses made, oldest first (R279). -/
  deviceLog   : List DeviceEvent
  /-- The model's own field: how many free values have been drawn (log entry 6). -/
  draws       : Nat
deriving DecidableEq, Repr

/-- Why the machine would stop. No constructor: no behaviour of this block hangs or halts the engine (93, section 1),
and an error never ends the run (R286). Safe (log entry 9). -/
inductive Fault where
deriving DecidableEq, Repr

/-- Why the model would give an instruction no meaning. -/
inductive Refusal where
  /-- Raised by `exec` for an instruction that has no meaning yet; safe. No arm raises it. -/
  | notModelled (mnemonic : String)
deriving DecidableEq, Repr

/-- The outcome of a step of this machine. -/
abbrev Outcome := Host.Outcome State Fault Refusal

/-- The state after construction with given parameters (R50, R310): memory all zero, the outputs empty. -/
def State.construct (c : Config) : State :=
  { config := c
    slots := resetSlots c.memSize.val
    mem := []
    stepCount := 0
    interrupted := false
    intCode := 0
    pending := none
    ip0 := 0
    opc := 0
    history := []
    historyRev := 0
    diags := []
    deviceLog := []
    draws := 0 }

/-- The machine right after reset (R50), with the parameters of log entry 1. -/
def State.reset : State := State.construct Config.default

end Sys2Proof.Machine
end

