-- ==== Sys2Proof/Machine/Ops.lean ====
section
/-! DEFINITION. The named operations over registers, regions, memory, the stack, the diagnostic stream, interrupts and
devices, and the two ways a step ends in an error: R143 (decode) and R146 (execute), each as one shared operation.
There is no return from an error (60_exceptions.md R289): the program goes on with the next step. -/

namespace Sys2Proof.Machine

/-! ## Registers (R20 to R26) -/

/-- `x[r]` (R13, R26). -/
def State.get (s : State) (r : Reg) : Word := s.slots[r.id.val]'r.id.isLt

/-- `x[r] <- v` (R13, R26). -/
def State.set (s : State) (r : Reg) (v : Word) : State :=
  { s with slots := s.slots.set r.id.val v r.id.isLt }

/-- The bits of a region within a slot: `(2^(hi-lo+1) - 1) << lo` (R24). -/
def Region.mask (g : Region) : Word := BitVec.ofNat 64 ((2 ^ g.width.bits - 1) * 2 ^ g.lo)

/-- `x[r]{g}` of a slot value, zero-extended (R24). -/
def Region.read (g : Region) (slot : Word) : Word := (slot &&& Region.mask g) >>> g.lo

/-- A slot value after `x[r]{g} <- v` (R24): bits outside the region are kept. -/
def Region.write (g : Region) (slot v : Word) : Word :=
  (slot &&& ~~~ Region.mask g) ||| ((v <<< g.lo) &&& Region.mask g)

/-- The allowed regions of each register (R23). -/
def Reg.allows (r : Reg) (g : Region) : Bool :=
  match r with
  | .rax | .rbx | .rcx | .rdx => true
  | .rsi | .rdi | .rbp | .rsp | .r8 | .r9 | .r10 | .r11 | .r12 | .r13 | .r14 | .r15 =>
    match g with
    | .highByte => false
    | _ => true
  | .rip | .rflags =>
    match g with
    | .word | .dword | .qword => true
    | _ => false
  | .cs | .ds | .ss | .es | .fs | .gs =>
    match g with
    | .word => true
    | _ => false

/-- A register byte names an allowed region (R23, R25). -/
def RegRef.allowed (r : RegRef) : Bool := Reg.allows r.reg r.region

/-- The region view `x[r]{g}`, zero-extended to 64 bits. -/
def State.getRef (s : State) (r : RegRef) : Word := Region.read r.region (s.get r.reg)

/-- `x[r]{g} <- v`, a merge into the slot. -/
def State.setRef (s : State) (r : RegRef) (v : Word) : State :=
  s.set r.reg (Region.write r.region (s.get r.reg) v)

/-! ## Memory (R60 to R64) -/

/-- The byte at a physical index. An index that is not listed reads 0: memory is cleared on reset (R50, R68). -/
def Memory.get : Memory → Nat → Byte
  | [], _ => 0
  | (k, b) :: m, a => if k = a then b else Memory.get m a

/-- Memory without any entry for a physical index. -/
def Memory.erase : Memory → Nat → Memory
  | [], _ => []
  | (k, c) :: m, a => if k = a then Memory.erase m a else (k, c) :: Memory.erase m a

/-- A new entry, put before the first entry of a higher index. -/
def Memory.insert : Memory → Nat → Byte → Memory
  | [], a, b => [(a, b)]
  | (k, c) :: m, a, b => if a < k then (a, b) :: (k, c) :: m else (k, c) :: Memory.insert m a b

/-- Puts a byte at a physical index; writing 0, what an unlisted index reads as, leaves no entry. -/
def Memory.put (m : Memory) (a : Nat) (b : Byte) : Memory :=
  if b = 0 then Memory.erase m a else Memory.insert (Memory.erase m a) a b

/-- Every index listed is above `lo` or there is no bound, the indices rise strictly, and no entry is 0. -/
def Memory.canonicalFrom : Option Nat → Memory → Bool
  | _, [] => true
  | lo, (k, b) :: m => (lo.all (· < k)) && (b != 0) && Memory.canonicalFrom (some k) m

/-- The canonical form of memory: indices strictly rising, no entry equal to what an unlisted index reads as. -/
def Memory.wf (m : Memory) : Bool := Memory.canonicalFrom none m

/-- Every index listed is inside a buffer of `size` bytes (R61). -/
def Memory.within (size : Nat) (m : Memory) : Bool := m.all (fun c => decide (c.1 < size))

/-- `n` bytes from physical index `p` on, `mem[(p + i) mod MEM_SIZE]` (R62). Under the `fault` policy the index never
passes the end (R64), so the reduction does nothing. -/
def Memory.readBytes (size : Nat) (m : Memory) : Nat → Nat → List Byte
  | _, 0 => []
  | p, n + 1 => Memory.get m (p % size) :: Memory.readBytes size m (p + 1) n

/-- Stores bytes from physical index `p` on (R63). -/
def Memory.writeBytes (size : Nat) : Memory → Nat → List Byte → Memory
  | m, _, [] => m
  | m, p, b :: bs => Memory.writeBytes size (Memory.put m (p % size) b) (p + 1) bs

/-- `MEM_SIZE`. -/
def State.memSize (s : State) : Nat := s.config.memSize.val

/-- `Phys(seg, off)` for a segment value and an offset (R60). -/
def physical (size : Nat) (seg off : Word) : Nat := (off + seg * 16#64).toNat % size

/-- The physical index of an offset in the segment a register holds. -/
def State.phys (s : State) (seg : Reg) (off : Word) : Nat := physical s.memSize (s.get seg) off

/-- `MemRead(p, n)`, zero-extended to 64 bits (R62). -/
def State.memRead (s : State) (p n : Nat) : Word :=
  BitVec.ofNat 64 (leNat (Memory.readBytes s.memSize s.mem p n))

/-- `MemWrite(p, n, v)` (R63). -/
def State.memWrite (s : State) (p n : Nat) (v : Word) : State :=
  { s with mem := Memory.writeBytes s.memSize s.mem p (leBytes n v.toNat) }

/-- The boundary policy lets an `n`-byte access at `p` go on: always under `wrap`, under `fault` only if
`p + n <= MEM_SIZE` (R64). -/
def State.inBounds (s : State) (p n : Nat) : Bool :=
  match s.config.policy with
  | .wrap => true
  | .fault => decide (p + n ≤ s.memSize)

/-! ## Diagnostics (R285, R287) -/

/-- The code of a diagnostic kind (R287). -/
def DiagKind.code : DiagKind → Byte
  | .decode .unknownOpcode => 0x01
  | .decode .badType => 0x02
  | .decode .badRegister => 0x03
  | .decode .badRegion => 0x04
  | .decode .widthMismatch => 0x05
  | .decode .badMode => 0x06
  | .decode .badSegment => 0x07
  | .decode .bounds => 0x08
  | .exec .regionUnsupported => 0x11
  | .exec .writeImmediate => 0x12
  | .exec .operandKind => 0x13
  | .exec .bounds => 0x14
  | .exec .divideByZero => 0x15
  | .info .noDeviceIn => 0x21
  | .info .noDeviceOut => 0x22
  | .info .stackHistoryMismatch => 0x23

/-- `diag(kind)`: one more record, with the step's `ip0` and opcode byte (R285). -/
def State.diag (s : State) (k : DiagKind) : State :=
  { s with diags := s.diags ++ [{ kind := k, ip0 := s.ip0, opc := s.opc }] }

/-! ## How a step ends (R143, R145, R146, R149) -/

/-- Decode failure (R143), on a state that holds the step's snapshot: the diagnostic, `x[RIP] <- ip0 + 1`, nothing
else. -/
def State.raiseDecode (s : State) (e : DecodeError) : State := (s.diag (.decode e)).set .rip (s.ip0 + 1)

/-- Execute failure (R146), on the state before the rule: the diagnostic, and nothing of the instruction. -/
def State.raiseExec (s : State) (e : ExecError) : State := s.diag (.exec e)

/-- `PENDING <- none` (R145). -/
def State.clearPending (s : State) : State := { s with pending := none }

/-- `pc <- t` (R147). -/
def State.jump (s : State) (t : Word) : State := { s with pending := some { ip := t, seg := none } }

/-- The pending jump applied and consumed (R149). -/
def State.applyJump (s : State) : State :=
  match s.pending with
  | none => s
  | some j =>
    let s := (s.clearPending).set .rip j.ip
    match j.seg with
    | none => s
    | some seg => s.set .cs seg

/-- A completed execute: the step counter advances (R145), then the jump is applied (R149). -/
def State.complete (s : State) : State := State.applyJump { s with stepCount := s.stepCount + 1 }

/-! ## The stack and its history (R70, R272, R273) -/

/-- A change of the history; the revision counter advances when the history changes (log entry 8). -/
def State.setHistory (s : State) (h : List HistoryEntry) : State :=
  if h = s.history then s else { s with history := h, historyRev := s.historyRev + 1 }

/-- The history without the entries whose address is below `sp`, unsigned (R273). -/
def State.dropBelow (s : State) (sp : Word) : State :=
  s.setHistory (s.history.filter (fun e => decide (sp.toNat ≤ e.address.toNat)))

/-- The mismatch report of a pop at offset `p`: the history is empty or its last entry's address is not `p` (R273). -/
def State.checkPop (s : State) (p : Word) : State :=
  match s.history.getLast? with
  | some e => if e.address = p then s else s.diag (.info .stackHistoryMismatch)
  | none => s.diag (.info .stackHistoryMismatch)

/-- `Push(n, v)` (R70) with its history entry (R272). -/
def State.push (s : State) (n : Nat) (v : Word) : State :=
  let sp := s.get .rsp - BitVec.ofNat 64 n
  let t := (s.memWrite (s.phys .ss sp) n v).set .rsp sp
  t.setHistory (t.history ++ [{ value := v, address := sp, width := n }])

/-- The value `Pop(n)` answers (R70). -/
def State.popValue (s : State) (n : Nat) : Word := s.memRead (s.phys .ss (s.get .rsp)) n

/-- The effect of `Pop(n)` (R70) with its history check and removal (R273). -/
def State.popMove (s : State) (n : Nat) : State :=
  let p := s.get .rsp
  let sp := p + BitVec.ofNat 64 n
  ((s.set .rsp sp).checkPop p).dropBelow sp

/-! ## Interrupts (R290 to R293) -/

/-- The bytes a listener writes, in order; an index names a cell of the buffer (R61). -/
def Memory.pokes (size : Nat) (m : Memory) : List Host.Cell → Memory
  | [] => m
  | (a, b) :: ws => Memory.pokes size (Memory.put m (a % size) b) ws

/-- What a listener reads (R49, R291). -/
def State.view (s : State) : CpuView :=
  { config := s.config, slots := s.slots, mem := s.mem, stepCount := s.stepCount
    interrupted := s.interrupted, intCode := s.intCode }

/-- The state after a listener's answer: a new architectural state and new registries (R291, log entry 5). The size of
memory and the policy, which are no state (R11, R61), PENDING (R291: INT records none) and the outputs (R47) stay. -/
def State.afterListener (s : State) (a : ListenerAnswer) : State :=
  { s with
    config := { s.config with devices := a.devices, listeners := a.listeners }
    slots := a.slots
    mem := Memory.pokes s.memSize s.mem a.writes
    stepCount := a.stepCount
    interrupted := a.interrupted
    intCode := a.intCode
    draws := s.draws + 1 }

/-- The code offered to listeners in registration order until one reports handled (R290). The chain is the list when the
interrupt is raised; a listener registered by another one meanwhile is offered the next code (log entry 16). -/
def State.offer (s : State) (code : Word) : List Nat → Bool × State
  | [] => (false, s)
  | l :: ls =>
    let a := Config.onInterrupt s.draws l code s.view
    if a.handled then (true, s.afterListener a) else State.offer (s.afterListener a) code ls

/-- `INTERRUPTED <- 1; INT_CODE <- c` (R290). -/
def State.recordInterrupt (s : State) (code : Word) : State := { s with interrupted := true, intCode := code }

/-- `Interrupt(c)` (R290): code 0 is never offered to listeners. -/
def State.interrupt (s : State) (code : Word) : State :=
  if code = 0 then s.recordInterrupt code
  else
    match s.offer code s.config.listeners with
    | (true, t) => t
    | (false, t) => t.recordInterrupt code

/-- `isExiting()` (R292). -/
def State.isExiting (s : State) : Bool := s.interrupted && s.intCode == 0

/-! ## Devices (R275, R276, R279) -/

/-- `DEVICES(p) is defined`. -/
def State.hasDevice (s : State) (port : Word) : Bool := s.config.devices.any (fun d => d.port == port)

/-- What `DeviceRead(port, address)` answers now (R279). -/
def State.deviceAnswer (s : State) (port address : Word) : Word :=
  Config.deviceRead s.draws s.deviceLog port address

/-- The record of a device read (R279). -/
def State.deviceReadEvent (s : State) (port address value : Word) : State :=
  { s with deviceLog := s.deviceLog ++ [.read port address value], draws := s.draws + 1 }

/-- `DeviceWrite(port, address, value)` (R279). -/
def State.deviceWrite (s : State) (port address value : Word) : State :=
  { s with deviceLog := s.deviceLog ++ [.write port address value] }

end Sys2Proof.Machine
end

