-- ==== Sys2Proof/Machine/Flags.lean ====
section
/-! DEFINITION. The flags register (10_state.md R30 to R34) and the flag functions shared by the ALU families
(40_execution_cycle.md R155 to R158), over the integers of 00_scope.md R12. -/

namespace Sys2Proof.Machine

/-- The named flags (R30). -/
inductive Flag where
  | cf | pf | zf | sf | of
deriving DecidableEq, Repr, Inhabited

/-- The bit of RFLAGS that holds a flag (R30). -/
def Flag.bit : Flag → Nat
  | .cf => 0
  | .pf => 2
  | .zf => 6
  | .sf => 7
  | .of => 11

/-- `readFlag` (R31). -/
def State.flag (s : State) (f : Flag) : Bool := (s.get .rflags).getLsbD f.bit

/-- A word with one bit set or cleared. -/
def setBit (v : Word) (i : Nat) (b : Bool) : Word :=
  if b then v ||| (1#64 <<< i) else v &&& ~~~(1#64 <<< i)

/-- `writeFlag`: that bit and no other (R31). -/
def State.writeFlag (s : State) (f : Flag) (b : Bool) : State := s.set .rflags (setBit (s.get .rflags) f.bit b)

/-- Flag writes, in order (R148: after all the rule's other writes). -/
abbrev FlagWrites := List (Flag × Bool)

/-- Commits flag writes. -/
def State.writeFlags (s : State) : FlagWrites → State
  | [] => s
  | (f, b) :: fs => State.writeFlags (s.writeFlag f b) fs

/-! ## Integers of width W (R12) -/

/-- `trunc_W(v)` of a 64-bit value, as a number below `2^W`. -/
def truncNat (W : Nat) (v : Word) : Nat := v.toNat % 2 ^ W

/-- `s_W(a)` of a number below `2^W`. -/
def signed (W a : Nat) : Int := if a.testBit (W - 1) then (a : Int) - 2 ^ W else a

/-- An integer reduced modulo `2^W`, as a number. -/
def wrapInt (W : Nat) (v : Int) : Nat := (v % 2 ^ W).toNat

/-- `-2^(W-1) <= v <= 2^(W-1) - 1`. -/
def fitsSigned (W : Nat) (v : Int) : Bool := decide (-2 ^ (W - 1) ≤ v ∧ v ≤ 2 ^ (W - 1) - 1)

/-- The number of 1 bits among the low `W` bits. -/
def popcount : Nat → Nat → Nat
  | 0, _ => 0
  | W + 1, v => v % 2 + popcount W (v / 2)

/-! ## Shared flag functions -/

/-- What an ALU operation gives: the result at width W, and the flags it writes. -/
structure AluOut where
  result : Nat
  flags  : FlagWrites
deriving DecidableEq, Repr

/-- `SetZSP(r, W)` (R155); parity is over all W bits. -/
def setZSP (W r : Nat) : FlagWrites :=
  [(.zf, r % 2 ^ W == 0), (.sf, r.testBit (W - 1)), (.pf, popcount W r % 2 == 0)]

/-- `AddCore(a, b, cin, W)` (R156). -/
def addCore (W a b : Nat) (cin : Bool) : AluOut :=
  let full := a + b + cin.toNat
  let r := full % 2 ^ W
  { result := r
    flags := [(.cf, decide (2 ^ W ≤ full)),
              (.of, !fitsSigned W (signed W a + signed W b + cin.toNat))] ++ setZSP W r }

/-- `SubCore(a, b, cin, W)` (R157). -/
def subCore (W a b : Nat) (cin : Bool) : AluOut :=
  let r := wrapInt W ((a : Int) - b - cin.toNat)
  { result := r
    flags := [(.cf, decide (a < b + cin.toNat)),
              (.of, !fitsSigned W (signed W a - signed W b - cin.toNat))] ++ setZSP W r }

/-- `LogicFlags(r, W)` (R158). -/
def logicFlags (W r : Nat) : FlagWrites := [(.cf, false), (.of, false)] ++ setZSP W r

end Sys2Proof.Machine
end

