-- ==== Sys2Proof/Machine/Operands.lean ====
section
/-! DEFINITION. Operand access (40_execution_cycle.md R150, R151), effective offsets (30_encoding.md R110), the checks
of an instruction in the order of R153, and the frame of every instruction rule (R145 to R149, R152 to R154). -/

namespace Sys2Proof.Machine

/-! ## Access -/

/-- `EA(op)`: the 64-bit effective offset, modulo 2^64 (R110). -/
def State.ea (s : State) : AddrMode → Word
  | .direct a => a
  | .indirect b => s.getRef b
  | .disp d b => s.getRef b + d
  | .indexed b i => s.getRef b + s.getRef i
  | .indexedDisp d b i => s.getRef b + s.getRef i + d
  | .scaled c i => s.getRef i * c.setWidth 64
  | .scaledDisp d c i => s.getRef i * c.setWidth 64 + d
  | .baseScaled c b i => s.getRef b + s.getRef i * c.setWidth 64
  | .baseScaledDisp d c b i => s.getRef b + s.getRef i * c.setWidth 64 + d

/-- The physical index a memory operand names (R111). -/
def State.memAddr (s : State) (seg : SegSel) (mode : AddrMode) : Nat := s.phys seg.reg (s.ea mode)

/-- `Read(op)`, zero-extended to 64 bits (R150). -/
def State.readOp (s : State) : Operand → Word
  | .reg r => s.getRef r
  | .mem w seg mode => s.memRead (s.memAddr seg mode) w.bytes
  | .imm w lit => BitVec.ofNat 64 (truncNat w.bits lit)

/-- `Write(op, v)` committed to `t`; the address of a memory destination is the one `s`, the state before the
instruction, gives (R148, R151). An immediate is never written: the role check comes first (R152). -/
def State.writeOp (s : State) (op : Operand) (v : Word) (t : State) : State :=
  match op with
  | .reg r => t.setRef r v
  | .mem w seg mode => t.memWrite (s.memAddr seg mode) w.bytes v
  | .imm _ _ => t

/-! ## Checks (R152, R153) -/

/-- The role of an operand (R119). -/
inductive Role where
  | r | w | rw
  /-- Used for its address only. -/
  | m
  /-- Read as a jump target. -/
  | t
deriving DecidableEq, Repr

/-- The role check of one operand (R152). -/
def roleError : Role × Operand → Option ExecError
  | (.w, .imm _ _) => some .writeImmediate
  | (.rw, .imm _ _) => some .writeImmediate
  | (.m, .reg _) => some .operandKind
  | (.m, .imm _ _) => some .operandKind
  | _ => none

/-- Every register the operand names is at an allowed region (R25, R109). -/
def Operand.regionsAllowed : Operand → Bool
  | .reg r => RegRef.allowed r
  | .mem _ _ mode => mode.regs.all RegRef.allowed
  | .imm _ _ => true

/-- The region check of one operand. -/
def regionError (o : Role × Operand) : Option ExecError :=
  if Operand.regionsAllowed o.2 then none else some .regionUnsupported

/-- The bounds check of one operand's memory access; an operand used for its address only makes no access (R182). -/
def State.boundsError (s : State) : Role × Operand → Option ExecError
  | (.m, _) => none
  | (_, .mem w seg mode) => if s.inBounds (s.memAddr seg mode) w.bytes then none else some .bounds
  | _ => none

/-- A stack slot an instruction accesses: its offset in SS and its width in bytes. -/
abbrev StackSlot := Word × Nat

/-- The bounds check of one stack access (R64, R153). -/
def State.slotError (s : State) (k : StackSlot) : Option ExecError :=
  if s.inBounds (s.phys .ss k.1) k.2 then none else some .bounds

/-- The first failing check: roles, then regions, then bounds of the operands, then bounds of the stack slots, each
left to right (R153). -/
def State.check (s : State) (ops : List (Role × Operand)) (slots : List StackSlot) : Option ExecError :=
  (ops.findSome? roleError).or <|
  (ops.findSome? regionError).or <|
  (ops.findSome? s.boundsError).or <|
  (slots.findSome? s.slotError)

/-! ## Instruction rules -/

/-- The execute phase of a step for one instruction (R145 to R149): the checks on the state before the rule; the rule,
which reads that state and answers the committed state or a value error (R153 item 4); then the count and the jump. -/
def runRule (s : State) (ops : List (Role × Operand)) (slots : List StackSlot)
    (rule : State → Except ExecError State) : Outcome :=
  let s := s.clearPending
  match s.check ops slots with
  | some e => .next (s.raiseExec e)
  | none =>
    match rule s with
    | .error e => .next (s.raiseExec e)
    | .ok t => .next t.complete

/-- The commit of a result at the width of `dst`, then the flags (R148). -/
def State.commit (s : State) (dst : Operand) (o : AluOut) : State :=
  (s.writeOp dst (BitVec.ofNat 64 o.result) s).writeFlags o.flags

/-- A one-operand ALU rule: `a = Read(dst)`, the operation at `W = width(dst)`, the result to `dst` (R154). -/
def aluRule1 (op : Nat → Nat → AluOut) (dst : Operand) (s : State) : Outcome :=
  runRule s [(.rw, dst)] [] fun s =>
    .ok (s.commit dst (op dst.width.bits (s.readOp dst).toNat))

/-- A two-operand ALU rule: `a = Read(dst)`, `b = trunc_W(Read(src))` (R154). The operation gets W, a, b and the carry
before the instruction. -/
def aluRule2 (op : Nat → Nat → Nat → Bool → Except ExecError AluOut) (dst src : Operand) (s : State) : Outcome :=
  runRule s [(.rw, dst), (.r, src)] [] fun s => do
    let o ← op dst.width.bits (s.readOp dst).toNat (truncNat dst.width.bits (s.readOp src)) (s.flag .cf)
    return s.commit dst o

/-- A shift or rotate rule (R230): the count is read in full; a zero count writes nothing. The operation gets W, a, the
carry before the instruction, and the count. -/
def shiftRule (op : Nat → Nat → Bool → Nat → AluOut) (dst count : Operand) (s : State) : Outcome :=
  runRule s [(.rw, dst), (.r, count)] [] fun s =>
    let c := (s.readOp count).toNat
    if c = 0 then .ok s
    else .ok (s.commit dst (op dst.width.bits (s.readOp dst).toNat (s.flag .cf) c))

/-- A rule that writes only flags, computed from two operands (R240, R241). -/
def flagsRule (op : Nat → Nat → Nat → FlagWrites) (a b : Operand) (s : State) : Outcome :=
  runRule s [(.r, a), (.r, b)] [] fun s =>
    .ok (s.writeFlags (op a.width.bits (s.readOp a).toNat (truncNat a.width.bits (s.readOp b))))

/-- A jump rule (R245, R246): the target is read in full whether or not the jump is taken. -/
def jumpRule (cond : State → Bool) (target : Operand) (s : State) : Outcome :=
  runRule s [(.t, target)] [] fun s =>
    let t := s.readOp target
    if cond s then .ok (s.jump t) else .ok s

end Sys2Proof.Machine
end

