-- ==== Sys2Proof/Machine/Arithmetic.lean ====
section
/-! DEFINITION. 42_arithmetic.md: INC, DEC, ADD, ADC, SUB, SBB, NEG, MUL, IMUL, DIV, IDIV, MOD, IMOD (R190 to R202). -/

namespace Sys2Proof.Machine

/-! ## The operations at width W -/

/-- INC (R190): CF is not written. -/
def incOp (W a : Nat) : AluOut :=
  let r := (a + 1) % 2 ^ W
  { result := r, flags := (.of, a == 2 ^ (W - 1) - 1) :: setZSP W r }

/-- DEC (R191): CF is not written. -/
def decOp (W a : Nat) : AluOut :=
  let r := wrapInt W ((a : Int) - 1)
  { result := r, flags := (.of, a == 2 ^ (W - 1)) :: setZSP W r }

/-- MUL (R197). -/
def mulOp (W a b : Nat) : AluOut :=
  let p := a * b
  let r := p % 2 ^ W
  { result := r, flags := [(.cf, decide (2 ^ W ≤ p)), (.of, decide (2 ^ W ≤ p))] ++ setZSP W r }

/-- IMUL (R198). -/
def imulOp (W a b : Nat) : AluOut :=
  let p := signed W a * signed W b
  let r := wrapInt W p
  { result := r, flags := [(.cf, !fitsSigned W p), (.of, !fitsSigned W p)] ++ setZSP W r }

/-- The flags after a completed division: CF = OF = 0, ZF, SF, PF from the result (R199 to R202). -/
def divOut (W r : Nat) : AluOut := { result := r, flags := [(.cf, false), (.of, false)] ++ setZSP W r }

/-- DIV (R199). -/
def divOp (W a b : Nat) : Except ExecError AluOut :=
  if b = 0 then .error .divideByZero else .ok (divOut W (a / b))

/-- IDIV (R200): truncated toward zero, wrapped to W bits. -/
def idivOp (W a b : Nat) : Except ExecError AluOut :=
  if b = 0 then .error .divideByZero else .ok (divOut W (wrapInt W ((signed W a).tdiv (signed W b))))

/-- MOD (R201). -/
def modOp (W a b : Nat) : Except ExecError AluOut :=
  if b = 0 then .error .divideByZero else .ok (divOut W (a - b * (a / b)))

/-- IMOD (R202): `a rem b = a - b * (a div b)` (R12). -/
def imodOp (W a b : Nat) : Except ExecError AluOut :=
  if b = 0 then .error .divideByZero
  else .ok (divOut W (wrapInt W (signed W a - signed W b * (signed W a).tdiv (signed W b))))

/-! ## The instructions -/

/-- INC (R190). -/
def execInc (dst : Operand) (s : State) : Outcome := aluRule1 incOp dst s

/-- DEC (R191). -/
def execDec (dst : Operand) (s : State) : Outcome := aluRule1 decOp dst s

/-- ADD (R192). -/
def execAdd (dst src : Operand) (s : State) : Outcome :=
  aluRule2 (fun W a b _ => .ok (addCore W a b false)) dst src s

/-- ADC (R193). -/
def execAdc (dst src : Operand) (s : State) : Outcome :=
  aluRule2 (fun W a b cf => .ok (addCore W a b cf)) dst src s

/-- SUB (R194). -/
def execSub (dst src : Operand) (s : State) : Outcome :=
  aluRule2 (fun W a b _ => .ok (subCore W a b false)) dst src s

/-- SBB (R195). -/
def execSbb (dst src : Operand) (s : State) : Outcome :=
  aluRule2 (fun W a b cf => .ok (subCore W a b cf)) dst src s

/-- NEG (R196): a subtraction from 0. -/
def execNeg (dst : Operand) (s : State) : Outcome := aluRule1 (fun W a => subCore W 0 a false) dst s

/-- MUL (R197). -/
def execMul (dst src : Operand) (s : State) : Outcome := aluRule2 (fun W a b _ => .ok (mulOp W a b)) dst src s

/-- IMUL (R198). -/
def execImul (dst src : Operand) (s : State) : Outcome := aluRule2 (fun W a b _ => .ok (imulOp W a b)) dst src s

/-- DIV (R199). -/
def execDiv (dst src : Operand) (s : State) : Outcome := aluRule2 (fun W a b _ => divOp W a b) dst src s

/-- IDIV (R200). -/
def execIdiv (dst src : Operand) (s : State) : Outcome := aluRule2 (fun W a b _ => idivOp W a b) dst src s

/-- MOD (R201). -/
def execMod (dst src : Operand) (s : State) : Outcome := aluRule2 (fun W a b _ => modOp W a b) dst src s

/-- IMOD (R202). -/
def execImod (dst src : Operand) (s : State) : Outcome := aluRule2 (fun W a b _ => imodOp W a b) dst src s

end Sys2Proof.Machine
end

