-- ==== Sys2Proof/Machine/Control.lean ====
section
/-! DEFINITION. 46_control_transfer.md: JMP, the 14 conditional jumps, CALL, RET (R245 to R262). Every target is an
absolute offset in the current code segment. -/

namespace Sys2Proof.Machine

/-- JMP (R245). -/
def execJmp (target : Operand) (s : State) : Outcome := jumpRule (fun _ => true) target s

/-- JZ (R247): ZF = 1. -/
def execJz (target : Operand) (s : State) : Outcome := jumpRule (fun s => s.flag .zf) target s

/-- JNZ (R248): ZF = 0. -/
def execJnz (target : Operand) (s : State) : Outcome := jumpRule (fun s => !s.flag .zf) target s

/-- JC (R249): CF = 1. -/
def execJc (target : Operand) (s : State) : Outcome := jumpRule (fun s => s.flag .cf) target s

/-- JNC (R250): CF = 0. -/
def execJnc (target : Operand) (s : State) : Outcome := jumpRule (fun s => !s.flag .cf) target s

/-- JS (R251): SF = 1. -/
def execJs (target : Operand) (s : State) : Outcome := jumpRule (fun s => s.flag .sf) target s

/-- JNS (R252): SF = 0. -/
def execJns (target : Operand) (s : State) : Outcome := jumpRule (fun s => !s.flag .sf) target s

/-- JO (R253): OF = 1. -/
def execJo (target : Operand) (s : State) : Outcome := jumpRule (fun s => s.flag .of) target s

/-- JNO (R254): OF = 0. -/
def execJno (target : Operand) (s : State) : Outcome := jumpRule (fun s => !s.flag .of) target s

/-- JP (R255): PF = 1. -/
def execJp (target : Operand) (s : State) : Outcome := jumpRule (fun s => s.flag .pf) target s

/-- JNP (R256): PF = 0. -/
def execJnp (target : Operand) (s : State) : Outcome := jumpRule (fun s => !s.flag .pf) target s

/-- JL (R257): SF != OF. -/
def execJl (target : Operand) (s : State) : Outcome := jumpRule (fun s => s.flag .sf != s.flag .of) target s

/-- JGE (R258): SF = OF. -/
def execJge (target : Operand) (s : State) : Outcome := jumpRule (fun s => s.flag .sf == s.flag .of) target s

/-- JLE (R259): ZF = 1 or SF != OF. -/
def execJle (target : Operand) (s : State) : Outcome :=
  jumpRule (fun s => s.flag .zf || s.flag .sf != s.flag .of) target s

/-- JG (R260): ZF = 0 and SF = OF. -/
def execJg (target : Operand) (s : State) : Outcome :=
  jumpRule (fun s => !s.flag .zf && s.flag .sf == s.flag .of) target s

/-- CALL (R261): the target is read first; the return address, then the base pointer, are pushed; the base pointer
becomes the new stack pointer; then the jump. -/
def execCall (target : Operand) (s : State) : Outcome :=
  runRule s [(.t, target)] [(s.get .rsp - 8, 8), (s.get .rsp - 16, 8)] fun s =>
    let t := s.readOp target
    let u := (s.push 8 (s.get .rip)).push 8 (s.get .rbp)
    .ok ((u.set .rbp (u.get .rsp)).jump t)

/-- RET (R262): the count is read first; the base pointer, then the return address, are popped; the count is dropped
from the stack; then the jump. The drop removes history entries without a mismatch check (R273). -/
def execRet (count : Operand) (s : State) : Outcome :=
  runRule s [(.r, count)] [(s.get .rsp, 8), (s.get .rsp + 8, 8)] fun s =>
    let n := s.readOp count
    let bp := s.popValue 8
    let u := s.popMove 8
    let ret := u.popValue 8
    let u := (u.popMove 8).set .rbp bp
    let sp := u.get .rsp + n
    .ok (((u.set .rsp sp).dropBelow sp).jump ret)

end Sys2Proof.Machine
end

