-- ==== Sys2Proof/Machine/DataMovement.lean ====
section
/-! DEFINITION. 41_data_movement.md: MOV, XCHG, LEA (R180 to R182). -/

namespace Sys2Proof.Machine

/-- MOV (R180). -/
def execMov (dst src : Operand) (s : State) : Outcome :=
  runRule s [(.w, dst), (.r, src)] [] fun s => .ok (s.writeOp dst (s.readOp src) s)

/-- XCHG (R181): both values are read first; the write to `b` is committed last. -/
def execXchg (a b : Operand) (s : State) : Outcome :=
  runRule s [(.rw, a), (.rw, b)] [] fun s =>
    let va := s.readOp a
    let vb := s.readOp b
    .ok (s.writeOp b va (s.writeOp a vb s))

/-- LEA (R182): the effective offset, with no segment and no memory access. A source that is not memory has failed the
role check of R152. -/
def execLea (dst src : Operand) (s : State) : Outcome :=
  runRule s [(.w, dst), (.m, src)] [] fun s =>
    match src with
    | .mem _ _ mode => .ok (s.writeOp dst (s.ea mode) s)
    | _ => .error .operandKind

end Sys2Proof.Machine
end

