-- ==== Sys2Proof/Machine/Logic.lean ====
section
/-! DEFINITION. 43_logic.md (AND, OR, XOR, NOT: R220 to R223) and 45_compare_test.md (CMP, TEST: R240, R241). -/

namespace Sys2Proof.Machine

/-- A logic result with its flags (R158). -/
def logicOut (W r : Nat) : AluOut := { result := r, flags := logicFlags W r }

/-- AND (R220). -/
def execAnd (dst src : Operand) (s : State) : Outcome :=
  aluRule2 (fun W a b _ => .ok (logicOut W (a &&& b))) dst src s

/-- OR (R221). -/
def execOr (dst src : Operand) (s : State) : Outcome :=
  aluRule2 (fun W a b _ => .ok (logicOut W (a ||| b))) dst src s

/-- XOR (R222). -/
def execXor (dst src : Operand) (s : State) : Outcome :=
  aluRule2 (fun W a b _ => .ok (logicOut W (a ^^^ b))) dst src s

/-- NOT (R223). -/
def execNot (dst : Operand) (s : State) : Outcome :=
  aluRule1 (fun W a => logicOut W (a ^^^ (2 ^ W - 1))) dst s

/-- CMP (R240): the flags of a subtraction, no result. -/
def execCmp (a b : Operand) (s : State) : Outcome := flagsRule (fun W x y => (subCore W x y false).flags) a b s

/-- TEST (R241): the flags of an AND, no result. -/
def execTest (a b : Operand) (s : State) : Outcome := flagsRule (fun W x y => logicFlags W (x &&& y)) a b s

end Sys2Proof.Machine
end

