-- ==== Sys2Proof/Machine/Shift.lean ====
section
/-! DEFINITION. 44_shift_rotate.md: SHL, SHR, SAL, SAR, ROL, ROR, RCL, RCR (R230 to R238). The operations are for a count
`c` that is not 0. A count above the width is cut before a power of two is formed, which changes no result. -/

namespace Sys2Proof.Machine

/-- The result of a shift or rotate with its flags: CF as given, OF = 0, ZF, SF, PF from the result (R230). -/
def shiftOut (W r : Nat) (cf : Bool) : AluOut :=
  { result := r, flags := [(.cf, cf), (.of, false)] ++ setZSP W r }

/-- SHL (R231). -/
def shlOp (W a : Nat) (_ : Bool) (c : Nat) : AluOut :=
  shiftOut W (if c < W then a * 2 ^ c % 2 ^ W else 0) (if c ≤ W then a.testBit (W - c) else false)

/-- SHR (R232). -/
def shrOp (W a : Nat) (_ : Bool) (c : Nat) : AluOut :=
  shiftOut W (if c < W then a / 2 ^ c else 0) (if c ≤ W then a.testBit (c - 1) else false)

/-- SAR (R234): `floor(s_W(a) / 2^c) mod 2^W`. -/
def sarOp (W a : Nat) (_ : Bool) (c : Nat) : AluOut :=
  shiftOut W (wrapInt W (signed W a / 2 ^ min c W)) (if c ≤ W then a.testBit (c - 1) else a.testBit (W - 1))

/-- ROL (R235). -/
def rolOp (W a : Nat) (_ : Bool) (c : Nat) : AluOut :=
  let k := c % W
  let r := (a * 2 ^ k + a / 2 ^ (W - k)) % 2 ^ W
  shiftOut W r (r.testBit 0)

/-- ROR (R236). -/
def rorOp (W a : Nat) (_ : Bool) (c : Nat) : AluOut :=
  let k := c % W
  let r := (a / 2 ^ k + a * 2 ^ (W - k)) % 2 ^ W
  shiftOut W r (r.testBit (W - 1))

/-- RCL (R237): the `W + 1`-bit value `CF:a` rotates. -/
def rclOp (W a : Nat) (cf : Bool) (c : Nat) : AluOut :=
  let k := c % (W + 1)
  let v := cf.toNat * 2 ^ W + a
  let v2 := (v * 2 ^ k + v / 2 ^ (W + 1 - k)) % 2 ^ (W + 1)
  shiftOut W (v2 % 2 ^ W) (v2.testBit W)

/-- RCR (R238). -/
def rcrOp (W a : Nat) (cf : Bool) (c : Nat) : AluOut :=
  let k := c % (W + 1)
  let v := cf.toNat * 2 ^ W + a
  let v2 := (v / 2 ^ k + v * 2 ^ (W + 1 - k)) % 2 ^ (W + 1)
  shiftOut W (v2 % 2 ^ W) (v2.testBit W)

/-- SHL (R231). -/
def execShl (dst count : Operand) (s : State) : Outcome := shiftRule shlOp dst count s

/-- SHR (R232). -/
def execShr (dst count : Operand) (s : State) : Outcome := shiftRule shrOp dst count s

/-- SAL (R233): identical in every effect to SHL, with its own opcode. -/
def execSal (dst count : Operand) (s : State) : Outcome := shiftRule shlOp dst count s

/-- SAR (R234). -/
def execSar (dst count : Operand) (s : State) : Outcome := shiftRule sarOp dst count s

/-- ROL (R235). -/
def execRol (dst count : Operand) (s : State) : Outcome := shiftRule rolOp dst count s

/-- ROR (R236). -/
def execRor (dst count : Operand) (s : State) : Outcome := shiftRule rorOp dst count s

/-- RCL (R237). -/
def execRcl (dst count : Operand) (s : State) : Outcome := shiftRule rclOp dst count s

/-- RCR (R238). -/
def execRcr (dst count : Operand) (s : State) : Outcome := shiftRule rcrOp dst count s

end Sys2Proof.Machine
end

