-- ==== Sys2Proof/Machine/Stack.lean ====
section
/-! DEFINITION. 47_stack.md: PUSH, POP, PUSHF, POPF, PUSHA, POPA (R265 to R271), over the primitives of 20_memory.md
R70. -/

namespace Sys2Proof.Machine

/-- PUSH (R265): a slot of the operand's own width. -/
def execPush (src : Operand) (s : State) : Outcome :=
  runRule s [(.r, src)] [(s.get .rsp - BitVec.ofNat 64 src.width.bytes, src.width.bytes)] fun s =>
    .ok (s.push src.width.bytes (s.readOp src))

/-- POP (R266): the destination is written after RSP; a memory destination's address is the one before the pop. -/
def execPop (dst : Operand) (s : State) : Outcome :=
  runRule s [(.w, dst)] [(s.get .rsp, dst.width.bytes)] fun s =>
    .ok (s.writeOp dst (s.popValue dst.width.bytes) (s.popMove dst.width.bytes))

/-- PUSHF (R267): all 64 bits of RFLAGS. -/
def execPushf (s : State) : Outcome :=
  runRule s [] [(s.get .rsp - 8, 8)] fun s => .ok (s.push 8 (s.get .rflags))

/-- POPF (R268): all 64 bits of RFLAGS. -/
def execPopf (s : State) : Outcome :=
  runRule s [] [(s.get .rsp, 8)] fun s => .ok ((s.popMove 8).set .rflags (s.popValue 8))

/-- The list `L` of PUSHA and POPA, in push order (R269). -/
def pushaRegs : List Reg := [.rax, .rbx, .rcx, .rdx, .rsi, .rdi, .r8, .r9, .r10, .r11, .r12, .r13, .r14, .r15]

/-- Pushes full slots in order, each read from the state it finds; no push writes a register of `L`. -/
def State.pushAll (s : State) : List Reg → State
  | [] => s
  | r :: rs => State.pushAll (s.push 8 (s.get r)) rs

/-- Pops full slots in order; no register of `L` takes part in a stack access. -/
def State.popAll (s : State) : List Reg → State
  | [] => s
  | r :: rs => State.popAll ((s.popMove 8).set r (s.popValue 8)) rs

/-- The slots PUSHA writes, in push order, or POPA reads, in pop order. -/
def stackSlots (first : Word) (delta : Word) : Nat → List StackSlot
  | 0 => []
  | n + 1 => (first, 8) :: stackSlots (first + delta) delta n

/-- PUSHA (R270). -/
def execPusha (s : State) : Outcome :=
  runRule s [] (stackSlots (s.get .rsp - 8) (-8) 14) fun s => .ok (s.pushAll pushaRegs)

/-- POPA (R271): the reverse order. -/
def execPopa (s : State) : Outcome :=
  runRule s [] (stackSlots (s.get .rsp) 8 14) fun s => .ok (s.popAll pushaRegs.reverse)

end Sys2Proof.Machine
end

