-- ==== Sys2Proof/Machine/System.lean ====
section
/-! DEFINITION. 48_io_system.md: IN, OUT, NOP, INT (R275 to R278). -/

namespace Sys2Proof.Machine

/-- NOP (R277). -/
def execNop (s : State) : Outcome := runRule s [] [] fun s => .ok s

/-- IN (R275): a device's answer cut to the width of `dst`; without a device, 0 and a diagnostic. The address of a
memory destination is the one before the instruction. -/
def execIn (port address dst : Operand) (s : State) : Outcome :=
  runRule s [(.r, port), (.r, address), (.w, dst)] [] fun s =>
    let p := s.readOp port
    let d := s.readOp address
    if s.hasDevice p then
      let v := s.deviceAnswer p d
      .ok (s.writeOp dst v (s.deviceReadEvent p d v))
    else .ok (s.writeOp dst 0 (s.diag (.info .noDeviceIn)))

/-- OUT (R276). -/
def execOut (port address src : Operand) (s : State) : Outcome :=
  runRule s [(.r, port), (.r, address), (.r, src)] [] fun s =>
    let p := s.readOp port
    if s.hasDevice p then .ok (s.deviceWrite p (s.readOp address) (s.readOp src))
    else .ok (s.diag (.info .noDeviceOut))

/-- INT (R278). -/
def execInt (code : Operand) (s : State) : Outcome :=
  runRule s [(.r, code)] [] fun s => .ok (s.interrupt (s.readOp code))

end Sys2Proof.Machine
end

