-- ==== Sys2Proof/Machine/Dispatch.lean ====
section
/-! DEFINITION. One arm per instruction: the execute phase (40_execution_cycle.md R145 to R149) of that instruction, on the
state in which IP has already advanced (R144). -/

namespace Sys2Proof.Machine

def exec (i : Instr) (s : State) : Host.Outcome State Fault Refusal :=
  match i with
  | .nop => Sys2Proof.Machine.execNop s
  | .mov a b => Sys2Proof.Machine.execMov a b s
  | .xchg a b => Sys2Proof.Machine.execXchg a b s
  | .lea a b => Sys2Proof.Machine.execLea a b s
  | .inc a => Sys2Proof.Machine.execInc a s
  | .dec a => Sys2Proof.Machine.execDec a s
  | .add a b => Sys2Proof.Machine.execAdd a b s
  | .adc a b => Sys2Proof.Machine.execAdc a b s
  | .sub a b => Sys2Proof.Machine.execSub a b s
  | .sbb a b => Sys2Proof.Machine.execSbb a b s
  | .neg a => Sys2Proof.Machine.execNeg a s
  | .mul a b => Sys2Proof.Machine.execMul a b s
  | .imul a b => Sys2Proof.Machine.execImul a b s
  | .div a b => Sys2Proof.Machine.execDiv a b s
  | .idiv a b => Sys2Proof.Machine.execIdiv a b s
  | .mod a b => Sys2Proof.Machine.execMod a b s
  | .imod a b => Sys2Proof.Machine.execImod a b s
  | .and a b => Sys2Proof.Machine.execAnd a b s
  | .or a b => Sys2Proof.Machine.execOr a b s
  | .xor a b => Sys2Proof.Machine.execXor a b s
  | .not a => Sys2Proof.Machine.execNot a s
  | .shl a b => Sys2Proof.Machine.execShl a b s
  | .shr a b => Sys2Proof.Machine.execShr a b s
  | .sal a b => Sys2Proof.Machine.execSal a b s
  | .sar a b => Sys2Proof.Machine.execSar a b s
  | .rol a b => Sys2Proof.Machine.execRol a b s
  | .ror a b => Sys2Proof.Machine.execRor a b s
  | .rcl a b => Sys2Proof.Machine.execRcl a b s
  | .rcr a b => Sys2Proof.Machine.execRcr a b s
  | .cmp a b => Sys2Proof.Machine.execCmp a b s
  | .test a b => Sys2Proof.Machine.execTest a b s
  | .jmp a => Sys2Proof.Machine.execJmp a s
  | .jz a => Sys2Proof.Machine.execJz a s
  | .jnz a => Sys2Proof.Machine.execJnz a s
  | .jc a => Sys2Proof.Machine.execJc a s
  | .jnc a => Sys2Proof.Machine.execJnc a s
  | .js a => Sys2Proof.Machine.execJs a s
  | .jns a => Sys2Proof.Machine.execJns a s
  | .jo a => Sys2Proof.Machine.execJo a s
  | .jno a => Sys2Proof.Machine.execJno a s
  | .jp a => Sys2Proof.Machine.execJp a s
  | .jnp a => Sys2Proof.Machine.execJnp a s
  | .jl a => Sys2Proof.Machine.execJl a s
  | .jge a => Sys2Proof.Machine.execJge a s
  | .jle a => Sys2Proof.Machine.execJle a s
  | .jg a => Sys2Proof.Machine.execJg a s
  | .call a => Sys2Proof.Machine.execCall a s
  | .ret a => Sys2Proof.Machine.execRet a s
  | .push a => Sys2Proof.Machine.execPush a s
  | .pop a => Sys2Proof.Machine.execPop a s
  | .pushf => Sys2Proof.Machine.execPushf s
  | .popf => Sys2Proof.Machine.execPopf s
  | .pusha => Sys2Proof.Machine.execPusha s
  | .popa => Sys2Proof.Machine.execPopa s
  | .inp a b c => Sys2Proof.Machine.execIn a b c s
  | .out a b c => Sys2Proof.Machine.execOut a b c s
  | .int a => Sys2Proof.Machine.execInt a s

end Sys2Proof.Machine
end

