-- ==== Sys2Proof/Machine/Fetch.lean ====
section
/-! DEFINITION. Fetching an instruction from memory (30_encoding.md R93, 40_execution_cycle.md R141, R144), and placing
one where the next step fetches it. -/

namespace Sys2Proof.Machine

/-- The physical index of the instruction byte at cursor position `k`: `Phys(cs0, (ip0 + k) mod 2^64)` (R93). -/
def State.fetchAddr (s : State) (k : Nat) : Nat := s.phys .cs (s.get .rip + BitVec.ofNat 64 k)

/-- A field of the instruction at CS:IP, read under the boundary policy (R93). -/
def State.fetchField (s : State) : Fetch := fun k w =>
  if s.inBounds (s.fetchAddr k) w.bytes then .ok (s.memRead (s.fetchAddr k) w.bytes) else .error .bounds

/-- The instruction at CS:IP and its encoded length (R141, R142). -/
def State.decodeNext (s : State) : Except DecodeError (Instr × Nat) := decode s.fetchField

/-- The step's snapshot: `ip0`, and the opcode byte that diagnostics name (R141, R285). -/
def State.snapshot (s : State) : State :=
  { s with ip0 := s.get .rip, opc := Memory.get s.mem (s.fetchAddr 0) }

/-- The state execute starts from: the snapshot, with IP advanced by the encoded length (R144). -/
def State.beginExecute (s : State) (len : Nat) : State :=
  (s.snapshot).set .rip (s.get .rip + BitVec.ofNat 64 len)

/-- Memory with bytes stored at CS:IP, CS:IP + 1, and so on from cursor position `k`. -/
def State.placeCode (s : State) : Nat → List Byte → Memory → Memory
  | _, [], m => m
  | k, b :: bs, m => State.placeCode s (k + 1) bs (Memory.put m (s.fetchAddr k) b)

end Sys2Proof.Machine
end

