-- ==== Sys2Proof/Machine/Step.lean ====
section
/-! DEFINITION. One host-requested step (40_execution_cycle.md R140 to R149). -/

namespace Sys2Proof.Machine

/-- Fetch and decode at CS:IP; a decode failure is reported and skips one byte (R143); else IP advances (R144) and the
instruction executes (R145 to R149). -/
def step (s : State) : Host.Outcome State Fault Refusal :=
  match s.decodeNext with
  | .error e => .next (s.snapshot.raiseDecode e)
  | .ok (i, len) => exec i (s.beginExecute len)

/-- The state with an opcode-table word, and zeros after it, stored where the next step fetches (log entry 3). -/
def State.withFetchWord (s : State) (nbits w : Nat) : State :=
  { s with mem := s.placeCode 0 (tableBytes nbits w) s.mem }

end Sys2Proof.Machine
end

