-- ==== Sys2Proof/Machine/HostInterface.lean ====
section
/-! DEFINITION. What the host may do between steps (00_scope.md R7): reset, register, flag and memory access,
interrupts, registration. A host call the spec says fails answers `none`, and the state stays as it was. -/

namespace Sys2Proof.Machine

/-! ## Reset (R310 to R312) -/

/-- A reset requested by the host: the values of R50; the parameters, the outputs already emitted and the device and
listener registries are kept (R312). -/
def State.hostReset (s : State) : State :=
  State.setHistory
    { s with
      slots := resetSlots s.memSize
      mem := []
      stepCount := 0
      interrupted := false
      intCode := 0
      pending := none }
    []

/-! ## Registers and flags (R25, R26, R31) -/

/-- `x[r]{g}`; fails on an unsupported region (R25). -/
def State.hostReadRegion (s : State) (r : RegRef) : Option Word :=
  if RegRef.allowed r then some (s.getRef r) else none

/-- `x[r]{g} <- v`; fails on an unsupported region (R25). -/
def State.hostWriteRegion (s : State) (r : RegRef) (v : Word) : Option State :=
  if RegRef.allowed r then some (s.setRef r v) else none

/-- `read(register)` of the full slot (R26). -/
def State.hostReadSlot (s : State) (r : Reg) : Word := s.get r

/-- `write(register, u64)` of the full slot (R26). -/
def State.hostWriteSlot (s : State) (r : Reg) (v : Word) : State := s.set r v

/-- `readFlag` (R31). -/
def State.hostReadFlag (s : State) (f : Flag) : Bool := s.flag f

/-- `writeFlag` (R31). -/
def State.hostWriteFlag (s : State) (f : Flag) (b : Bool) : State := s.writeFlag f b

/-- The step counter, readable by the host only (R43). -/
def State.hostStepCount (s : State) : Word := s.stepCount

/-! ## Memory (R65 to R68) -/

/-- `readByte/Word/Dword/Qword(address[, segment])`: an omitted segment is 0 (R65); under the `fault` policy an access
past the end fails (R64). -/
def State.hostReadCell (s : State) (address : Word) (segment : Word := 0) (w : Width) : Option Word :=
  let p := physical s.memSize segment address
  if s.inBounds p w.bytes then some (s.memRead p w.bytes) else none

/-- `writeByte/Word/Dword/Qword(address[, segment], v)` (R65, R64). -/
def State.hostWriteCell (s : State) (address : Word) (segment : Word := 0) (w : Width) (v : Word) : Option State :=
  let p := physical s.memSize segment address
  if s.inBounds p w.bytes then some (s.memWrite p w.bytes v) else none

/-- `read(address[, segment], length)`: the in-range prefix, never wrapping (R66). -/
def State.hostReadBulk (s : State) (address : Word) (segment : Word := 0) (length : Nat) : List Byte :=
  let p := physical s.memSize segment address
  Memory.readBytes s.memSize s.mem p (min length (s.memSize - p))

/-- `write(address, segment, bytes)`: the in-range prefix is stored, the rest dropped without an error (R67). -/
def State.hostWriteBulk (s : State) (address segment : Word) (bytes : List Byte) : State :=
  let p := physical s.memSize segment address
  { s with mem := Memory.writeBytes s.memSize s.mem p (bytes.take (s.memSize - p)) }

/-- `clear()` (R68). -/
def State.hostClear (s : State) : State := { s with mem := [] }

/-! ## Interrupts (R292, R294) -/

/-- `interrupt(code)` between steps: `Interrupt(code)` at that moment, with no step, no IP change and no count (R294). -/
def State.hostInterrupt (s : State) (code : Word) : State := s.interrupt code

/-- `isExiting()` (R292). -/
def State.hostIsExiting (s : State) : Bool := s.isExiting

/-! ## Registration (R7, R279; log entry 12) -/

/-- Registers a device; a device bound to the same port is replaced, so that a port has at most one (R279). -/
def State.registerDevice (s : State) (d : Device) : State :=
  { s with config := { s.config with devices := s.config.devices.filter (fun e => e.port != d.port) ++ [d] } }

/-- The device bound to a port, for its bound port and name (R279). -/
def State.deviceAt (s : State) (port : Word) : Option Device := s.config.devices.find? (fun d => d.port == port)

/-- Registers a listener after those already registered (R290: "in registration order"). -/
def State.registerListener (s : State) (listener : Nat) : State :=
  { s with config := { s.config with listeners := s.config.listeners ++ [listener] } }

end Sys2Proof.Machine
end

