-- ==== Sys2Proof/Safety.lean ====
section
/-! DEFINITION. The terms claims use: the invariant of the machine, the roles of R119, when an operand can be accessed, what a
write of an operand means bit by bit and byte by byte, and what a completed instruction leaves unchanged. -/

namespace Sys2Proof.Machine

/-! ## The invariant -/

/-- A stack history entry is a push of 1, 2, 4 or 8 bytes and holds a value of that width (R70, R272). -/
def HistoryEntry.wf (e : HistoryEntry) : Bool := (e.width ∈ [1, 2, 4, 8]) && decide (e.value.toNat < 256 ^ e.width)

/-- What holds between steps: memory is canonical and inside the buffer (R61), no jump is pending (R45), and every
history entry is well formed (R272). -/
abbrev State.Inv (s : State) : Prop :=
  Memory.wf s.mem = true ∧ Memory.within s.memSize s.mem = true ∧ s.pending = none ∧
    s.history.all HistoryEntry.wf = true

/-! ## Encodings, in the spec's own terms -/

/-- The positions of the tag bytes of operands that stand one after another from position `k` on (R90, R94). -/
def tagOffsetsFrom : Nat → List Operand → List Nat
  | _, [] => []
  | k, op :: ops => k :: tagOffsetsFrom (k + op.encodedLength) ops

/-- The positions of the tag bytes in the encoding of an instruction: the operands follow the opcode byte (R90). -/
def Instr.tagOffsets (i : Instr) : List Nat := tagOffsetsFrom 1 i.operands

/-- Bytes with the unused bits 5:2 cleared at the positions listed (R94). -/
def clearTagBits (tags : List Nat) (bs : List Byte) : List Byte :=
  bs.mapIdx fun k b => if k ∈ tags then b &&& 0xC3#8 else b

/-- A field of a memory operand after its payload byte, at an offset from the operand's tag byte (R106). -/
inductive MemField where
  /-- An address, displacement or scale. -/
  | data (offset : Nat) (width : Width)
  /-- A base or index register byte. -/
  | regByte (offset : Nat)
deriving DecidableEq, Repr

/-- The fields of each mode id in the order of R106 and R107. -/
def memFields : Nat → List MemField
  | 0 => [.data 2 .qword]
  | 1 => [.regByte 2]
  | 2 => [.data 2 .qword, .regByte 10]
  | 3 => [.regByte 2, .regByte 3]
  | 4 => [.data 2 .qword, .regByte 10, .regByte 11]
  | 5 => [.data 2 .word, .regByte 4]
  | 6 => [.data 2 .qword, .data 10 .word, .regByte 12]
  | 7 => [.data 2 .word, .regByte 4, .regByte 5]
  | 8 => [.data 2 .qword, .data 10 .word, .regByte 12, .regByte 13]
  | _ => []

/-- What is wrong with a register byte: an id of 24 to 31, else a region of 5 to 7 (R104 items 1 and 2, R109). -/
def registerByteError (b : Nat) : Option DecodeError :=
  if 24 ≤ b / 8 then some .badRegister else if 5 ≤ b % 8 then some .badRegion else none

/-- What is wrong with a field of the memory operand whose tag byte is at cursor position `k`: it cannot be read, or it is
a bad register byte (R109, R113). -/
def MemField.error (rd : Fetch) (k : Nat) : MemField → Option DecodeError
  | .data off w =>
    match rd (k + off) w with
    | .ok _ => none
    | .error e => some e
  | .regByte off =>
    match rd (k + off) .byte with
    | .ok b => registerByteError b.toNat
    | .error e => some e

/-! ## Roles and accesses of an instruction -/

/-- The operands with their roles (R119). -/
def Instr.roles : Instr → List (Role × Operand)
  | .nop | .pushf | .popf | .pusha | .popa => []
  | .mov d s => [(.w, d), (.r, s)]
  | .xchg a b => [(.rw, a), (.rw, b)]
  | .lea d s => [(.w, d), (.m, s)]
  | .inc d | .dec d | .neg d | .not d => [(.rw, d)]
  | .add d s | .adc d s | .sub d s | .sbb d s | .mul d s | .imul d s | .div d s | .idiv d s | .mod d s | .imod d s
  | .and d s | .or d s | .xor d s => [(.rw, d), (.r, s)]
  | .shl d c | .shr d c | .sal d c | .sar d c | .rol d c | .ror d c | .rcl d c | .rcr d c => [(.rw, d), (.r, c)]
  | .cmp a b | .test a b => [(.r, a), (.r, b)]
  | .jmp t | .jz t | .jnz t | .jc t | .jnc t | .js t | .jns t | .jo t | .jno t | .jp t | .jnp t | .jl t | .jge t
  | .jle t | .jg t | .call t => [(.t, t)]
  | .ret c => [(.r, c)]
  | .push s => [(.r, s)]
  | .pop d => [(.w, d)]
  | .inp p a d => [(.r, p), (.r, a), (.w, d)]
  | .out p a s => [(.r, p), (.r, a), (.r, s)]
  | .int c => [(.r, c)]

/-- The implicit stack accesses, offset in SS and bytes, in the order the rule lists them (R261, R262, R265 to
R271). -/
def Instr.slots (s : State) : Instr → List StackSlot
  | .call _ => [(s.get .rsp - 8, 8), (s.get .rsp - 16, 8)]
  | .ret _ => [(s.get .rsp, 8), (s.get .rsp + 8, 8)]
  | .push a => [(s.get .rsp - BitVec.ofNat 64 a.width.bytes, a.width.bytes)]
  | .pop a => [(s.get .rsp, a.width.bytes)]
  | .pushf => [(s.get .rsp - 8, 8)]
  | .popf => [(s.get .rsp, 8)]
  | .pusha => (List.range 14).map fun i => (s.get .rsp - BitVec.ofNat 64 (8 * (i + 1)), 8)
  | .popa => (List.range 14).map fun i => (s.get .rsp + BitVec.ofNat 64 (8 * i), 8)
  | _ => []

/-- An operand in a position that writes it (R119). -/
def Role.writes : Role → Bool
  | .w | .rw => true
  | _ => false

/-- An immediate operand. -/
def Operand.isImm : Operand → Bool
  | .imm _ _ => true
  | _ => false

/-- A memory operand. -/
def Operand.isMem : Operand → Bool
  | .mem _ _ _ => true
  | _ => false

/-- The memory access of an operand stays inside the buffer, or the policy wraps it (R64). -/
def State.reaches (s : State) : Operand → Bool
  | .mem w seg mode => s.inBounds (s.memAddr seg mode) w.bytes
  | _ => true

/-- An operand that can be read: its regions are allowed (R25) and its access is not refused (R64). -/
def State.readable (s : State) (op : Operand) : Bool := Operand.regionsAllowed op && s.reaches op

/-- An operand that can be written: readable, and not an immediate (R151). -/
def State.writable (s : State) (op : Operand) : Bool := !Operand.isImm op && s.readable op

/-- A stack access that is not refused (R64). -/
def State.slotOk (s : State) (off : Word) (n : Nat) : Bool := s.inBounds (s.phys .ss off) n

/-! ## What a write means -/

/-- The register an operand names as a destination. -/
def Operand.destRegs : Operand → List Reg
  | .reg r => [r.reg]
  | _ => []

/-- The physical indices of the `n` bytes from `p` on (R62, R63). -/
def byteRange (size p n : Nat) : List Nat := (List.range n).map fun i => (p + i) % size

/-- The bytes of memory a destination operand names: the address is the one the rules use, in the state before the
instruction (R111, R148). -/
def State.destBytes (s : State) : Operand → List Nat
  | .mem w seg mode => byteRange s.memSize (s.memAddr seg mode) w.bytes
  | _ => []

/-- The bytes of memory of a stack slot. -/
def State.slotBytes (s : State) (off : Word) (n : Nat) : List Nat := byteRange s.memSize (s.phys .ss off) n

/-- Bit `i` of RFLAGS is one of these flags. -/
def isFlagBit (flags : List Flag) (i : Nat) : Prop := ∃ f ∈ flags, f.bit = i

/-- The five named flags. -/
def allFlags : List Flag := [.cf, .pf, .zf, .sf, .of]

/-- Memory holds the low `n` bytes of `v` from physical index `p` on, least significant first (R63, R69). -/
def State.memHolds (t : State) (p n : Nat) (v : Word) : Prop :=
  ∀ i, i < n → Memory.get t.mem ((p + i) % t.memSize) = BitVec.ofNat 8 (v.toNat / 256 ^ i)

/-- `new` holds `v` in the destination `dst`, whose address `pre` gives. A register destination: the region's bits are
those of `v`, every other bit of the slot is the one of `old` (R24); where the slot is RFLAGS, the bits of the flags in
`flags` are said elsewhere (R148). A memory destination: its bytes are those of `v` (R63). -/
def Holds (pre old new : State) (dst : Operand) (v : Word) (flags : List Flag) : Prop :=
  match dst with
  | .reg r => ∀ i, i < 64 → (r.reg = .rflags → ¬ isFlagBit flags i) →
      (new.get r.reg).getLsbD i =
        if r.region.lo ≤ i ∧ i < r.region.lo + r.region.width.bits then v.getLsbD (i - r.region.lo)
        else (old.get r.reg).getLsbD i
  | .mem w seg mode => new.memHolds (pre.memAddr seg mode) w.bytes v
  | .imm _ _ => False

/-! ## Frames -/

/-- From `old` to `new` only the registers in `regs`, the flags in `flags` and the memory bytes in `bytes` may differ;
the parameters and the step's snapshot do not differ. -/
structure Frame (old new : State) (regs : List Reg) (flags : List Flag) (bytes : List Nat) : Prop where
  otherRegs  : ∀ r, r ≠ Reg.rflags → r ∉ regs → new.get r = old.get r
  otherBits  : Reg.rflags ∉ regs → ∀ i, i < 64 → ¬ isFlagBit flags i →
    (new.get .rflags).getLsbD i = (old.get .rflags).getLsbD i
  otherBytes : ∀ a, a ∉ bytes → Memory.get new.mem a = Memory.get old.mem a
  config     : new.config = old.config
  ip0        : new.ip0 = old.ip0
  opc        : new.opc = old.opc

/-- A completed execute: the step counter is one up (R145) and no jump stays pending (R149). -/
structure Completed (s t : State) : Prop where
  count   : t.stepCount = s.stepCount + 1
  pending : t.pending = none

/-- The stack history is unchanged. -/
structure SameHistory (s t : State) : Prop where
  history    : t.history = s.history
  historyRev : t.historyRev = s.historyRev

/-- The interrupt state is unchanged. -/
structure SameInterrupt (s t : State) : Prop where
  interrupted : t.interrupted = s.interrupted
  intCode     : t.intCode = s.intCode

/-- No device was accessed and no answer was drawn. -/
structure SameDevices (s t : State) : Prop where
  deviceLog : t.deviceLog = s.deviceLog
  draws     : t.draws = s.draws

/-- A completed instruction with no output, no interrupt and no device access. -/
structure Quiet (s t : State) : Prop where
  completed : Completed s t
  history   : SameHistory s t
  interrupt : SameInterrupt s t
  devices   : SameDevices s t
  diags     : t.diags = s.diags

/-- A completed instruction whose one destination `dst` received `v`, and which wrote the flags in `flags` and nothing
else. -/
structure Wrote (s t : State) (dst : Operand) (v : Word) (flags : List Flag) : Prop where
  value : Holds s s t dst v flags
  frame : Frame s t (Operand.destRegs dst) flags (s.destBytes dst)
  quiet : Quiet s t

/-- The state after an execute error (R146): the diagnostic, and nothing of the instruction. -/
def State.failed (s : State) (e : ExecError) : State :=
  { s with pending := none, diags := s.diags ++ [{ kind := .exec e, ip0 := s.ip0, opc := s.opc }] }

/-! ## Integers and flags, in the spec's own terms -/

/-- `s_W(v)` of a number below `2^W` (R12). -/
def signedOf (W a : Nat) : Int := (BitVec.ofNat W a).toInt

/-- `trunc_W` of an integer, as a number (R12). -/
def truncInt (W : Nat) (v : Int) : Nat := (v % 2 ^ W).toNat

/-- `v` lies outside the signed range of width W. -/
def overflows (W : Nat) (v : Int) : Bool := decide (¬(-2 ^ (W - 1) ≤ v ∧ v ≤ 2 ^ (W - 1) - 1))

/-- The number of 1 bits of the low W bits (R12). -/
def onesOf (W r : Nat) : Nat := ((List.range W).filter fun i => r.testBit i).length

/-- ZF, SF and PF describe `r` at width W (R155). -/
structure ZspFlags (t : State) (W r : Nat) : Prop where
  zf : t.flag .zf = decide (r % 2 ^ W = 0)
  sf : t.flag .sf = r.testBit (W - 1)
  pf : t.flag .pf = decide (onesOf W r % 2 = 0)

/-- All five flags: CF and OF as given, ZF, SF, PF from `r` at width W. -/
structure AluFlags (t : State) (W r : Nat) (cf of : Bool) : Prop where
  cf  : t.flag .cf = cf
  of  : t.flag .of = of
  zsp : ZspFlags t W r

/-- An ALU instruction that writes all five flags: `r` in `dst`, CF and OF as given, ZF, SF, PF from `r` at the width of
`dst`, and nothing else. -/
structure AluWrote (s t : State) (dst : Operand) (r : Nat) (cf of : Bool) : Prop where
  wrote : Wrote s t dst (BitVec.ofNat 64 r) allFlags
  flags : AluFlags t dst.width.bits r cf of

/-- The result and flags of `a + b + c` at the width of `dst` (R156). -/
def SumWritten (s t : State) (dst : Operand) (a b c : Nat) : Prop :=
  AluWrote s t dst ((a + b + c) % 2 ^ dst.width.bits)
    (decide (2 ^ dst.width.bits ≤ a + b + c))
    (overflows dst.width.bits (signedOf dst.width.bits a + signedOf dst.width.bits b + c))

/-- The result and flags of `a - b - c` at the width of `dst` (R157). -/
def DifferenceWritten (s t : State) (dst : Operand) (a b c : Nat) : Prop :=
  AluWrote s t dst (truncInt dst.width.bits ((a : Int) - b - c))
    (decide (a < b + c))
    (overflows dst.width.bits (signedOf dst.width.bits a - signedOf dst.width.bits b - c))

/-- An instruction that wrote flags and nothing else: no register but RFLAGS, no byte of memory. -/
structure FlagsOnly (s t : State) (flags : List Flag) : Prop where
  frame : Frame s t [] flags []
  quiet : Quiet s t

/-! ## The order of the checks (R152, R153) -/

/-- The role violation of one operand (R152). -/
def roleViolation : Role × Operand → Option ExecError
  | (role, op) =>
    if role.writes ∧ Operand.isImm op then some .writeImmediate
    else if role = .m ∧ ¬ Operand.isMem op then some .operandKind
    else none

/-- The region violation of one operand (R25, R109). -/
def regionViolation : Role × Operand → Option ExecError
  | (_, op) => if Operand.regionsAllowed op then none else some .regionUnsupported

/-- The bounds violation of one explicit memory access; an operand used for its address only makes none (R182). -/
def State.boundsViolation (s : State) : Role × Operand → Option ExecError
  | (role, op) => if role = .m ∨ s.reaches op then none else some .bounds

/-- The bounds violation of one implicit stack access. -/
def State.slotViolation (s : State) : StackSlot → Option ExecError
  | (off, n) => if s.slotOk off n then none else some .bounds

/-- Every violation of an instruction in the order of R153: roles, regions, explicit accesses, stack accesses, each left
to right. -/
def State.violations (s : State) (i : Instr) : List ExecError :=
  (Instr.roles i).filterMap roleViolation ++ (Instr.roles i).filterMap regionViolation ++
    (Instr.roles i).filterMap s.boundsViolation ++ (Instr.slots s i).filterMap s.slotViolation

/-- The instruction divides by an operand that is 0 at the width of the dividend (R199 to R202). -/
def State.dividesByZero (s : State) : Instr → Prop
  | .div d x | .idiv d x | .mod d x | .imod d x => (s.readOp x).toNat % 2 ^ d.width.bits = 0
  | _ => False

/-! ## Memory after several stores -/

/-- The byte at physical index `a` after `n` bytes of `v` are stored from `p` on, when it was `b` before (R63). -/
def storedByte (size p n : Nat) (v : Word) (a : Nat) (b : Byte) : Byte :=
  match (List.range n).find? fun i => (p + i) % size = a with
  | some i => BitVec.ofNat 8 (v.toNat / 256 ^ i)
  | none => b

/-- The byte at `a` after 8-byte slots are stored one after the other; where slots share a byte the later one wins
(R148). -/
def State.slotsStored (s : State) (a : Nat) : List (Word × Word) → Byte → Byte
  | [], b => b
  | (off, v) :: ws, b => State.slotsStored s a ws (storedByte s.memSize (s.phys .ss off) 8 v a b)

/-! ## The stack history (R272, R273) -/

/-- The outputs a stack instruction touches: the stack history with its revision counter, and the diagnostics. -/
structure Observed where
  history    : List HistoryEntry
  historyRev : Nat
  diags      : List DiagEvent
deriving DecidableEq, Repr

/-- The outputs of a state. -/
def State.observed (s : State) : Observed := { history := s.history, historyRev := s.historyRev, diags := s.diags }

/-- After a push of `n` bytes with value `v` that left the stack offset at `sp` (R272). -/
def Observed.pushed (o : Observed) (v sp : Word) (n : Nat) : Observed :=
  { o with history := o.history ++ [{ value := v, address := sp, width := n }], historyRev := o.historyRev + 1 }

/-- Without the entries whose address is below `sp`; the revision counter counts a change (R273, log entry 8). -/
def Observed.dropped (o : Observed) (sp : Word) : Observed :=
  let h := o.history.filter fun e => decide (sp.toNat ≤ e.address.toNat)
  { o with history := h, historyRev := if h = o.history then o.historyRev else o.historyRev + 1 }

/-- After a pop of `n` bytes at offset `p` in a step of instruction `ip0`, `opc`: the mismatch event if the history is
empty or its last entry's address is not `p`, then the removal (R273). -/
def Observed.popped (ip0 : Word) (opc : Byte) (n : Nat) (o : Observed) (p : Word) : Observed :=
  let event : DiagEvent := { kind := .info .stackHistoryMismatch, ip0 := ip0, opc := opc }
  let o' := if o.history.getLast?.map HistoryEntry.address = some p then o else { o with diags := o.diags ++ [event] }
  o'.dropped (p + BitVec.ofNat 64 n)

/-- A completed stack instruction that left the outputs at `o`. -/
structure StackStep (s t : State) (o : Observed) : Prop where
  completed : Completed s t
  interrupt : SameInterrupt s t
  devices   : SameDevices s t
  observed  : t.observed = o

/-- The 14 registers of PUSHA in push order (R269). -/
def registerList : List Reg := [.rax, .rbx, .rcx, .rdx, .rsi, .rdi, .r8, .r9, .r10, .r11, .r12, .r13, .r14, .r15]

/-- The slots PUSHA writes, in push order, with what it writes (R270). -/
def State.pushaSlots (s : State) : List (Word × Word) :=
  registerList.zipIdx.map fun (r, i) => (s.get .rsp - BitVec.ofNat 64 (8 * (i + 1)), s.get r)

/-! ## Interrupts (R290, R291) -/

/-- The state after a listener's answer: its architectural state (R49), its registries, one more draw, nothing else. -/
def State.answered (s : State) (a : ListenerAnswer) : State :=
  { s with
    config := { s.config with devices := a.devices, listeners := a.listeners }
    slots := a.slots, mem := Memory.pokes s.memSize s.mem a.writes
    stepCount := a.stepCount, interrupted := a.interrupted, intCode := a.intCode, draws := s.draws + 1 }

/-- `Offered s c ls b t`: the code `c` is offered to the listeners `ls` in order from state `s` until one reports
handled; `b` says whether one did and `t` is the state then. -/
inductive Offered : State → Word → List Nat → Bool → State → Prop where
  | nobody (s : State) (c : Word) : Offered s c [] false s
  | handled (s : State) (c : Word) (l : Nat) (ls : List Nat)
      (h : (Config.onInterrupt s.draws l c s.view).handled = true) :
      Offered s c (l :: ls) true (s.answered (Config.onInterrupt s.draws l c s.view))
  | passed (s : State) (c : Word) (l : Nat) (ls : List Nat) (b : Bool) (t : State)
      (h : (Config.onInterrupt s.draws l c s.view).handled = false)
      (rest : Offered (s.answered (Config.onInterrupt s.draws l c s.view)) c ls b t) :
      Offered s c (l :: ls) b t

/-- The state in which INT's listeners leave the machine for the code `c`: `s` itself for code 0, which is offered to none
(R290), and where no listener is registered. -/
def ListenersLeave (s : State) (c : Word) (u : State) : Prop :=
  (c = 0 ∧ u = s) ∨ (c ≠ 0 ∧ ∃ handled, Offered s c s.config.listeners handled u)

/-- The instruction `i` completed from `s` in `t` (R145): the counter is one up, from where the instruction's commit left it.
Only the listeners of an INT write the counter (R43, R291). -/
def InstrCompleted (i : Instr) (s t : State) : Prop :=
  match i with
  | .int code => ∃ u, ListenersLeave s (s.readOp code) u ∧ Completed u t
  | _ => Completed s t

/-- The state after a completed instruction that changed nothing else: one more step counted, no jump pending. -/
def State.counted (s : State) : State := { s with stepCount := s.stepCount + 1, pending := none }

/-! ## Conditions of the conditional jumps (R246) -/

/-- The 14 conditional jumps with the condition each tests. -/
def conditionalJumps : List ((Operand → Instr) × (State → Prop)) :=
  [ (.jz,  fun s => s.flag .zf = true),
    (.jnz, fun s => s.flag .zf = false),
    (.jc,  fun s => s.flag .cf = true),
    (.jnc, fun s => s.flag .cf = false),
    (.js,  fun s => s.flag .sf = true),
    (.jns, fun s => s.flag .sf = false),
    (.jo,  fun s => s.flag .of = true),
    (.jno, fun s => s.flag .of = false),
    (.jp,  fun s => s.flag .pf = true),
    (.jnp, fun s => s.flag .pf = false),
    (.jl,  fun s => s.flag .sf ≠ s.flag .of),
    (.jge, fun s => s.flag .sf = s.flag .of),
    (.jle, fun s => s.flag .zf = true ∨ s.flag .sf ≠ s.flag .of),
    (.jg,  fun s => s.flag .zf = false ∧ s.flag .sf = s.flag .of) ]

/-! ## Opcodes (R116) -/

/-- The 57 opcode bytes of R116. -/
def assignedOpcodes : List Nat :=
  [0x01, 0x02, 0x03, 0x04] ++ (List.range 13).map (0x10 + ·) ++ (List.range 4).map (0x20 + ·) ++
    (List.range 8).map (0x28 + ·) ++ [0x30, 0x31] ++ (List.range 15).map (0x40 + ·) ++ [0x50, 0x51] ++
    (List.range 6).map (0x60 + ·) ++ [0x70, 0x71, 0x80]

/-! ## What an instruction may change (R27, R31, R32) -/

/-- The operands an instruction writes. -/
def Instr.destinations (i : Instr) : List Operand := ((Instr.roles i).filter fun o => o.1.writes).map Prod.snd

/-- The registers an instruction writes besides its destination operands (R27). -/
def Instr.implicitRegs : Instr → List Reg
  | .call _ | .ret _ => [.rip, .rsp, .rbp]
  | .push _ | .pop _ | .pushf | .pusha => [.rsp]
  | .popf => [.rsp, .rflags]
  | .popa => .rsp :: registerList
  | .jmp _ | .jz _ | .jnz _ | .jc _ | .jnc _ | .js _ | .jns _ | .jo _ | .jno _ | .jp _ | .jnp _ | .jl _ | .jge _
  | .jle _ | .jg _ => [.rip]
  | _ => []

/-- Every register an instruction may change (RFLAGS is here only where the instruction writes it as a register). -/
def Instr.mayWriteRegs (i : Instr) : List Reg := (Instr.destinations i).flatMap Operand.destRegs ++ Instr.implicitRegs i

/-- Every named flag an instruction may change (R32). -/
def Instr.mayWriteFlags : Instr → List Flag
  | .inc _ | .dec _ => [.of, .zf, .sf, .pf]
  | .add _ _ | .adc _ _ | .sub _ _ | .sbb _ _ | .neg _ | .mul _ _ | .imul _ _ | .div _ _ | .idiv _ _ | .mod _ _
  | .imod _ _ | .and _ _ | .or _ _ | .xor _ _ | .not _ | .shl _ _ | .shr _ _ | .sal _ _ | .sar _ _ | .rol _ _
  | .ror _ _ | .rcl _ _ | .rcr _ _ | .cmp _ _ | .test _ _ => allFlags
  | _ => []

/-- The stack slots an instruction writes. -/
def Instr.storedSlots (s : State) (i : Instr) : List StackSlot :=
  match i with
  | .call _ | .push _ | .pushf | .pusha => Instr.slots s i
  | _ => []

/-- Every byte of memory an instruction may change. -/
def State.mayWriteBytes (s : State) (i : Instr) : List Nat :=
  (Instr.destinations i).flatMap s.destBytes ++ (Instr.storedSlots s i).flatMap fun k => s.slotBytes k.1 k.2

end Sys2Proof.Machine
end

