-- ==== Sys2Proof/Certificates/Slice0/Obligations.lean ====
section
/-! DEFINITION. The statements for the provers, family by family, in the terms of `Sys2Proof/Safety.lean`. `expect` is
`holds` for each. A docstring names the rules a statement rests on, and the spec's own decision (D<n>) where a rule is one. -/

open Sys2Proof Sys2Proof.Machine

/-! ## Encoding -/

/-- R121. Every operand and every instruction an encoder can write decodes to itself, whatever follows it, and its
length is the sum of R90 and R115; a tag byte whose bits 5:2 are not zero decodes as with them zero. -/
def Obligations.EncodingRoundTrip : Prop :=
  (∀ (i : Instr) (rest : List Byte), i.wellFormed = true →
    decodeBytes (encode i ++ rest) = .ok (i, i.encodedLength) ∧ (encode i).length = i.encodedLength) ∧
  (∀ (op : Operand) (rest : List Byte), op.wellFormed = true →
    decodeOperand (listFetch (op.encode ++ rest)) 0 = .ok (op, op.encodedLength) ∧
      op.encode.length = op.encodedLength) ∧
  (∀ (op : Operand) (n : Nat) (tag : Byte) (bs : List Byte), decodeOperand (listFetch (tag :: bs)) 0 = .ok (op, n) →
    op.encode = (tag &&& 0xC3#8) :: bs.take (n - 1))

/-- R91, R94, R120, R121 read backwards. Whatever bytes decode: the instruction has an encoding, of the length the decoder
reports, within 1 to 43; and that encoding is the bytes read, with bits 5:2 cleared in the tag byte of each operand and
every other bit kept. That those bytes lie inside the list is the model's choice for a list that ends inside an
instruction (log entry 15). -/
def Obligations.DecodedBytesReencode : Prop :=
  ∀ (bs : List Byte) (i : Instr) (len : Nat), decodeBytes bs = .ok (i, len) →
    i.wellFormed = true ∧ len = (encode i).length ∧ 1 ≤ len ∧ len ≤ 43 ∧ len ≤ bs.length ∧
      encode i = clearTagBits (Instr.tagOffsets i) (bs.take len)

/-- The words of the spec's examples (R180 to R278) decode to the instructions they stand for. -/
def Obligations.SpecWordsDecode : Prop :=
  decodeBytes [0x02, 0x02, 0x03, 0x83, 5, 0, 0, 0, 0, 0, 0, 0] =
      .ok (.mov (.reg ⟨.rax, .dword⟩) (.imm .qword 5), 12) ∧
    decodeBytes [0x03, 0x03, 0x04, 0x03, 0x0C] = .ok (.xchg (.reg ⟨.rax, .qword⟩) (.reg ⟨.rbx, .qword⟩), 5) ∧
    decodeBytes [0x12, 0x00, 0x00, 0x80, 0x01] = .ok (.add (.reg ⟨.rax, .lowByte⟩) (.imm .byte 1), 5) ∧
    decodeBytes [0x50, 0x83, 0x23, 0, 0, 0, 0, 0, 0, 0] = .ok (.call (.imm .qword 35), 10) ∧
    decodeBytes [0x60, 0x03, 0x04] = .ok (.push (.reg ⟨.rax, .qword⟩), 3) ∧
    decodeBytes [0x71, 0x83, 1, 0, 0, 0, 0, 0, 0, 0, 0x83, 0, 0, 0, 0, 0, 0, 0, 0, 0x00, 0x00] =
      .ok (.out (.imm .qword 1) (.imm .qword 0) (.reg ⟨.rax, .lowByte⟩), 21)

/-- R116, R117 (the opcode bytes are the spec's decision D17). A step at a byte that is none of the 57 opcodes reports
DECODE_UNKNOWN_OPCODE (code 0x01) and moves IP by 1; a step at one of the 57 never does. -/
def Obligations.UnassignedOpcodesAreSkipped : Prop :=
  assignedOpcodes.length = 57 ∧
  ∀ s : State,
    let opc := Memory.get s.mem (s.phys .cs (s.get .rip))
    (opc.toNat ∉ assignedOpcodes →
      step s = .next (State.set
        { s with ip0 := s.get .rip, opc := opc
                 diags := s.diags ++ [{ kind := .decode .unknownOpcode, ip0 := s.get .rip, opc := opc }] }
        .rip (s.get .rip + 1))) ∧
    (opc.toNat ∈ assignedOpcodes → s.decodeNext ≠ .error .unknownOpcode) ∧
    DiagKind.code (.decode .unknownOpcode) = 0x01

/-- R95, R104, R108, R109, R113 (D11, D13, D14, D15, D53), for the decoder over any source of bytes: the malformed operands,
each with the kind the rule names, the checks in the order the rules give. For a memory operand: mode id, then segment id,
whatever the fields hold; then the first field, in the order of R106, that cannot be read or is a base or index register
byte with an id of 24 to 31 or, after that, a region of 5 to 7. -/
def Obligations.MalformedOperandsAreRejected : Prop :=
  ∀ (rd : Fetch) (k : Nat) (tag payload : Word), rd k .byte = .ok tag → rd (k + 1) .byte = .ok payload →
    (tag.toNat / 64 = 3 → decodeOperand rd k = .error .badType) ∧
    (tag.toNat / 64 = 0 → 24 ≤ payload.toNat / 8 → decodeOperand rd k = .error .badRegister) ∧
    (tag.toNat / 64 = 0 → payload.toNat / 8 < 24 → 5 ≤ payload.toNat % 8 →
      decodeOperand rd k = .error .badRegion) ∧
    (tag.toNat / 64 = 0 → payload.toNat / 8 < 24 →
      ∀ g : Region, Region.ofId (payload.toNat % 8) = some g → g.width.code ≠ tag.toNat % 4 →
        decodeOperand rd k = .error .widthMismatch) ∧
    (tag.toNat / 64 = 1 → 9 ≤ payload.toNat / 8 → decodeOperand rd k = .error .badMode) ∧
    (tag.toNat / 64 = 1 → payload.toNat / 8 < 9 → payload.toNat % 8 = 6 → decodeOperand rd k = .error .badSegment) ∧
    (tag.toNat / 64 = 1 → payload.toNat / 8 < 9 → payload.toNat % 8 ≠ 6 →
      ∀ e, (memFields (payload.toNat / 8)).findSome? (MemField.error rd k) = some e → decodeOperand rd k = .error e)

/-! ## The step -/

/-- R144. When the bytes at CS:IP decode to `i`, the step is `exec i` on the state with the snapshot taken and IP advanced
by the encoded length, modulo 2^64; an execute error does not undo the advance. -/
def Obligations.StepRunsDecodedInstruction : Prop :=
  ∀ (s : State) (i : Instr) (len : Nat), s.decodeNext = .ok (i, len) → i.wellFormed = true →
    let u := State.set { s with ip0 := s.get .rip, opc := Memory.get s.mem (s.phys .cs (s.get .rip)) }
      .rip (s.get .rip + BitVec.ofNat 64 len)
    step s = exec i u ∧
    ∀ (t : State) (e : ExecError), step s = .next t → t = u.failed e →
      (t.get .rip).toNat = ((s.get .rip).toNat + len) % 2 ^ 64

/-- R80, R93, R121, R141. Where memory holds the encoding of a well-formed instruction at CS:IP, the step runs that
instruction with IP advanced by its length: under the `wrap` policy wherever it lies, under the `fault` policy if it does not
pass the end of the buffer. The sum CS * 16 + IP must not pass 2^64 inside the instruction. -/
def Obligations.EncodedBytesAtIpRun : Prop :=
  ∀ (s : State) (i : Instr), i.wellFormed = true →
    (∀ (k : Nat) (b : Byte), (encode i)[k]? = some b → Memory.get s.mem (s.fetchAddr k) = b) →
    (s.get .rip + s.get .cs * 16#64).toNat + (encode i).length ≤ 2 ^ 64 →
    (s.config.policy = .wrap ∨ s.fetchAddr 0 + (encode i).length ≤ s.memSize) →
    step s = exec i (State.set
      { s with ip0 := s.get .rip, opc := i.opcode }
      .rip (s.get .rip + BitVec.ofNat 64 (encode i).length))

/-- R143. A decode failure: the diagnostic, IP moved by exactly 1, and nothing else (the snapshot is the step's own). -/
def Obligations.DecodeFailureSkipsOneByte : Prop :=
  ∀ (s : State) (e : DecodeError), s.decodeNext = .error e →
    step s = .next (State.set
      { s with ip0 := s.get .rip, opc := Memory.get s.mem (s.phys .cs (s.get .rip))
               diags := s.diags ++ [{ kind := .decode e, ip0 := s.get .rip
                                      opc := Memory.get s.mem (s.phys .cs (s.get .rip)) }] }
      .rip (s.get .rip + 1))

/-- R145, R146, R286, R288. An instruction always answers a next state, and that state is one of two: the step is counted
and the pending jump consumed, or nothing of the instruction is left but one diagnostic. Counted means one up from the
counter before the instruction; for an INT, one up from the counter its listeners leave (R291, D40; log entry 5). -/
def Obligations.ExecCompletesOrReports : Prop :=
  ∀ (i : Instr) (s : State), ∃ t, exec i s = .next t ∧ (InstrCompleted i s t ∨ ∃ e, t = s.failed e)

/-- R152, R153 (D37). The error an instruction reports is the first in the order of R153, value checks last; with no
violation and no zero divisor it completes (an INT's counter: as in ExecCompletesOrReports, log entry 5). -/
def Obligations.ChecksAreReportedInOrder : Prop :=
  ∀ (i : Instr) (s : State),
    (∀ e es, s.violations i = e :: es → exec i s = .next (s.failed e)) ∧
    (s.violations i = [] → s.dividesByZero i → exec i s = .next (s.failed .divideByZero)) ∧
    (s.violations i = [] → ¬ s.dividesByZero i → ∃ t, exec i s = .next t ∧ InstrCompleted i s t)

/-- R27, R31, R32, R34, R63, R148. The frame of every instruction but INT (whose listeners may write anything, R291): no
other register, no other flag or reserved bit of RFLAGS, no other byte of memory changes. -/
def Obligations.EveryInstructionFrame : Prop :=
  ∀ (i : Instr) (s t : State), (∀ c, i ≠ .int c) → exec i s = .next t →
    Frame s t (Instr.mayWriteRegs i) (Instr.mayWriteFlags i) (s.mayWriteBytes i)

/-- The invariant holds after every step, from every state that has it. No pending jump is R45, every index below MEM_SIZE
R61, the history entries R70 and R272. That memory is a strictly rising list without zero entries is the model's own
representation (log entry 13), and that a listener leaves the history and the pending jump alone the model's reading (log
entry 5). -/
def Obligations.StepKeepsInvariant : Prop :=
  ∀ s t : State, s.Inv → step s = .next t → t.Inv

/-- The invariant holds after reset (R45, R50, R61), whatever the parameters. The canonical form of memory is the model's
representation (log entry 13); the parameters of `State.reset` are the model's choice (log entry 1). -/
def Obligations.ResetMeetsInvariant : Prop :=
  State.reset.Inv ∧ ∀ c : Config, (State.construct c).Inv

/-- R48, R61, R312 (D43). No step changes the size of memory or the policy; no instruction changes the devices or the
listeners, unless it is an INT with a listener to call, which may change the two registries (R291, D40; log entry 5). No
reset changes any of the four. -/
def Obligations.ConfigurationNeverChanges : Prop :=
  (∀ s t : State, step s = .next t →
    t.config.memSize = s.config.memSize ∧ t.config.policy = s.config.policy ∧
    (s.config.listeners = [] → t.config = s.config)) ∧
  (∀ (i : Instr) (s t : State), (∀ c, i ≠ .int c) → exec i s = .next t → t.config = s.config) ∧
  ∀ s : State, s.hostReset.config = s.config

/-- R41. While no listener is registered, segment registers stay below 2^16: instructions write only their WORD. -/
def Obligations.SegmentRegistersStayWords : Prop :=
  ∀ s t : State, s.config.listeners = [] → step s = .next t →
    (∀ r ∈ [Reg.cs, .ds, .ss, .es, .fs, .gs], (s.get r).toNat < 2 ^ 16) →
    ∀ r ∈ [Reg.cs, .ds, .ss, .es, .fs, .gs], (t.get r).toNat < 2 ^ 16

/-- R285, R296. A step only appends to the diagnostic stream; each new record names the step's instruction; a decode or
execute error is the only record of its step, and that step is not counted. That a listener called by an INT leaves the
diagnostic stream alone is the model's reading of R47 and R287 (log entry 5). -/
def Obligations.DiagnosticsOnlyGrow : Prop :=
  ∀ s t : State, step s = .next t → ∃ new, t.diags = s.diags ++ new ∧
    (∀ d ∈ new, d.ip0 = s.get .rip ∧ d.opc = Memory.get s.mem (s.phys .cs (s.get .rip))) ∧
    (∀ d ∈ new, (∀ k, d.kind ≠ .info k) → new = [d] ∧ t.stepCount = s.stepCount)

/-- R44, R293 (D39). Only INT changes the interrupt state, and no step clears it; where listeners are registered, an INT may,
because a listener may write any state (R291, D40; log entry 5). -/
def Obligations.InterruptStatePersists : Prop :=
  (∀ (i : Instr) (s t : State), (∀ c, i ≠ .int c) → exec i s = .next t → SameInterrupt s t) ∧
  (∀ s t : State, step s = .next t → s.interrupted = true →
    t.interrupted = true ∨ (∃ c len, s.decodeNext = .ok (.int c, len)) ∧ s.config.listeners ≠ [])

/-- R50, R312 (D43). Reset: the values of R50, the parameters and outputs kept (the record of device accesses by log
entry 10); `State.reset` has the same values. -/
def Obligations.ResetLeavesSpecValues : Prop :=
  ∀ s t : State, (t = s.hostReset ∨ t = State.construct s.config) →
    (∀ r ∈ [Reg.rax, .rbx, .rcx, .rdx, .rsi, .rdi, .r8, .r9, .r10, .r11, .r12, .r13, .r14, .r15, .rflags,
            .cs, .ds, .ss, .es, .fs, .gs], t.get r = 0) ∧
    (t.get .rip).toNat = s.memSize / 3 ∧ (t.get .rsp).toNat = s.memSize - 1 ∧ (t.get .rbp).toNat = s.memSize - 1 ∧
    t.interrupted = false ∧ t.intCode = 0 ∧ t.stepCount = 0 ∧ t.history = [] ∧ t.pending = none ∧
    (∀ a, Memory.get t.mem a = 0) ∧ t.config = s.config ∧
    (t = s.hostReset → t.diags = s.diags ∧ t.deviceLog = s.deviceLog)

/-! ## Registers, addresses, memory -/

/-- R22, R24. The region view of a slot as a number, and the merge of a write into the slot: for each region the
bit range of R22. -/
def Obligations.RegionViewReadWrite : Prop :=
  ∀ (s : State) (r : Reg) (g : Region) (lo width : Nat) (v : Word),
    (g, lo, width) ∈ [(Region.lowByte, 0, 8), (.highByte, 8, 8), (.word, 0, 16), (.dword, 0, 32), (.qword, 0, 64)] →
    (s.getRef ⟨r, g⟩).toNat = (s.get r).toNat / 2 ^ lo % 2 ^ width ∧
    ((s.setRef ⟨r, g⟩ v).get r).toNat =
      (s.get r).toNat % 2 ^ lo + v.toNat % 2 ^ width * 2 ^ lo +
        (s.get r).toNat / 2 ^ (lo + width) * 2 ^ (lo + width) ∧
    ∀ q, q ≠ r → (s.setRef ⟨r, g⟩ v).get q = s.get q

/-- R23 (D9). The allowed regions of every register. -/
def Obligations.AllowedRegionTable : Prop :=
  ∀ (r : Reg) (g : Region), RegRef.allowed ⟨r, g⟩ = true ↔
    (r ∈ [Reg.rax, .rbx, .rcx, .rdx]) ∨
    (r ∈ [Reg.rsi, .rdi, .rbp, .rsp, .r8, .r9, .r10, .r11, .r12, .r13, .r14, .r15] ∧ g ≠ .highByte) ∨
    (r ∈ [Reg.rip, .rflags] ∧ g ∈ [Region.word, .dword, .qword]) ∨
    (r ∈ [Reg.cs, .ds, .ss, .es, .fs, .gs] ∧ g = .word)

/-- R31. Each named flag is read at its bit (R30, D16); `writeFlag` sets or clears that bit and no other, and no other
register; an instruction keeps every flag its rule does not name, unless RFLAGS is its destination (POPF among them) or it is
INT, whose listeners may write anything (R291). -/
def Obligations.FlagReadWrite : Prop :=
  ∀ (s : State) (f : Flag) (n : Nat) (b : Bool),
    (f, n) ∈ [(Flag.cf, 0), (.pf, 2), (.zf, 6), (.sf, 7), (.of, 11)] →
    s.hostReadFlag f = (s.get .rflags).getLsbD n ∧
    (∀ i, i < 64 → ((s.hostWriteFlag f b).get .rflags).getLsbD i = if i = n then b else (s.get .rflags).getLsbD i) ∧
    (∀ r, r ≠ Reg.rflags → (s.hostWriteFlag f b).get r = s.get r) ∧ (s.hostWriteFlag f b).mem = s.mem ∧
    (∀ (i : Instr) (t : State), (∀ c, i ≠ .int c) → .rflags ∉ Instr.mayWriteRegs i → f ∉ Instr.mayWriteFlags i →
      exec i s = .next t → t.flag f = s.flag f)

/-- R110 (D15). The effective offset of the nine modes, modulo 2^64. -/
def Obligations.EffectiveOffsetModes : Prop :=
  ∀ (s : State) (d : Word) (c : BitVec 16) (b i : RegRef),
    let D := d.toNat; let S := c.toNat; let B := (s.getRef b).toNat; let I := (s.getRef i).toNat
    (s.ea (.direct d)).toNat = D ∧
    (s.ea (.indirect b)).toNat = B ∧
    (s.ea (.disp d b)).toNat = (B + D) % 2 ^ 64 ∧
    (s.ea (.indexed b i)).toNat = (B + I) % 2 ^ 64 ∧
    (s.ea (.indexedDisp d b i)).toNat = (B + I + D) % 2 ^ 64 ∧
    (s.ea (.scaled c i)).toNat = I * S % 2 ^ 64 ∧
    (s.ea (.scaledDisp d c i)).toNat = (I * S + D) % 2 ^ 64 ∧
    (s.ea (.baseScaled c b i)).toNat = (B + I * S) % 2 ^ 64 ∧
    (s.ea (.baseScaledDisp d c b i)).toNat = (B + I * S + D) % 2 ^ 64

/-- R60, R108, R111 (D4, D14). The physical index of a memory operand: offset plus segment times 16, modulo 2^64, modulo
the size; no override means DS; the result is inside the buffer. -/
def Obligations.PhysicalIndexFormula : Prop :=
  ∀ (s : State) (m : AddrMode) (seg : SegSel) (r : Reg),
    (seg, r) ∈ [(SegSel.cs, Reg.cs), (.ds, .ds), (.ss, .ss), (.es, .es), (.fs, .fs), (.gs, .gs), (.noOverride, .ds)] →
    s.memAddr seg m = ((s.ea m).toNat + (s.get r).toNat * 16) % 2 ^ 64 % s.memSize ∧ s.memAddr seg m < s.memSize

/-- R62, R98, R150. What an operand reads as, zero-extended: a register's region, the little-endian bytes in memory, a
literal. -/
def Obligations.OperandValueRead : Prop :=
  ∀ s : State,
    (∀ r : RegRef, (s.readOp (.reg r)).toNat = (s.get r.reg).toNat / 2 ^ r.region.lo % 2 ^ r.region.width.bits) ∧
    (∀ (w : Width) (seg : SegSel) (m : AddrMode),
      (s.readOp (.mem w seg m)).toNat =
        ((List.range w.bytes).map fun i =>
          (Memory.get s.mem ((s.memAddr seg m + i) % s.memSize)).toNat * 256 ^ i).sum) ∧
    (∀ (w : Width) (lit : Word), Operand.wellFormed (.imm w lit) = true → s.readOp (.imm w lit) = lit)

/-- R62, R63. A read of 1, 2, 4 or 8 bytes is the little-endian sum of the bytes; after a write of the same bytes it is the
value at that width; each byte written is its part of the value; every other byte is unchanged; a narrower read gives the low
part. -/
def Obligations.MemoryReadAfterWrite : Prop :=
  ∀ (s : State) (p n : Nat) (v : Word), n ∈ [1, 2, 4, 8] → p < s.memSize →
    (s.memRead p n).toNat =
      ((List.range n).map fun i => (Memory.get s.mem ((p + i) % s.memSize)).toNat * 256 ^ i).sum ∧
    ((s.memWrite p n v).memRead p n).toNat = v.toNat % 256 ^ n ∧
    (∀ i, i < n → (Memory.get (s.memWrite p n v).mem ((p + i) % s.memSize)).toNat = v.toNat / 256 ^ i % 256) ∧
    (∀ a, a ∉ byteRange s.memSize p n → Memory.get (s.memWrite p n v).mem a = Memory.get s.mem a) ∧
    (∀ m, m ∈ [1, 2, 4, 8] → m ≤ n → ((s.memWrite p n v).memRead p m).toNat = v.toNat % 256 ^ m)

/-- R64 (D5), R65 (D4), R93 (D49). An access that passes the end of the buffer: under `fault` it is refused and nothing is
written or answered; under `wrap` its bytes go on at index 0 (MemoryReadAfterWrite says which bytes `memRead` and `memWrite`
are). So for a load, a store, a field of the instruction and the host's single-cell read and write, whose omitted segment
is 0. -/
def Obligations.BoundaryPolicyOnAccess : Prop :=
  (∀ (s : State) (r : RegRef) (w : Width) (seg : SegSel) (m : AddrMode),
    RegRef.allowed r = true → (m.regs.all RegRef.allowed) = true →
    (s.config.policy = .fault → s.memSize < s.memAddr seg m + w.bytes →
      exec (.mov (.reg r) (.mem w seg m)) s = .next (s.failed .bounds) ∧
      exec (.mov (.mem w seg m) (.reg r)) s = .next (s.failed .bounds)) ∧
    (s.config.policy = .wrap ∨ s.memAddr seg m + w.bytes ≤ s.memSize →
      (∃ t, exec (.mov (.reg r) (.mem w seg m)) s = .next t ∧
        Wrote s t (.reg r) (s.memRead (s.memAddr seg m) w.bytes) []) ∧
      (∃ t, exec (.mov (.mem w seg m) (.reg r)) s = .next t ∧ Wrote s t (.mem w seg m) (s.getRef r) []))) ∧
  (∀ (s : State) (k : Nat) (w : Width),
    (s.config.policy = .fault → s.memSize < s.fetchAddr k + w.bytes → s.fetchField k w = .error .bounds) ∧
    (s.config.policy = .wrap ∨ s.fetchAddr k + w.bytes ≤ s.memSize →
      s.fetchField k w = .ok (s.memRead (s.fetchAddr k) w.bytes))) ∧
  (∀ (s : State) (address segment v : Word) (w : Width),
    let p := (address.toNat + segment.toNat * 16) % 2 ^ 64 % s.memSize
    (s.config.policy = .fault → s.memSize < p + w.bytes →
      s.hostReadCell address segment w = none ∧ s.hostWriteCell address segment w v = none) ∧
    (s.config.policy = .wrap ∨ p + w.bytes ≤ s.memSize →
      s.hostReadCell address segment w = some (s.memRead p w.bytes) ∧
      s.hostWriteCell address segment w v = some (s.memWrite p w.bytes v)) ∧
    s.hostReadCell address (w := w) = s.hostReadCell address 0 w ∧
    s.hostWriteCell address (w := w) (v := v) = s.hostWriteCell address 0 w v)

/-- R66, R67 (Phys is R60, D4). The host's bulk transfers stop at the end of the buffer: a read gives the bytes of the in-range prefix; a
write stores the in-range prefix, drops the rest and changes no other byte. -/
def Obligations.HostBulkTransfersTruncate : Prop :=
  ∀ (s : State) (address segment : Word) (length : Nat) (bytes : List Byte),
    let p := (address.toNat + segment.toNat * 16) % 2 ^ 64 % s.memSize
    s.hostReadBulk address segment length =
      (List.range (min length (s.memSize - p))).map (fun i => Memory.get s.mem (p + i)) ∧
    (∀ (i : Nat) (b : Byte), bytes[i]? = some b → p + i < s.memSize →
      Memory.get (s.hostWriteBulk address segment bytes).mem (p + i) = b) ∧
    (∀ a, a < p ∨ p + bytes.length ≤ a ∨ s.memSize ≤ a →
      Memory.get (s.hostWriteBulk address segment bytes).mem a = Memory.get s.mem a)

/-! ## Data movement -/

/-- R180. MOV: the destination holds the source's value cut to its width, and nothing else changed. -/
def Obligations.MovCopies : Prop :=
  ∀ (s : State) (dst src : Operand), s.writable dst = true → s.readable src = true →
    ∃ t, exec (.mov dst src) s = .next t ∧ Wrote s t dst (s.readOp src) []

/-- R181 (D48). XCHG: both values are those before the instruction; `a` is written first, `b` last. The state `u` between
the two writes says which bits of overlapping operands win. -/
def Obligations.XchgExchanges : Prop :=
  ∀ (s : State) (a b : Operand), s.writable a = true → s.writable b = true →
    ∃ u t, exec (.xchg a b) s = .next t ∧
      Holds s s u a (s.readOp b) [] ∧ Frame s u (Operand.destRegs a) [] (s.destBytes a) ∧
      Holds s u t b (s.readOp a) [] ∧ Frame u t (Operand.destRegs b) [] (s.destBytes b) ∧ Quiet s t

/-- R182 (D15, D19). LEA: the destination holds the effective offset; the source's segment, width and memory play no part,
but its registers must be at allowed regions. A source that is not memory is refused. -/
def Obligations.LeaLoadsOffset : Prop :=
  (∀ (s : State) (dst : Operand) (w : Width) (seg : SegSel) (m : AddrMode),
    s.writable dst = true → (m.regs.all RegRef.allowed) = true →
    ∃ t, exec (.lea dst (.mem w seg m)) s = .next t ∧ Wrote s t dst (s.ea m) []) ∧
  (∀ (s : State) (dst src : Operand), Operand.isImm dst = false → Operand.isMem src = false →
    exec (.lea dst src) s = .next (s.failed .operandKind))

/-! ## Arithmetic -/

/-- R190, R191, R196 (D23). INC and DEC write OF, ZF, SF, PF and keep CF; NEG is a subtraction from 0. -/
def Obligations.IncDecNegResult : Prop :=
  ∀ (s : State) (dst : Operand), s.writable dst = true →
    let W := dst.width.bits
    let a := (s.readOp dst).toNat
    (∃ t, exec (.inc dst) s = .next t ∧ Wrote s t dst (BitVec.ofNat 64 ((a + 1) % 2 ^ W)) [.of, .zf, .sf, .pf] ∧
      t.flag .of = decide (a = 2 ^ (W - 1) - 1) ∧ ZspFlags t W ((a + 1) % 2 ^ W)) ∧
    (∃ t, exec (.dec dst) s = .next t ∧
      Wrote s t dst (BitVec.ofNat 64 (truncInt W ((a : Int) - 1))) [.of, .zf, .sf, .pf] ∧
      t.flag .of = decide (a = 2 ^ (W - 1)) ∧ ZspFlags t W (truncInt W ((a : Int) - 1))) ∧
    (∃ t, exec (.neg dst) s = .next t ∧ DifferenceWritten s t dst 0 a 0)

/-- R192, R193. ADD and ADC: the sum modulo 2^W; CF the unsigned overflow, OF the signed one, ZF, SF, PF from the result
(R156); the common errors leave nothing (R159). -/
def Obligations.AddAdcResult : Prop :=
  ∀ (s : State) (dst src : Operand),
    let a := (s.readOp dst).toNat
    let b := (s.readOp src).toNat % 2 ^ dst.width.bits
    (s.writable dst = true → s.readable src = true →
      (∃ t, exec (.add dst src) s = .next t ∧ SumWritten s t dst a b 0) ∧
      (∃ t, exec (.adc dst src) s = .next t ∧ SumWritten s t dst a b (s.flag .cf).toNat)) ∧
    (∀ i ∈ [Instr.add dst src, .adc dst src], ∀ e es, s.violations i = e :: es → exec i s = .next (s.failed e)) ∧
    encode (.add dst src) = 0x12 :: (dst.encode ++ src.encode) ∧
    encode (.adc dst src) = 0x13 :: (dst.encode ++ src.encode)

/-- R194, R195. SUB and SBB: the difference modulo 2^W; CF the unsigned borrow, OF the signed overflow, ZF, SF, PF from the
result (R157); the common errors leave nothing (R159). -/
def Obligations.SubSbbResult : Prop :=
  ∀ (s : State) (dst src : Operand),
    let a := (s.readOp dst).toNat
    let b := (s.readOp src).toNat % 2 ^ dst.width.bits
    (s.writable dst = true → s.readable src = true →
      (∃ t, exec (.sub dst src) s = .next t ∧ DifferenceWritten s t dst a b 0) ∧
      (∃ t, exec (.sbb dst src) s = .next t ∧ DifferenceWritten s t dst a b (s.flag .cf).toNat)) ∧
    (∀ i ∈ [Instr.sub dst src, .sbb dst src], ∀ e es, s.violations i = e :: es → exec i s = .next (s.failed e)) ∧
    encode (.sub dst src) = 0x14 :: (dst.encode ++ src.encode) ∧
    encode (.sbb dst src) = 0x15 :: (dst.encode ++ src.encode)

/-- R197, R198 (D25). MUL and IMUL: the product modulo 2^W; CF and OF say that it does not fit; no other register. -/
def Obligations.MulImulResult : Prop :=
  ∀ (s : State) (dst src : Operand), s.writable dst = true → s.readable src = true →
    let W := dst.width.bits
    let a := (s.readOp dst).toNat
    let b := (s.readOp src).toNat % 2 ^ W
    let p := signedOf W a * signedOf W b
    (∃ t, exec (.mul dst src) s = .next t ∧
      AluWrote s t dst (a * b % 2 ^ W) (decide (2 ^ W ≤ a * b)) (decide (2 ^ W ≤ a * b))) ∧
    (∃ t, exec (.imul dst src) s = .next t ∧ AluWrote s t dst (truncInt W p) (overflows W p) (overflows W p))

/-- R199, R201 (D26). DIV and MOD: the unsigned quotient and remainder, CF = OF = 0; a divisor that is 0 at the width
of the dividend is an error that leaves nothing. -/
def Obligations.DivModResult : Prop :=
  ∀ (s : State) (dst src : Operand), s.writable dst = true → s.readable src = true →
    let a := (s.readOp dst).toNat
    let b := (s.readOp src).toNat % 2 ^ dst.width.bits
    (b = 0 → exec (.div dst src) s = .next (s.failed .divideByZero) ∧
      exec (.mod dst src) s = .next (s.failed .divideByZero)) ∧
    (b ≠ 0 → (∃ t, exec (.div dst src) s = .next t ∧ AluWrote s t dst (a / b) false false) ∧
      (∃ t, exec (.mod dst src) s = .next t ∧ AluWrote s t dst (a % b) false false))

/-- R200, R202, R203 (D26). IDIV and IMOD: the quotient truncated toward zero and the remainder with the sign of the
dividend, both modulo 2^W, CF = OF = 0; a divisor that is 0 is an error that leaves nothing. -/
def Obligations.IdivImodResult : Prop :=
  ∀ (s : State) (dst src : Operand), s.writable dst = true → s.readable src = true →
    let W := dst.width.bits
    let b := (s.readOp src).toNat % 2 ^ W
    let x := signedOf W (s.readOp dst).toNat
    let y := signedOf W b
    (b = 0 → exec (.idiv dst src) s = .next (s.failed .divideByZero) ∧
      exec (.imod dst src) s = .next (s.failed .divideByZero)) ∧
    (b ≠ 0 → ∃ q m : Int, x = y * q + m ∧ |m| < |y| ∧ 0 ≤ m * x ∧
      (∃ t, exec (.idiv dst src) s = .next t ∧ AluWrote s t dst (truncInt W q) false false) ∧
      (∃ t, exec (.imod dst src) s = .next t ∧ AluWrote s t dst (truncInt W m) false false))

/-! ## Logic, compare, test -/

/-- R158, R220 to R223 (D24). AND, OR, XOR, NOT: the bitwise result, CF = OF = 0, ZF, SF, PF from it. -/
def Obligations.LogicResult : Prop :=
  ∀ (s : State) (dst src : Operand), s.writable dst = true → s.readable src = true →
    let W := dst.width.bits
    let a := (s.readOp dst).toNat
    let b := (s.readOp src).toNat % 2 ^ W
    (∃ t, exec (.and dst src) s = .next t ∧ AluWrote s t dst (a &&& b) false false) ∧
    (∃ t, exec (.or dst src) s = .next t ∧ AluWrote s t dst (a ||| b) false false) ∧
    (∃ t, exec (.xor dst src) s = .next t ∧ AluWrote s t dst (a ^^^ b) false false) ∧
    (∃ t, exec (.not dst) s = .next t ∧ AluWrote s t dst (2 ^ W - 1 - a) false false)

/-- R240, R241. CMP sets the flags of a subtraction and TEST those of an AND; neither writes an operand. -/
def Obligations.CompareTestFlags : Prop :=
  ∀ (s : State) (a b : Operand), s.readable a = true → s.readable b = true →
    let W := a.width.bits
    let x := (s.readOp a).toNat
    let y := (s.readOp b).toNat % 2 ^ W
    (∃ t, exec (.cmp a b) s = .next t ∧ FlagsOnly s t allFlags ∧
      AluFlags t W (truncInt W ((x : Int) - y)) (decide (x < y)) (overflows W (signedOf W x - signedOf W y))) ∧
    (∃ t, exec (.test a b) s = .next t ∧ FlagsOnly s t allFlags ∧ AluFlags t W (x &&& y) false false)

/-- R240, R246 (D18). A comparison and the conditional jump after it, from the state CMP leaves: each jump goes to its
target exactly when the relation of its row in R246 holds between the two operands, signed or unsigned. -/
def Obligations.CompareThenJump : Prop :=
  ∀ (s : State) (a b target : Operand), s.readable a = true → s.readable b = true →
    let W := a.width.bits
    let x := (s.readOp a).toNat
    let y := (s.readOp b).toNat % 2 ^ W
    ∃ t, exec (.cmp a b) s = .next t ∧ (t.readable target = true →
      ∀ p ∈ [(Instr.jz target, x = y), (.jnz target, x ≠ y), (.jc target, x < y), (.jnc target, y ≤ x),
             (.jl target, signedOf W x < signedOf W y), (.jge target, signedOf W y ≤ signedOf W x),
             (.jle target, signedOf W x ≤ signedOf W y), (.jg target, signedOf W y < signedOf W x)],
        (p.2 → exec p.1 t = .next (t.counted.set .rip (t.readOp target))) ∧
        (¬ p.2 → exec p.1 t = .next t.counted))

/-! ## Shifts and rotates -/

/-- R230 to R234 (D27, D28). SHL, SAL, SHR, SAR with a count that is not 0, unmasked: the result as a product or a
quotient, CF the last bit shifted out, OF = 0. -/
def Obligations.ShiftResult : Prop :=
  ∀ (s : State) (dst count : Operand), s.writable dst = true → s.readable count = true →
    (s.readOp count).toNat ≠ 0 →
    let W := dst.width.bits
    let a := (s.readOp dst).toNat
    let c := (s.readOp count).toNat
    (∃ t, exec (.shl dst count) s = .next t ∧
      AluWrote s t dst (a * 2 ^ c % 2 ^ W) (decide (c ≤ W) && a.testBit (W - c)) false) ∧
    (∃ t, exec (.sal dst count) s = .next t ∧
      AluWrote s t dst (a * 2 ^ c % 2 ^ W) (decide (c ≤ W) && a.testBit (W - c)) false) ∧
    (∃ t, exec (.shr dst count) s = .next t ∧
      AluWrote s t dst (a / 2 ^ c) (decide (c ≤ W) && a.testBit (c - 1)) false) ∧
    (∃ t, exec (.sar dst count) s = .next t ∧
      AluWrote s t dst (truncInt W (signedOf W a / 2 ^ c)) (a.testBit (min c W - 1)) false)

/-- R230, R235, R236 (D27). ROL and ROR with a count that is not 0: bit `i` of the result is the bit `i` places away
around the operand; CF is the bit rotated in; OF = 0. -/
def Obligations.RotateResult : Prop :=
  ∀ (s : State) (dst count : Operand), s.writable dst = true → s.readable count = true →
    (s.readOp count).toNat ≠ 0 →
    let W := dst.width.bits
    let a := (s.readOp dst).toNat
    let c := (s.readOp count).toNat
    (∃ t r, exec (.rol dst count) s = .next t ∧ r < 2 ^ W ∧
      (∀ i, i < W → r.testBit ((i + c) % W) = a.testBit i) ∧ AluWrote s t dst r (r.testBit 0) false) ∧
    (∃ t r, exec (.ror dst count) s = .next t ∧ r < 2 ^ W ∧
      (∀ i, i < W → r.testBit i = a.testBit ((i + c) % W)) ∧ AluWrote s t dst r (r.testBit (W - 1)) false)

/-- R230, R237, R238 (D27). RCL and RCR with a count that is not 0: the W + 1 bits CF:a rotate; the new top bit is CF. -/
def Obligations.RotateThroughCarryResult : Prop :=
  ∀ (s : State) (dst count : Operand), s.writable dst = true → s.readable count = true →
    (s.readOp count).toNat ≠ 0 →
    let W := dst.width.bits
    let v := (s.flag .cf).toNat * 2 ^ W + (s.readOp dst).toNat
    let c := (s.readOp count).toNat
    (∃ t w, exec (.rcl dst count) s = .next t ∧ w < 2 ^ (W + 1) ∧
      (∀ i, i < W + 1 → w.testBit ((i + c) % (W + 1)) = v.testBit i) ∧
      AluWrote s t dst (w % 2 ^ W) (w.testBit W) false) ∧
    (∃ t w, exec (.rcr dst count) s = .next t ∧ w < 2 ^ (W + 1) ∧
      (∀ i, i < W + 1 → w.testBit i = v.testBit ((i + c) % (W + 1))) ∧
      AluWrote s t dst (w % 2 ^ W) (w.testBit W) false)

/-- R230 (D27). A count of 0: each of the eight is counted and writes nothing, no flag included. -/
def Obligations.ZeroCountWritesNothing : Prop :=
  ∀ (s : State) (dst count : Operand), s.writable dst = true → s.readable count = true → s.readOp count = 0 →
    ∀ i ∈ [Instr.shl dst count, .shr dst count, .sal dst count, .sar dst count, .rol dst count, .ror dst count,
           .rcl dst count, .rcr dst count], exec i s = .next s.counted

/-! ## Control transfer -/

/-- R147, R149, R245 (D29). JMP: IP is the target's value, an absolute offset, read in full; nothing else changes. -/
def Obligations.JmpGoesToTarget : Prop :=
  ∀ (s : State) (target : Operand), s.readable target = true →
    exec (.jmp target) s = .next (s.counted.set .rip (s.readOp target))

/-- R246 to R260 (D18). Each conditional jump goes to its target when its condition holds, and falls through otherwise;
nothing else changes. -/
def Obligations.ConditionalJumpsFollowFlags : Prop :=
  ∀ (s : State) (target : Operand), s.readable target = true →
    ∀ p ∈ conditionalJumps,
      (p.2 s → exec (p.1 target) s = .next (s.counted.set .rip (s.readOp target))) ∧
      (¬ p.2 s → exec (p.1 target) s = .next s.counted)

/-- R261, R272 (D31). CALL: the return address (the advanced IP) and the old RBP are stored below RSP in that order, RSP
and RBP become RSP - 16, IP the target read before the pushes; nothing else changes. -/
def Obligations.CallOpensFrame : Prop :=
  ∀ (s : State) (target : Operand), s.readable target = true →
    s.slotOk (s.get .rsp - 8) 8 = true → s.slotOk (s.get .rsp - 16) 8 = true →
    ∃ t, exec (.call target) s = .next t ∧
      t.get .rip = s.readOp target ∧ t.get .rsp = s.get .rsp - 16 ∧ t.get .rbp = s.get .rsp - 16 ∧
      (∀ a, Memory.get t.mem a =
        s.slotsStored a [(s.get .rsp - 8, s.get .rip), (s.get .rsp - 16, s.get .rbp)] (Memory.get s.mem a)) ∧
      Frame s t [.rip, .rsp, .rbp] [] (s.slotBytes (s.get .rsp - 8) 8 ++ s.slotBytes (s.get .rsp - 16) 8) ∧
      StackStep s t
        ((s.observed.pushed (s.get .rip) (s.get .rsp - 8) 8).pushed (s.get .rbp) (s.get .rsp - 16) 8)

/-- R262, R273 (D31). RET: RBP from SS:RSP, IP from SS:RSP + 8, RSP up by 16 and the count; no byte of memory changes. -/
def Obligations.RetClosesFrame : Prop :=
  ∀ (s : State) (count : Operand), s.readable count = true →
    s.slotOk (s.get .rsp) 8 = true → s.slotOk (s.get .rsp + 8) 8 = true →
    ∃ t, exec (.ret count) s = .next t ∧
      t.get .rbp = s.memRead (s.phys .ss (s.get .rsp)) 8 ∧
      t.get .rip = s.memRead (s.phys .ss (s.get .rsp + 8)) 8 ∧
      t.get .rsp = s.get .rsp + 16 + s.readOp count ∧
      Frame s t [.rip, .rsp, .rbp] [] [] ∧
      StackStep s t (((s.observed.popped s.ip0 s.opc 8 (s.get .rsp)).popped s.ip0 s.opc 8
        (s.get .rsp + 8)).dropped (s.get .rsp + 16 + s.readOp count))

/-- R263. After a CALL, any state with RSP back at RBP and the frame's 16 bytes and SS intact returns by RET to the
instruction after the CALL, with the caller's RBP, and RSP at its value before the CALL plus the count. The frame must not
wrap below linear address 0. -/
def Obligations.CallThenRetRestores : Prop :=
  ∀ (s t u : State) (target count : Operand), s.readable target = true →
    s.slotOk (s.get .rsp - 8) 8 = true → s.slotOk (s.get .rsp - 16) 8 = true →
    16 ≤ (s.get .rsp + s.get .ss * 16#64).toNat →
    exec (.call target) s = .next t →
    u.config = s.config → u.get .ss = s.get .ss → u.get .rsp = t.get .rbp →
    (∀ a, a ∈ s.slotBytes (s.get .rsp - 8) 8 ++ s.slotBytes (s.get .rsp - 16) 8 →
      Memory.get u.mem a = Memory.get t.mem a) →
    u.readable count = true →
    ∃ v, exec (.ret count) u = .next v ∧ v.get .rip = s.get .rip ∧ v.get .rbp = s.get .rbp ∧
      v.get .rsp = s.get .rsp + u.readOp count

/-! ## Stack -/

/-- R70, R265, R272 (D32). PUSH: a slot of the operand's width below RSP holds the operand's value, read before RSP
moves. -/
def Obligations.PushStores : Prop :=
  ∀ (s : State) (src : Operand), s.readable src = true →
    let n := src.width.bytes
    let sp := s.get .rsp - BitVec.ofNat 64 n
    s.slotOk sp n = true →
    ∃ t, exec (.push src) s = .next t ∧ t.get .rsp = sp ∧ t.memHolds (s.phys .ss sp) n (s.readOp src) ∧
      Frame s t [.rsp] [] (s.slotBytes sp n) ∧ StackStep s t (s.observed.pushed (s.readOp src) sp n)

/-- R70, R266, R273 (D32). POP: the destination, its address taken before the pop and its write committed after the one
of RSP, holds the bytes at SS:RSP; RSP goes up by the width. -/
def Obligations.PopLoads : Prop :=
  ∀ (s : State) (dst : Operand), s.writable dst = true →
    let n := dst.width.bytes
    let sp := s.get .rsp + BitVec.ofNat 64 n
    s.slotOk (s.get .rsp) n = true →
    ∃ t, exec (.pop dst) s = .next t ∧ (.rsp ∉ Operand.destRegs dst → t.get .rsp = sp) ∧
      Holds s (s.set .rsp sp) t dst (s.memRead (s.phys .ss (s.get .rsp)) n) [] ∧
      Frame s t (.rsp :: Operand.destRegs dst) [] (s.destBytes dst) ∧
      StackStep s t (s.observed.popped s.ip0 s.opc n (s.get .rsp))

/-- R70, R266 and the law quoted there. PUSH, then POP into a destination of the same width that is not RSP: the
destination holds the pushed value, RSP is back, and the history is as before the push. -/
def Obligations.PushThenPopReturnsValue : Prop :=
  ∀ (s t : State) (src dst : Operand), s.readable src = true → src.width = dst.width →
    s.slotOk (s.get .rsp - BitVec.ofNat 64 src.width.bytes) src.width.bytes = true →
    exec (.push src) s = .next t → t.writable dst = true → .rsp ∉ Operand.destRegs dst →
    (∀ e ∈ s.history, (s.get .rsp).toNat ≤ e.address.toNat) →
    src.width.bytes ≤ (s.get .rsp).toNat →
    ∃ v, exec (.pop dst) t = .next v ∧ Holds t t v dst (s.readOp src) [] ∧ v.get .rsp = s.get .rsp ∧
      v.history = s.history ∧ v.diags = s.diags

/-- R267, R268 (D33). PUSHF and POPF move all 64 bits of RFLAGS, named and reserved. -/
def Obligations.PushfPopfMoveFlags : Prop :=
  (∀ s : State, s.slotOk (s.get .rsp - 8) 8 = true →
    ∃ t, exec .pushf s = .next t ∧ t.get .rsp = s.get .rsp - 8 ∧
      t.memHolds (s.phys .ss (s.get .rsp - 8)) 8 (s.get .rflags) ∧
      Frame s t [.rsp] [] (s.slotBytes (s.get .rsp - 8) 8) ∧
      StackStep s t (s.observed.pushed (s.get .rflags) (s.get .rsp - 8) 8)) ∧
  (∀ s : State, s.slotOk (s.get .rsp) 8 = true →
    ∃ t, exec .popf s = .next t ∧ t.get .rsp = s.get .rsp + 8 ∧
      t.get .rflags = s.memRead (s.phys .ss (s.get .rsp)) 8 ∧
      Frame s t [.rsp, .rflags] [] [] ∧ StackStep s t (s.observed.popped s.ip0 s.opc 8 (s.get .rsp)))

/-- R269, R270, R272 (D34). PUSHA: the 14 registers of R269 in slots below RSP, RAX highest; RSP down by 112. -/
def Obligations.PushaStores : Prop :=
  ∀ s : State, (∀ i, i < 14 → s.slotOk (s.get .rsp - BitVec.ofNat 64 (8 * (i + 1))) 8 = true) →
    ∃ t, exec .pusha s = .next t ∧ t.get .rsp = s.get .rsp - 112 ∧
      (∀ a, Memory.get t.mem a = s.slotsStored a s.pushaSlots (Memory.get s.mem a)) ∧
      Frame s t [.rsp] [] (s.pushaSlots.flatMap fun k => s.slotBytes k.1 8) ∧
      StackStep s t (s.pushaSlots.foldl (fun o k => o.pushed k.2 k.1 8) s.observed)

/-- R271, R273 (D34). POPA: the 14 registers from the slots at RSP upwards, in reverse order; RSP up by 112. -/
def Obligations.PopaLoads : Prop :=
  ∀ s : State, (∀ i, i < 14 → s.slotOk (s.get .rsp + BitVec.ofNat 64 (8 * i)) 8 = true) →
    ∃ t, exec .popa s = .next t ∧ t.get .rsp = s.get .rsp + 112 ∧
      (∀ (i : Nat) (r : Reg), i < 14 → registerList[13 - i]? = some r →
        t.get r = s.memRead (s.phys .ss (s.get .rsp + BitVec.ofNat 64 (8 * i))) 8) ∧
      Frame s t (.rsp :: registerList) [] [] ∧
      StackStep s t ((List.range 14).foldl
        (fun o i => o.popped s.ip0 s.opc 8 (s.get .rsp + BitVec.ofNat 64 (8 * i))) s.observed)

/-- R271 and the law quoted there. After a PUSHA, any state with RSP and SS as it left them and the 14 slots intact gets
all 14 registers and RSP back by POPA. The slots must fit in memory and not wrap below linear address 0. -/
def Obligations.PushaThenPopaRestores : Prop :=
  ∀ s t u : State, (∀ i, i < 14 → s.slotOk (s.get .rsp - BitVec.ofNat 64 (8 * (i + 1))) 8 = true) →
    112 ≤ s.memSize → 112 ≤ (s.get .rsp + s.get .ss * 16#64).toNat →
    exec .pusha s = .next t →
    u.config = s.config → u.get .ss = s.get .ss → u.get .rsp = t.get .rsp →
    (∀ a, a ∈ (s.pushaSlots.flatMap fun k => s.slotBytes k.1 8) → Memory.get u.mem a = Memory.get t.mem a) →
    ∃ v, exec .popa u = .next v ∧ (∀ r ∈ registerList, v.get r = s.get r) ∧ v.get .rsp = s.get .rsp

/-! ## Input, output, interrupts -/

/-- R277. NOP: the step is counted, and nothing else changes. -/
def Obligations.NopOnlyCounts : Prop := ∀ s : State, exec .nop s = .next s.counted

/-- R275, R279 (D35). IN: with a device at the port the destination holds its answer (a free value, log entry 4), the
access is recorded and a draw counted (log entry 6); without one it holds 0 and INFO_NO_DEVICE_IN is reported. -/
def Obligations.InReadsDevice : Prop :=
  ∀ (s : State) (port address dst : Operand),
    s.readable port = true → s.readable address = true → s.writable dst = true →
    let p := s.readOp port
    let d := s.readOp address
    let v := Config.deviceRead s.draws s.deviceLog p d
    ((∃ x ∈ s.config.devices, x.port = p) →
      ∃ t, exec (.inp port address dst) s = .next t ∧ Holds s s t dst v [] ∧
        Frame s t (Operand.destRegs dst) [] (s.destBytes dst) ∧ Completed s t ∧ SameHistory s t ∧
        SameInterrupt s t ∧ t.diags = s.diags ∧ t.deviceLog = s.deviceLog ++ [.read p d v] ∧
        t.draws = s.draws + 1) ∧
    ((¬ ∃ x ∈ s.config.devices, x.port = p) →
      ∃ t, exec (.inp port address dst) s = .next t ∧ Holds s s t dst 0 [] ∧
        Frame s t (Operand.destRegs dst) [] (s.destBytes dst) ∧ Completed s t ∧ SameHistory s t ∧
        SameInterrupt s t ∧ SameDevices s t ∧
        t.diags = s.diags ++ [{ kind := .info .noDeviceIn, ip0 := s.ip0, opc := s.opc }])

/-- R276, R279 (D35). OUT: with a device at the port the write is recorded; without one INFO_NO_DEVICE_OUT is
reported; nothing else changes. -/
def Obligations.OutWritesDevice : Prop :=
  ∀ (s : State) (port address src : Operand),
    s.readable port = true → s.readable address = true → s.readable src = true →
    let p := s.readOp port
    ((∃ x ∈ s.config.devices, x.port = p) →
      exec (.out port address src) s =
        .next { s.counted with deviceLog := s.deviceLog ++ [.write p (s.readOp address) (s.readOp src)] }) ∧
    ((¬ ∃ x ∈ s.config.devices, x.port = p) →
      exec (.out port address src) s =
        .next { s.counted with
          diags := s.diags ++ [{ kind := .info .noDeviceOut, ip0 := s.ip0, opc := s.opc }] })

/-- R278, R290, R291, R292. INT: code 0 is offered to no listener and makes `isExiting` true; any other code is offered to the
listeners in registration order, each of which may leave any architectural state and any registries (free values, log
entry 5; the list is the one before the INT, log entry 16), and recorded only if none handles it. -/
def Obligations.IntDeliversCode : Prop :=
  ∀ (s : State) (code : Operand), s.readable code = true →
    let c := s.readOp code
    (c = 0 → exec (.int code) s = .next { s.counted with interrupted := true, intCode := 0 } ∧
      ({ s.counted with interrupted := true, intCode := 0 } : State).isExiting = true) ∧
    (c ≠ 0 → ∃ handled u, Offered s c s.config.listeners handled u ∧
      exec (.int code) s =
        .next (if handled then u.counted else { u.counted with interrupted := true, intCode := c }))

/-- R278 (D39), R290, R292, R294 (D41). The interrupt mechanism, as the host calls it between steps: the states are those
its listeners leave, with nothing counted and no step; without listeners nothing but the interrupt state changes. INT is
that mechanism at its own commit, one step counted. Code 0 is offered to no listener. What a listener's answer may change
is R291 (D40) as log entry 5 reads it, the list that is walked log entry 16, the counter of draws the model's own (log
entry 6). `isExiting` is R292. -/
def Obligations.HostInterruptIsNotAStep : Prop :=
  ∀ (s : State) (c : Word),
    (c = 0 → s.hostInterrupt c = { s with interrupted := true, intCode := 0 }) ∧
    (c ≠ 0 → ∃ handled u, Offered s c s.config.listeners handled u ∧
      s.hostInterrupt c = if handled then u else { u with interrupted := true, intCode := c }) ∧
    (s.config.listeners = [] → s.hostInterrupt c = { s with interrupted := true, intCode := c }) ∧
    (∀ code : Operand, s.readable code = true → s.readOp code = c →
      exec (.int code) s = .next (s.hostInterrupt c).counted) ∧
    (s.hostIsExiting = true ↔ s.interrupted = true ∧ s.intCode = 0)
end

