-- ==== Sys2Proof/Laws/State.lean ====
section
/-! SUPPORT. What each update leaves of each field of the state, and what it does to the register file: the simp set
through which later proofs see a record update without unfolding it. -/

namespace Sys2Proof.Machine

/-! ## Registers -/

theorem Reg.id_val_inj {a b : Reg} (h : a.id.val = b.id.val) : a = b := by
  cases a <;> cases b <;> first | rfl | (exact absurd h (by decide))

@[simp] theorem State.get_set_self (s : State) (r : Reg) (v : Word) : (s.set r v).get r = v := by
  simp [State.get, State.set]

theorem State.get_set_of_ne (s : State) {r q : Reg} (v : Word) (h : q ≠ r) : (s.set r v).get q = s.get q := by
  have hid : r.id.val ≠ q.id.val := fun e => h (Reg.id_val_inj e).symm
  simp [State.get, State.set, hid]

/-- The register file after a write of one slot. -/
@[simp] theorem State.get_set (s : State) (r q : Reg) (v : Word) :
    (s.set r v).get q = if q = r then v else s.get q := by
  by_cases h : q = r
  · subst h; simp
  · simp [h, State.get_set_of_ne]

theorem State.get_congr {s t : State} (h : t.slots = s.slots) (r : Reg) : t.get r = s.get r := by
  simp [State.get, h]

/-! ## Fields -/

/-! `State.set` -/

@[simp] theorem State.set_config (s : State) (r : Reg) (v : Word) : (s.set r v).config = s.config := rfl
@[simp] theorem State.set_mem (s : State) (r : Reg) (v : Word) : (s.set r v).mem = s.mem := rfl
@[simp] theorem State.set_stepCount (s : State) (r : Reg) (v : Word) : (s.set r v).stepCount = s.stepCount := rfl
@[simp] theorem State.set_interrupted (s : State) (r : Reg) (v : Word) : (s.set r v).interrupted = s.interrupted := rfl
@[simp] theorem State.set_intCode (s : State) (r : Reg) (v : Word) : (s.set r v).intCode = s.intCode := rfl
@[simp] theorem State.set_pending (s : State) (r : Reg) (v : Word) : (s.set r v).pending = s.pending := rfl
@[simp] theorem State.set_ip0 (s : State) (r : Reg) (v : Word) : (s.set r v).ip0 = s.ip0 := rfl
@[simp] theorem State.set_opc (s : State) (r : Reg) (v : Word) : (s.set r v).opc = s.opc := rfl
@[simp] theorem State.set_history (s : State) (r : Reg) (v : Word) : (s.set r v).history = s.history := rfl
@[simp] theorem State.set_historyRev (s : State) (r : Reg) (v : Word) : (s.set r v).historyRev = s.historyRev := rfl
@[simp] theorem State.set_diags (s : State) (r : Reg) (v : Word) : (s.set r v).diags = s.diags := rfl
@[simp] theorem State.set_deviceLog (s : State) (r : Reg) (v : Word) : (s.set r v).deviceLog = s.deviceLog := rfl
@[simp] theorem State.set_draws (s : State) (r : Reg) (v : Word) : (s.set r v).draws = s.draws := rfl

/-! `State.setRef` -/

@[simp] theorem State.setRef_config (s : State) (r : RegRef) (v : Word) : (s.setRef r v).config = s.config := rfl
@[simp] theorem State.setRef_mem (s : State) (r : RegRef) (v : Word) : (s.setRef r v).mem = s.mem := rfl
@[simp] theorem State.setRef_stepCount (s : State) (r : RegRef) (v : Word) : (s.setRef r v).stepCount = s.stepCount := rfl
@[simp] theorem State.setRef_interrupted (s : State) (r : RegRef) (v : Word) : (s.setRef r v).interrupted = s.interrupted := rfl
@[simp] theorem State.setRef_intCode (s : State) (r : RegRef) (v : Word) : (s.setRef r v).intCode = s.intCode := rfl
@[simp] theorem State.setRef_pending (s : State) (r : RegRef) (v : Word) : (s.setRef r v).pending = s.pending := rfl
@[simp] theorem State.setRef_ip0 (s : State) (r : RegRef) (v : Word) : (s.setRef r v).ip0 = s.ip0 := rfl
@[simp] theorem State.setRef_opc (s : State) (r : RegRef) (v : Word) : (s.setRef r v).opc = s.opc := rfl
@[simp] theorem State.setRef_history (s : State) (r : RegRef) (v : Word) : (s.setRef r v).history = s.history := rfl
@[simp] theorem State.setRef_historyRev (s : State) (r : RegRef) (v : Word) : (s.setRef r v).historyRev = s.historyRev := rfl
@[simp] theorem State.setRef_diags (s : State) (r : RegRef) (v : Word) : (s.setRef r v).diags = s.diags := rfl
@[simp] theorem State.setRef_deviceLog (s : State) (r : RegRef) (v : Word) : (s.setRef r v).deviceLog = s.deviceLog := rfl
@[simp] theorem State.setRef_draws (s : State) (r : RegRef) (v : Word) : (s.setRef r v).draws = s.draws := rfl

/-! `State.memWrite` -/

@[simp] theorem State.memWrite_config (s : State) (p n : Nat) (v : Word) : (s.memWrite p n v).config = s.config := rfl
@[simp] theorem State.memWrite_slots (s : State) (p n : Nat) (v : Word) : (s.memWrite p n v).slots = s.slots := rfl
@[simp] theorem State.memWrite_stepCount (s : State) (p n : Nat) (v : Word) : (s.memWrite p n v).stepCount = s.stepCount := rfl
@[simp] theorem State.memWrite_interrupted (s : State) (p n : Nat) (v : Word) : (s.memWrite p n v).interrupted = s.interrupted := rfl
@[simp] theorem State.memWrite_intCode (s : State) (p n : Nat) (v : Word) : (s.memWrite p n v).intCode = s.intCode := rfl
@[simp] theorem State.memWrite_pending (s : State) (p n : Nat) (v : Word) : (s.memWrite p n v).pending = s.pending := rfl
@[simp] theorem State.memWrite_ip0 (s : State) (p n : Nat) (v : Word) : (s.memWrite p n v).ip0 = s.ip0 := rfl
@[simp] theorem State.memWrite_opc (s : State) (p n : Nat) (v : Word) : (s.memWrite p n v).opc = s.opc := rfl
@[simp] theorem State.memWrite_history (s : State) (p n : Nat) (v : Word) : (s.memWrite p n v).history = s.history := rfl
@[simp] theorem State.memWrite_historyRev (s : State) (p n : Nat) (v : Word) : (s.memWrite p n v).historyRev = s.historyRev := rfl
@[simp] theorem State.memWrite_diags (s : State) (p n : Nat) (v : Word) : (s.memWrite p n v).diags = s.diags := rfl
@[simp] theorem State.memWrite_deviceLog (s : State) (p n : Nat) (v : Word) : (s.memWrite p n v).deviceLog = s.deviceLog := rfl
@[simp] theorem State.memWrite_draws (s : State) (p n : Nat) (v : Word) : (s.memWrite p n v).draws = s.draws := rfl
@[simp] theorem State.memWrite_get (s : State) (p n : Nat) (v : Word) (r : Reg) : (s.memWrite p n v).get r = s.get r :=
  State.get_congr (State.memWrite_slots s p n v) r

/-! `State.diag` -/

@[simp] theorem State.diag_config (s : State) (k : DiagKind) : (s.diag k).config = s.config := rfl
@[simp] theorem State.diag_slots (s : State) (k : DiagKind) : (s.diag k).slots = s.slots := rfl
@[simp] theorem State.diag_mem (s : State) (k : DiagKind) : (s.diag k).mem = s.mem := rfl
@[simp] theorem State.diag_stepCount (s : State) (k : DiagKind) : (s.diag k).stepCount = s.stepCount := rfl
@[simp] theorem State.diag_interrupted (s : State) (k : DiagKind) : (s.diag k).interrupted = s.interrupted := rfl
@[simp] theorem State.diag_intCode (s : State) (k : DiagKind) : (s.diag k).intCode = s.intCode := rfl
@[simp] theorem State.diag_pending (s : State) (k : DiagKind) : (s.diag k).pending = s.pending := rfl
@[simp] theorem State.diag_ip0 (s : State) (k : DiagKind) : (s.diag k).ip0 = s.ip0 := rfl
@[simp] theorem State.diag_opc (s : State) (k : DiagKind) : (s.diag k).opc = s.opc := rfl
@[simp] theorem State.diag_history (s : State) (k : DiagKind) : (s.diag k).history = s.history := rfl
@[simp] theorem State.diag_historyRev (s : State) (k : DiagKind) : (s.diag k).historyRev = s.historyRev := rfl
@[simp] theorem State.diag_deviceLog (s : State) (k : DiagKind) : (s.diag k).deviceLog = s.deviceLog := rfl
@[simp] theorem State.diag_draws (s : State) (k : DiagKind) : (s.diag k).draws = s.draws := rfl
@[simp] theorem State.diag_get (s : State) (k : DiagKind) (r : Reg) : (s.diag k).get r = s.get r :=
  State.get_congr (State.diag_slots s k) r

/-! `State.clearPending` -/

@[simp] theorem State.clearPending_config (s : State) : (s.clearPending).config = s.config := rfl
@[simp] theorem State.clearPending_slots (s : State) : (s.clearPending).slots = s.slots := rfl
@[simp] theorem State.clearPending_mem (s : State) : (s.clearPending).mem = s.mem := rfl
@[simp] theorem State.clearPending_stepCount (s : State) : (s.clearPending).stepCount = s.stepCount := rfl
@[simp] theorem State.clearPending_interrupted (s : State) : (s.clearPending).interrupted = s.interrupted := rfl
@[simp] theorem State.clearPending_intCode (s : State) : (s.clearPending).intCode = s.intCode := rfl
@[simp] theorem State.clearPending_ip0 (s : State) : (s.clearPending).ip0 = s.ip0 := rfl
@[simp] theorem State.clearPending_opc (s : State) : (s.clearPending).opc = s.opc := rfl
@[simp] theorem State.clearPending_history (s : State) : (s.clearPending).history = s.history := rfl
@[simp] theorem State.clearPending_historyRev (s : State) : (s.clearPending).historyRev = s.historyRev := rfl
@[simp] theorem State.clearPending_diags (s : State) : (s.clearPending).diags = s.diags := rfl
@[simp] theorem State.clearPending_deviceLog (s : State) : (s.clearPending).deviceLog = s.deviceLog := rfl
@[simp] theorem State.clearPending_draws (s : State) : (s.clearPending).draws = s.draws := rfl
@[simp] theorem State.clearPending_get (s : State) (r : Reg) : (s.clearPending).get r = s.get r :=
  State.get_congr (State.clearPending_slots s) r

/-! `State.jump` -/

@[simp] theorem State.jump_config (s : State) (t : Word) : (s.jump t).config = s.config := rfl
@[simp] theorem State.jump_slots (s : State) (t : Word) : (s.jump t).slots = s.slots := rfl
@[simp] theorem State.jump_mem (s : State) (t : Word) : (s.jump t).mem = s.mem := rfl
@[simp] theorem State.jump_stepCount (s : State) (t : Word) : (s.jump t).stepCount = s.stepCount := rfl
@[simp] theorem State.jump_interrupted (s : State) (t : Word) : (s.jump t).interrupted = s.interrupted := rfl
@[simp] theorem State.jump_intCode (s : State) (t : Word) : (s.jump t).intCode = s.intCode := rfl
@[simp] theorem State.jump_ip0 (s : State) (t : Word) : (s.jump t).ip0 = s.ip0 := rfl
@[simp] theorem State.jump_opc (s : State) (t : Word) : (s.jump t).opc = s.opc := rfl
@[simp] theorem State.jump_history (s : State) (t : Word) : (s.jump t).history = s.history := rfl
@[simp] theorem State.jump_historyRev (s : State) (t : Word) : (s.jump t).historyRev = s.historyRev := rfl
@[simp] theorem State.jump_diags (s : State) (t : Word) : (s.jump t).diags = s.diags := rfl
@[simp] theorem State.jump_deviceLog (s : State) (t : Word) : (s.jump t).deviceLog = s.deviceLog := rfl
@[simp] theorem State.jump_draws (s : State) (t : Word) : (s.jump t).draws = s.draws := rfl
@[simp] theorem State.jump_get (s : State) (t : Word) (r : Reg) : (s.jump t).get r = s.get r :=
  State.get_congr (State.jump_slots s t) r

/-! `State.recordInterrupt` -/

@[simp] theorem State.recordInterrupt_config (s : State) (c : Word) : (s.recordInterrupt c).config = s.config := rfl
@[simp] theorem State.recordInterrupt_slots (s : State) (c : Word) : (s.recordInterrupt c).slots = s.slots := rfl
@[simp] theorem State.recordInterrupt_mem (s : State) (c : Word) : (s.recordInterrupt c).mem = s.mem := rfl
@[simp] theorem State.recordInterrupt_stepCount (s : State) (c : Word) : (s.recordInterrupt c).stepCount = s.stepCount := rfl
@[simp] theorem State.recordInterrupt_pending (s : State) (c : Word) : (s.recordInterrupt c).pending = s.pending := rfl
@[simp] theorem State.recordInterrupt_ip0 (s : State) (c : Word) : (s.recordInterrupt c).ip0 = s.ip0 := rfl
@[simp] theorem State.recordInterrupt_opc (s : State) (c : Word) : (s.recordInterrupt c).opc = s.opc := rfl
@[simp] theorem State.recordInterrupt_history (s : State) (c : Word) : (s.recordInterrupt c).history = s.history := rfl
@[simp] theorem State.recordInterrupt_historyRev (s : State) (c : Word) : (s.recordInterrupt c).historyRev = s.historyRev := rfl
@[simp] theorem State.recordInterrupt_diags (s : State) (c : Word) : (s.recordInterrupt c).diags = s.diags := rfl
@[simp] theorem State.recordInterrupt_deviceLog (s : State) (c : Word) : (s.recordInterrupt c).deviceLog = s.deviceLog := rfl
@[simp] theorem State.recordInterrupt_draws (s : State) (c : Word) : (s.recordInterrupt c).draws = s.draws := rfl
@[simp] theorem State.recordInterrupt_get (s : State) (c : Word) (r : Reg) : (s.recordInterrupt c).get r = s.get r :=
  State.get_congr (State.recordInterrupt_slots s c) r

/-! `State.deviceReadEvent` -/

@[simp] theorem State.deviceReadEvent_config (s : State) (p a v : Word) : (s.deviceReadEvent p a v).config = s.config := rfl
@[simp] theorem State.deviceReadEvent_slots (s : State) (p a v : Word) : (s.deviceReadEvent p a v).slots = s.slots := rfl
@[simp] theorem State.deviceReadEvent_mem (s : State) (p a v : Word) : (s.deviceReadEvent p a v).mem = s.mem := rfl
@[simp] theorem State.deviceReadEvent_stepCount (s : State) (p a v : Word) : (s.deviceReadEvent p a v).stepCount = s.stepCount := rfl
@[simp] theorem State.deviceReadEvent_interrupted (s : State) (p a v : Word) : (s.deviceReadEvent p a v).interrupted = s.interrupted := rfl
@[simp] theorem State.deviceReadEvent_intCode (s : State) (p a v : Word) : (s.deviceReadEvent p a v).intCode = s.intCode := rfl
@[simp] theorem State.deviceReadEvent_pending (s : State) (p a v : Word) : (s.deviceReadEvent p a v).pending = s.pending := rfl
@[simp] theorem State.deviceReadEvent_ip0 (s : State) (p a v : Word) : (s.deviceReadEvent p a v).ip0 = s.ip0 := rfl
@[simp] theorem State.deviceReadEvent_opc (s : State) (p a v : Word) : (s.deviceReadEvent p a v).opc = s.opc := rfl
@[simp] theorem State.deviceReadEvent_history (s : State) (p a v : Word) : (s.deviceReadEvent p a v).history = s.history := rfl
@[simp] theorem State.deviceReadEvent_historyRev (s : State) (p a v : Word) : (s.deviceReadEvent p a v).historyRev = s.historyRev := rfl
@[simp] theorem State.deviceReadEvent_diags (s : State) (p a v : Word) : (s.deviceReadEvent p a v).diags = s.diags := rfl
@[simp] theorem State.deviceReadEvent_get (s : State) (p a v : Word) (r : Reg) : (s.deviceReadEvent p a v).get r = s.get r :=
  State.get_congr (State.deviceReadEvent_slots s p a v) r

/-! `State.deviceWrite` -/

@[simp] theorem State.deviceWrite_config (s : State) (p a v : Word) : (s.deviceWrite p a v).config = s.config := rfl
@[simp] theorem State.deviceWrite_slots (s : State) (p a v : Word) : (s.deviceWrite p a v).slots = s.slots := rfl
@[simp] theorem State.deviceWrite_mem (s : State) (p a v : Word) : (s.deviceWrite p a v).mem = s.mem := rfl
@[simp] theorem State.deviceWrite_stepCount (s : State) (p a v : Word) : (s.deviceWrite p a v).stepCount = s.stepCount := rfl
@[simp] theorem State.deviceWrite_interrupted (s : State) (p a v : Word) : (s.deviceWrite p a v).interrupted = s.interrupted := rfl
@[simp] theorem State.deviceWrite_intCode (s : State) (p a v : Word) : (s.deviceWrite p a v).intCode = s.intCode := rfl
@[simp] theorem State.deviceWrite_pending (s : State) (p a v : Word) : (s.deviceWrite p a v).pending = s.pending := rfl
@[simp] theorem State.deviceWrite_ip0 (s : State) (p a v : Word) : (s.deviceWrite p a v).ip0 = s.ip0 := rfl
@[simp] theorem State.deviceWrite_opc (s : State) (p a v : Word) : (s.deviceWrite p a v).opc = s.opc := rfl
@[simp] theorem State.deviceWrite_history (s : State) (p a v : Word) : (s.deviceWrite p a v).history = s.history := rfl
@[simp] theorem State.deviceWrite_historyRev (s : State) (p a v : Word) : (s.deviceWrite p a v).historyRev = s.historyRev := rfl
@[simp] theorem State.deviceWrite_diags (s : State) (p a v : Word) : (s.deviceWrite p a v).diags = s.diags := rfl
@[simp] theorem State.deviceWrite_draws (s : State) (p a v : Word) : (s.deviceWrite p a v).draws = s.draws := rfl
@[simp] theorem State.deviceWrite_get (s : State) (p a v : Word) (r : Reg) : (s.deviceWrite p a v).get r = s.get r :=
  State.get_congr (State.deviceWrite_slots s p a v) r

/-! `State.afterListener` -/

@[simp] theorem State.afterListener_config (s : State) (a : ListenerAnswer) :
    (s.afterListener a).config = { s.config with devices := a.devices, listeners := a.listeners } := rfl
@[simp] theorem State.afterListener_stepCount (s : State) (a : ListenerAnswer) :
    (s.afterListener a).stepCount = a.stepCount := rfl
@[simp] theorem State.afterListener_interrupted (s : State) (a : ListenerAnswer) :
    (s.afterListener a).interrupted = a.interrupted := rfl
@[simp] theorem State.afterListener_intCode (s : State) (a : ListenerAnswer) :
    (s.afterListener a).intCode = a.intCode := rfl
@[simp] theorem State.afterListener_pending (s : State) (a : ListenerAnswer) : (s.afterListener a).pending = s.pending := rfl
@[simp] theorem State.afterListener_ip0 (s : State) (a : ListenerAnswer) : (s.afterListener a).ip0 = s.ip0 := rfl
@[simp] theorem State.afterListener_opc (s : State) (a : ListenerAnswer) : (s.afterListener a).opc = s.opc := rfl
@[simp] theorem State.afterListener_history (s : State) (a : ListenerAnswer) : (s.afterListener a).history = s.history := rfl
@[simp] theorem State.afterListener_historyRev (s : State) (a : ListenerAnswer) : (s.afterListener a).historyRev = s.historyRev := rfl
@[simp] theorem State.afterListener_diags (s : State) (a : ListenerAnswer) : (s.afterListener a).diags = s.diags := rfl
@[simp] theorem State.afterListener_deviceLog (s : State) (a : ListenerAnswer) : (s.afterListener a).deviceLog = s.deviceLog := rfl

@[simp] theorem State.afterListener_slots (s : State) (a : ListenerAnswer) : (s.afterListener a).slots = a.slots := rfl
@[simp] theorem State.afterListener_mem (s : State) (a : ListenerAnswer) :
    (s.afterListener a).mem = Memory.pokes s.memSize s.mem a.writes := rfl
@[simp] theorem State.afterListener_draws (s : State) (a : ListenerAnswer) : (s.afterListener a).draws = s.draws + 1 := rfl
@[simp] theorem State.afterListener_memSize (s : State) (a : ListenerAnswer) : (s.afterListener a).memSize = s.memSize := rfl
@[simp] theorem State.clearPending_view (s : State) : s.clearPending.view = s.view := rfl

/-! `State.snapshot` -/

@[simp] theorem State.snapshot_config (s : State) : (s.snapshot).config = s.config := rfl
@[simp] theorem State.snapshot_slots (s : State) : (s.snapshot).slots = s.slots := rfl
@[simp] theorem State.snapshot_mem (s : State) : (s.snapshot).mem = s.mem := rfl
@[simp] theorem State.snapshot_stepCount (s : State) : (s.snapshot).stepCount = s.stepCount := rfl
@[simp] theorem State.snapshot_interrupted (s : State) : (s.snapshot).interrupted = s.interrupted := rfl
@[simp] theorem State.snapshot_intCode (s : State) : (s.snapshot).intCode = s.intCode := rfl
@[simp] theorem State.snapshot_pending (s : State) : (s.snapshot).pending = s.pending := rfl
@[simp] theorem State.snapshot_history (s : State) : (s.snapshot).history = s.history := rfl
@[simp] theorem State.snapshot_historyRev (s : State) : (s.snapshot).historyRev = s.historyRev := rfl
@[simp] theorem State.snapshot_diags (s : State) : (s.snapshot).diags = s.diags := rfl
@[simp] theorem State.snapshot_deviceLog (s : State) : (s.snapshot).deviceLog = s.deviceLog := rfl
@[simp] theorem State.snapshot_draws (s : State) : (s.snapshot).draws = s.draws := rfl
@[simp] theorem State.snapshot_get (s : State) (r : Reg) : (s.snapshot).get r = s.get r :=
  State.get_congr (State.snapshot_slots s) r

/-! `State.writeFlag` -/

@[simp] theorem State.writeFlag_config (s : State) (f : Flag) (b : Bool) : (s.writeFlag f b).config = s.config := rfl
@[simp] theorem State.writeFlag_mem (s : State) (f : Flag) (b : Bool) : (s.writeFlag f b).mem = s.mem := rfl
@[simp] theorem State.writeFlag_stepCount (s : State) (f : Flag) (b : Bool) : (s.writeFlag f b).stepCount = s.stepCount := rfl
@[simp] theorem State.writeFlag_interrupted (s : State) (f : Flag) (b : Bool) : (s.writeFlag f b).interrupted = s.interrupted := rfl
@[simp] theorem State.writeFlag_intCode (s : State) (f : Flag) (b : Bool) : (s.writeFlag f b).intCode = s.intCode := rfl
@[simp] theorem State.writeFlag_pending (s : State) (f : Flag) (b : Bool) : (s.writeFlag f b).pending = s.pending := rfl
@[simp] theorem State.writeFlag_ip0 (s : State) (f : Flag) (b : Bool) : (s.writeFlag f b).ip0 = s.ip0 := rfl
@[simp] theorem State.writeFlag_opc (s : State) (f : Flag) (b : Bool) : (s.writeFlag f b).opc = s.opc := rfl
@[simp] theorem State.writeFlag_history (s : State) (f : Flag) (b : Bool) : (s.writeFlag f b).history = s.history := rfl
@[simp] theorem State.writeFlag_historyRev (s : State) (f : Flag) (b : Bool) : (s.writeFlag f b).historyRev = s.historyRev := rfl
@[simp] theorem State.writeFlag_diags (s : State) (f : Flag) (b : Bool) : (s.writeFlag f b).diags = s.diags := rfl
@[simp] theorem State.writeFlag_deviceLog (s : State) (f : Flag) (b : Bool) : (s.writeFlag f b).deviceLog = s.deviceLog := rfl
@[simp] theorem State.writeFlag_draws (s : State) (f : Flag) (b : Bool) : (s.writeFlag f b).draws = s.draws := rfl

/-! `State.setHistory` -/

@[simp] theorem State.setHistory_config (s : State) (h : List HistoryEntry) : (s.setHistory h).config = s.config := by unfold State.setHistory; split <;> rfl
@[simp] theorem State.setHistory_slots (s : State) (h : List HistoryEntry) : (s.setHistory h).slots = s.slots := by unfold State.setHistory; split <;> rfl
@[simp] theorem State.setHistory_mem (s : State) (h : List HistoryEntry) : (s.setHistory h).mem = s.mem := by unfold State.setHistory; split <;> rfl
@[simp] theorem State.setHistory_stepCount (s : State) (h : List HistoryEntry) : (s.setHistory h).stepCount = s.stepCount := by unfold State.setHistory; split <;> rfl
@[simp] theorem State.setHistory_interrupted (s : State) (h : List HistoryEntry) : (s.setHistory h).interrupted = s.interrupted := by unfold State.setHistory; split <;> rfl
@[simp] theorem State.setHistory_intCode (s : State) (h : List HistoryEntry) : (s.setHistory h).intCode = s.intCode := by unfold State.setHistory; split <;> rfl
@[simp] theorem State.setHistory_pending (s : State) (h : List HistoryEntry) : (s.setHistory h).pending = s.pending := by unfold State.setHistory; split <;> rfl
@[simp] theorem State.setHistory_ip0 (s : State) (h : List HistoryEntry) : (s.setHistory h).ip0 = s.ip0 := by unfold State.setHistory; split <;> rfl
@[simp] theorem State.setHistory_opc (s : State) (h : List HistoryEntry) : (s.setHistory h).opc = s.opc := by unfold State.setHistory; split <;> rfl
@[simp] theorem State.setHistory_diags (s : State) (h : List HistoryEntry) : (s.setHistory h).diags = s.diags := by unfold State.setHistory; split <;> rfl
@[simp] theorem State.setHistory_deviceLog (s : State) (h : List HistoryEntry) : (s.setHistory h).deviceLog = s.deviceLog := by unfold State.setHistory; split <;> rfl
@[simp] theorem State.setHistory_draws (s : State) (h : List HistoryEntry) : (s.setHistory h).draws = s.draws := by unfold State.setHistory; split <;> rfl
@[simp] theorem State.setHistory_get (s : State) (h : List HistoryEntry) (r : Reg) : (s.setHistory h).get r = s.get r :=
  State.get_congr (State.setHistory_slots s h) r
@[simp] theorem State.setHistory_history (s : State) (h : List HistoryEntry) : (s.setHistory h).history = h := by
  unfold State.setHistory; split
  · next e => exact e.symm
  · rfl

/-! `State.dropBelow` -/

@[simp] theorem State.dropBelow_config (s : State) (sp : Word) : (s.dropBelow sp).config = s.config := by simp [State.dropBelow]
@[simp] theorem State.dropBelow_slots (s : State) (sp : Word) : (s.dropBelow sp).slots = s.slots := by simp [State.dropBelow]
@[simp] theorem State.dropBelow_mem (s : State) (sp : Word) : (s.dropBelow sp).mem = s.mem := by simp [State.dropBelow]
@[simp] theorem State.dropBelow_stepCount (s : State) (sp : Word) : (s.dropBelow sp).stepCount = s.stepCount := by simp [State.dropBelow]
@[simp] theorem State.dropBelow_interrupted (s : State) (sp : Word) : (s.dropBelow sp).interrupted = s.interrupted := by simp [State.dropBelow]
@[simp] theorem State.dropBelow_intCode (s : State) (sp : Word) : (s.dropBelow sp).intCode = s.intCode := by simp [State.dropBelow]
@[simp] theorem State.dropBelow_pending (s : State) (sp : Word) : (s.dropBelow sp).pending = s.pending := by simp [State.dropBelow]
@[simp] theorem State.dropBelow_ip0 (s : State) (sp : Word) : (s.dropBelow sp).ip0 = s.ip0 := by simp [State.dropBelow]
@[simp] theorem State.dropBelow_opc (s : State) (sp : Word) : (s.dropBelow sp).opc = s.opc := by simp [State.dropBelow]
@[simp] theorem State.dropBelow_diags (s : State) (sp : Word) : (s.dropBelow sp).diags = s.diags := by simp [State.dropBelow]
@[simp] theorem State.dropBelow_deviceLog (s : State) (sp : Word) : (s.dropBelow sp).deviceLog = s.deviceLog := by simp [State.dropBelow]
@[simp] theorem State.dropBelow_draws (s : State) (sp : Word) : (s.dropBelow sp).draws = s.draws := by simp [State.dropBelow]
@[simp] theorem State.dropBelow_get (s : State) (sp : Word) (r : Reg) : (s.dropBelow sp).get r = s.get r :=
  State.get_congr (State.dropBelow_slots s sp) r

/-! `State.checkPop` -/

@[simp] theorem State.checkPop_config (s : State) (p : Word) : (s.checkPop p).config = s.config := by unfold State.checkPop; split <;> (try split) <;> rfl
@[simp] theorem State.checkPop_slots (s : State) (p : Word) : (s.checkPop p).slots = s.slots := by unfold State.checkPop; split <;> (try split) <;> rfl
@[simp] theorem State.checkPop_mem (s : State) (p : Word) : (s.checkPop p).mem = s.mem := by unfold State.checkPop; split <;> (try split) <;> rfl
@[simp] theorem State.checkPop_stepCount (s : State) (p : Word) : (s.checkPop p).stepCount = s.stepCount := by unfold State.checkPop; split <;> (try split) <;> rfl
@[simp] theorem State.checkPop_interrupted (s : State) (p : Word) : (s.checkPop p).interrupted = s.interrupted := by unfold State.checkPop; split <;> (try split) <;> rfl
@[simp] theorem State.checkPop_intCode (s : State) (p : Word) : (s.checkPop p).intCode = s.intCode := by unfold State.checkPop; split <;> (try split) <;> rfl
@[simp] theorem State.checkPop_pending (s : State) (p : Word) : (s.checkPop p).pending = s.pending := by unfold State.checkPop; split <;> (try split) <;> rfl
@[simp] theorem State.checkPop_ip0 (s : State) (p : Word) : (s.checkPop p).ip0 = s.ip0 := by unfold State.checkPop; split <;> (try split) <;> rfl
@[simp] theorem State.checkPop_opc (s : State) (p : Word) : (s.checkPop p).opc = s.opc := by unfold State.checkPop; split <;> (try split) <;> rfl
@[simp] theorem State.checkPop_history (s : State) (p : Word) : (s.checkPop p).history = s.history := by unfold State.checkPop; split <;> (try split) <;> rfl
@[simp] theorem State.checkPop_historyRev (s : State) (p : Word) : (s.checkPop p).historyRev = s.historyRev := by unfold State.checkPop; split <;> (try split) <;> rfl
@[simp] theorem State.checkPop_deviceLog (s : State) (p : Word) : (s.checkPop p).deviceLog = s.deviceLog := by unfold State.checkPop; split <;> (try split) <;> rfl
@[simp] theorem State.checkPop_draws (s : State) (p : Word) : (s.checkPop p).draws = s.draws := by unfold State.checkPop; split <;> (try split) <;> rfl
@[simp] theorem State.checkPop_get (s : State) (p : Word) (r : Reg) : (s.checkPop p).get r = s.get r :=
  State.get_congr (State.checkPop_slots s p) r

/-! `State.push` -/

@[simp] theorem State.push_config (s : State) (n : Nat) (v : Word) : (s.push n v).config = s.config := by simp [State.push]
@[simp] theorem State.push_stepCount (s : State) (n : Nat) (v : Word) : (s.push n v).stepCount = s.stepCount := by simp [State.push]
@[simp] theorem State.push_interrupted (s : State) (n : Nat) (v : Word) : (s.push n v).interrupted = s.interrupted := by simp [State.push]
@[simp] theorem State.push_intCode (s : State) (n : Nat) (v : Word) : (s.push n v).intCode = s.intCode := by simp [State.push]
@[simp] theorem State.push_pending (s : State) (n : Nat) (v : Word) : (s.push n v).pending = s.pending := by simp [State.push]
@[simp] theorem State.push_ip0 (s : State) (n : Nat) (v : Word) : (s.push n v).ip0 = s.ip0 := by simp [State.push]
@[simp] theorem State.push_opc (s : State) (n : Nat) (v : Word) : (s.push n v).opc = s.opc := by simp [State.push]
@[simp] theorem State.push_diags (s : State) (n : Nat) (v : Word) : (s.push n v).diags = s.diags := by simp [State.push]
@[simp] theorem State.push_deviceLog (s : State) (n : Nat) (v : Word) : (s.push n v).deviceLog = s.deviceLog := by simp [State.push]
@[simp] theorem State.push_draws (s : State) (n : Nat) (v : Word) : (s.push n v).draws = s.draws := by simp [State.push]

/-! `State.popMove` -/

@[simp] theorem State.popMove_config (s : State) (n : Nat) : (s.popMove n).config = s.config := by simp [State.popMove]
@[simp] theorem State.popMove_mem (s : State) (n : Nat) : (s.popMove n).mem = s.mem := by simp [State.popMove]
@[simp] theorem State.popMove_stepCount (s : State) (n : Nat) : (s.popMove n).stepCount = s.stepCount := by simp [State.popMove]
@[simp] theorem State.popMove_interrupted (s : State) (n : Nat) : (s.popMove n).interrupted = s.interrupted := by simp [State.popMove]
@[simp] theorem State.popMove_intCode (s : State) (n : Nat) : (s.popMove n).intCode = s.intCode := by simp [State.popMove]
@[simp] theorem State.popMove_pending (s : State) (n : Nat) : (s.popMove n).pending = s.pending := by simp [State.popMove]
@[simp] theorem State.popMove_ip0 (s : State) (n : Nat) : (s.popMove n).ip0 = s.ip0 := by simp [State.popMove]
@[simp] theorem State.popMove_opc (s : State) (n : Nat) : (s.popMove n).opc = s.opc := by simp [State.popMove]
@[simp] theorem State.popMove_deviceLog (s : State) (n : Nat) : (s.popMove n).deviceLog = s.deviceLog := by simp [State.popMove]
@[simp] theorem State.popMove_draws (s : State) (n : Nat) : (s.popMove n).draws = s.draws := by simp [State.popMove]

/-! `State.writeFlags` -/

@[simp] theorem State.writeFlags_config (s : State) (fs : FlagWrites) : (s.writeFlags fs).config = s.config := by induction fs generalizing s with
  | nil => rfl
  | cons a fs ih => exact ih _
@[simp] theorem State.writeFlags_mem (s : State) (fs : FlagWrites) : (s.writeFlags fs).mem = s.mem := by induction fs generalizing s with
  | nil => rfl
  | cons a fs ih => exact ih _
@[simp] theorem State.writeFlags_stepCount (s : State) (fs : FlagWrites) : (s.writeFlags fs).stepCount = s.stepCount := by induction fs generalizing s with
  | nil => rfl
  | cons a fs ih => exact ih _
@[simp] theorem State.writeFlags_interrupted (s : State) (fs : FlagWrites) : (s.writeFlags fs).interrupted = s.interrupted := by induction fs generalizing s with
  | nil => rfl
  | cons a fs ih => exact ih _
@[simp] theorem State.writeFlags_intCode (s : State) (fs : FlagWrites) : (s.writeFlags fs).intCode = s.intCode := by induction fs generalizing s with
  | nil => rfl
  | cons a fs ih => exact ih _
@[simp] theorem State.writeFlags_pending (s : State) (fs : FlagWrites) : (s.writeFlags fs).pending = s.pending := by induction fs generalizing s with
  | nil => rfl
  | cons a fs ih => exact ih _
@[simp] theorem State.writeFlags_ip0 (s : State) (fs : FlagWrites) : (s.writeFlags fs).ip0 = s.ip0 := by induction fs generalizing s with
  | nil => rfl
  | cons a fs ih => exact ih _
@[simp] theorem State.writeFlags_opc (s : State) (fs : FlagWrites) : (s.writeFlags fs).opc = s.opc := by induction fs generalizing s with
  | nil => rfl
  | cons a fs ih => exact ih _
@[simp] theorem State.writeFlags_history (s : State) (fs : FlagWrites) : (s.writeFlags fs).history = s.history := by induction fs generalizing s with
  | nil => rfl
  | cons a fs ih => exact ih _
@[simp] theorem State.writeFlags_historyRev (s : State) (fs : FlagWrites) : (s.writeFlags fs).historyRev = s.historyRev := by induction fs generalizing s with
  | nil => rfl
  | cons a fs ih => exact ih _
@[simp] theorem State.writeFlags_diags (s : State) (fs : FlagWrites) : (s.writeFlags fs).diags = s.diags := by induction fs generalizing s with
  | nil => rfl
  | cons a fs ih => exact ih _
@[simp] theorem State.writeFlags_deviceLog (s : State) (fs : FlagWrites) : (s.writeFlags fs).deviceLog = s.deviceLog := by induction fs generalizing s with
  | nil => rfl
  | cons a fs ih => exact ih _
@[simp] theorem State.writeFlags_draws (s : State) (fs : FlagWrites) : (s.writeFlags fs).draws = s.draws := by induction fs generalizing s with
  | nil => rfl
  | cons a fs ih => exact ih _

/-! `State.applyJump` -/

@[simp] theorem State.applyJump_config (s : State) : (s.applyJump).config = s.config := by unfold State.applyJump; split <;> (try split) <;> rfl
@[simp] theorem State.applyJump_mem (s : State) : (s.applyJump).mem = s.mem := by unfold State.applyJump; split <;> (try split) <;> rfl
@[simp] theorem State.applyJump_stepCount (s : State) : (s.applyJump).stepCount = s.stepCount := by unfold State.applyJump; split <;> (try split) <;> rfl
@[simp] theorem State.applyJump_interrupted (s : State) : (s.applyJump).interrupted = s.interrupted := by unfold State.applyJump; split <;> (try split) <;> rfl
@[simp] theorem State.applyJump_intCode (s : State) : (s.applyJump).intCode = s.intCode := by unfold State.applyJump; split <;> (try split) <;> rfl
@[simp] theorem State.applyJump_ip0 (s : State) : (s.applyJump).ip0 = s.ip0 := by unfold State.applyJump; split <;> (try split) <;> rfl
@[simp] theorem State.applyJump_opc (s : State) : (s.applyJump).opc = s.opc := by unfold State.applyJump; split <;> (try split) <;> rfl
@[simp] theorem State.applyJump_history (s : State) : (s.applyJump).history = s.history := by unfold State.applyJump; split <;> (try split) <;> rfl
@[simp] theorem State.applyJump_historyRev (s : State) : (s.applyJump).historyRev = s.historyRev := by unfold State.applyJump; split <;> (try split) <;> rfl
@[simp] theorem State.applyJump_diags (s : State) : (s.applyJump).diags = s.diags := by unfold State.applyJump; split <;> (try split) <;> rfl
@[simp] theorem State.applyJump_deviceLog (s : State) : (s.applyJump).deviceLog = s.deviceLog := by unfold State.applyJump; split <;> (try split) <;> rfl
@[simp] theorem State.applyJump_draws (s : State) : (s.applyJump).draws = s.draws := by unfold State.applyJump; split <;> (try split) <;> rfl

/-! `State.complete` -/

@[simp] theorem State.complete_config (s : State) : (s.complete).config = s.config := by simp [State.complete]
@[simp] theorem State.complete_mem (s : State) : (s.complete).mem = s.mem := by simp [State.complete]
@[simp] theorem State.complete_interrupted (s : State) : (s.complete).interrupted = s.interrupted := by simp [State.complete]
@[simp] theorem State.complete_intCode (s : State) : (s.complete).intCode = s.intCode := by simp [State.complete]
@[simp] theorem State.complete_ip0 (s : State) : (s.complete).ip0 = s.ip0 := by simp [State.complete]
@[simp] theorem State.complete_opc (s : State) : (s.complete).opc = s.opc := by simp [State.complete]
@[simp] theorem State.complete_history (s : State) : (s.complete).history = s.history := by simp [State.complete]
@[simp] theorem State.complete_historyRev (s : State) : (s.complete).historyRev = s.historyRev := by simp [State.complete]
@[simp] theorem State.complete_diags (s : State) : (s.complete).diags = s.diags := by simp [State.complete]
@[simp] theorem State.complete_deviceLog (s : State) : (s.complete).deviceLog = s.deviceLog := by simp [State.complete]
@[simp] theorem State.complete_draws (s : State) : (s.complete).draws = s.draws := by simp [State.complete]

/-! `State.pushAll` -/

@[simp] theorem State.pushAll_config (s : State) (rs : List Reg) : (s.pushAll rs).config = s.config := by induction rs generalizing s with
  | nil => rfl
  | cons a rs ih => simp [State.pushAll, ih]
@[simp] theorem State.pushAll_stepCount (s : State) (rs : List Reg) : (s.pushAll rs).stepCount = s.stepCount := by induction rs generalizing s with
  | nil => rfl
  | cons a rs ih => simp [State.pushAll, ih]
@[simp] theorem State.pushAll_interrupted (s : State) (rs : List Reg) : (s.pushAll rs).interrupted = s.interrupted := by induction rs generalizing s with
  | nil => rfl
  | cons a rs ih => simp [State.pushAll, ih]
@[simp] theorem State.pushAll_intCode (s : State) (rs : List Reg) : (s.pushAll rs).intCode = s.intCode := by induction rs generalizing s with
  | nil => rfl
  | cons a rs ih => simp [State.pushAll, ih]
@[simp] theorem State.pushAll_pending (s : State) (rs : List Reg) : (s.pushAll rs).pending = s.pending := by induction rs generalizing s with
  | nil => rfl
  | cons a rs ih => simp [State.pushAll, ih]
@[simp] theorem State.pushAll_ip0 (s : State) (rs : List Reg) : (s.pushAll rs).ip0 = s.ip0 := by induction rs generalizing s with
  | nil => rfl
  | cons a rs ih => simp [State.pushAll, ih]
@[simp] theorem State.pushAll_opc (s : State) (rs : List Reg) : (s.pushAll rs).opc = s.opc := by induction rs generalizing s with
  | nil => rfl
  | cons a rs ih => simp [State.pushAll, ih]
@[simp] theorem State.pushAll_diags (s : State) (rs : List Reg) : (s.pushAll rs).diags = s.diags := by induction rs generalizing s with
  | nil => rfl
  | cons a rs ih => simp [State.pushAll, ih]
@[simp] theorem State.pushAll_deviceLog (s : State) (rs : List Reg) : (s.pushAll rs).deviceLog = s.deviceLog := by induction rs generalizing s with
  | nil => rfl
  | cons a rs ih => simp [State.pushAll, ih]
@[simp] theorem State.pushAll_draws (s : State) (rs : List Reg) : (s.pushAll rs).draws = s.draws := by induction rs generalizing s with
  | nil => rfl
  | cons a rs ih => simp [State.pushAll, ih]

/-! `State.popAll` -/

@[simp] theorem State.popAll_config (s : State) (rs : List Reg) : (s.popAll rs).config = s.config := by induction rs generalizing s with
  | nil => rfl
  | cons a rs ih => simp [State.popAll, ih]
@[simp] theorem State.popAll_mem (s : State) (rs : List Reg) : (s.popAll rs).mem = s.mem := by induction rs generalizing s with
  | nil => rfl
  | cons a rs ih => simp [State.popAll, ih]
@[simp] theorem State.popAll_stepCount (s : State) (rs : List Reg) : (s.popAll rs).stepCount = s.stepCount := by induction rs generalizing s with
  | nil => rfl
  | cons a rs ih => simp [State.popAll, ih]
@[simp] theorem State.popAll_interrupted (s : State) (rs : List Reg) : (s.popAll rs).interrupted = s.interrupted := by induction rs generalizing s with
  | nil => rfl
  | cons a rs ih => simp [State.popAll, ih]
@[simp] theorem State.popAll_intCode (s : State) (rs : List Reg) : (s.popAll rs).intCode = s.intCode := by induction rs generalizing s with
  | nil => rfl
  | cons a rs ih => simp [State.popAll, ih]
@[simp] theorem State.popAll_pending (s : State) (rs : List Reg) : (s.popAll rs).pending = s.pending := by induction rs generalizing s with
  | nil => rfl
  | cons a rs ih => simp [State.popAll, ih]
@[simp] theorem State.popAll_ip0 (s : State) (rs : List Reg) : (s.popAll rs).ip0 = s.ip0 := by induction rs generalizing s with
  | nil => rfl
  | cons a rs ih => simp [State.popAll, ih]
@[simp] theorem State.popAll_opc (s : State) (rs : List Reg) : (s.popAll rs).opc = s.opc := by induction rs generalizing s with
  | nil => rfl
  | cons a rs ih => simp [State.popAll, ih]
@[simp] theorem State.popAll_deviceLog (s : State) (rs : List Reg) : (s.popAll rs).deviceLog = s.deviceLog := by induction rs generalizing s with
  | nil => rfl
  | cons a rs ih => simp [State.popAll, ih]
@[simp] theorem State.popAll_draws (s : State) (rs : List Reg) : (s.popAll rs).draws = s.draws := by induction rs generalizing s with
  | nil => rfl
  | cons a rs ih => simp [State.popAll, ih]

/-! ## What the changed fields hold -/

@[simp] theorem State.memWrite_mem (s : State) (p n : Nat) (v : Word) :
    (s.memWrite p n v).mem = Memory.writeBytes s.memSize s.mem p (leBytes n v.toNat) := rfl
@[simp] theorem State.diag_diags (s : State) (k : DiagKind) :
    (s.diag k).diags = s.diags ++ [{ kind := k, ip0 := s.ip0, opc := s.opc }] := rfl
@[simp] theorem State.clearPending_pending (s : State) : s.clearPending.pending = none := rfl
@[simp] theorem State.jump_pending (s : State) (t : Word) : (s.jump t).pending = some { ip := t, seg := none } := rfl
@[simp] theorem State.recordInterrupt_interrupted (s : State) (c : Word) : (s.recordInterrupt c).interrupted = true := rfl
@[simp] theorem State.recordInterrupt_intCode (s : State) (c : Word) : (s.recordInterrupt c).intCode = c := rfl
@[simp] theorem State.deviceReadEvent_deviceLog (s : State) (p a v : Word) :
    (s.deviceReadEvent p a v).deviceLog = s.deviceLog ++ [.read p a v] := rfl
@[simp] theorem State.deviceReadEvent_draws (s : State) (p a v : Word) :
    (s.deviceReadEvent p a v).draws = s.draws + 1 := rfl
@[simp] theorem State.deviceWrite_deviceLog (s : State) (p a v : Word) :
    (s.deviceWrite p a v).deviceLog = s.deviceLog ++ [.write p a v] := rfl
@[simp] theorem State.snapshot_ip0 (s : State) : s.snapshot.ip0 = s.get .rip := rfl
@[simp] theorem State.snapshot_opc (s : State) : s.snapshot.opc = Memory.get s.mem (s.fetchAddr 0) := rfl
@[simp] theorem State.complete_stepCount (s : State) : s.complete.stepCount = s.stepCount + 1 := by
  simp [State.complete]
@[simp] theorem State.applyJump_pending (s : State) : s.applyJump.pending = none := by
  unfold State.applyJump
  split
  · assumption
  · split <;> rfl
@[simp] theorem State.complete_pending (s : State) : s.complete.pending = none := by simp [State.complete]
@[simp] theorem State.memWrite_memSize (s : State) (p n : Nat) (v : Word) : (s.memWrite p n v).memSize = s.memSize := rfl
@[simp] theorem State.set_memSize (s : State) (r : Reg) (v : Word) : (s.set r v).memSize = s.memSize := rfl
@[simp] theorem State.push_memSize (s : State) (n : Nat) (v : Word) : (s.push n v).memSize = s.memSize := by
  simp [State.memSize]
@[simp] theorem State.popMove_memSize (s : State) (n : Nat) : (s.popMove n).memSize = s.memSize := by
  simp [State.memSize]
@[simp] theorem State.clearPending_memSize (s : State) : s.clearPending.memSize = s.memSize := rfl

/-- A completed step that requests no jump keeps the register file. -/
theorem State.complete_get (s : State) (h : s.pending = none) (r : Reg) : s.complete.get r = s.get r := by
  unfold State.complete State.applyJump
  simp only [h]
  rfl

/-- A completed step that requested a jump continues at the target (R149). -/
theorem State.complete_get_jump (s : State) (t : Word) (h : s.pending = some { ip := t, seg := none }) (r : Reg) :
    s.complete.get r = if r = .rip then t else s.get r := by
  unfold State.complete State.applyJump
  simp only [h]
  rw [State.get_set]
  rfl

/-- `Push(n, v)` moves RSP and no other register (R70). -/
@[simp] theorem State.push_get (s : State) (n : Nat) (v : Word) (r : Reg) :
    (s.push n v).get r = if r = .rsp then s.get .rsp - BitVec.ofNat 64 n else s.get r := by
  simp [State.push]

/-- `Pop(n)` moves RSP and no other register (R70). -/
@[simp] theorem State.popMove_get (s : State) (n : Nat) (r : Reg) :
    (s.popMove n).get r = if r = .rsp then s.get .rsp + BitVec.ofNat 64 n else s.get r := by
  simp [State.popMove]

/-- `Push` stores the value's low bytes at the new stack offset (R70). -/
@[simp] theorem State.push_mem (s : State) (n : Nat) (v : Word) :
    (s.push n v).mem = Memory.writeBytes s.memSize s.mem (s.phys .ss (s.get .rsp - BitVec.ofNat 64 n)) (leBytes n v.toNat) := by
  simp [State.push]

/-- `Push` appends one history entry (R272). -/
@[simp] theorem State.push_history (s : State) (n : Nat) (v : Word) :
    (s.push n v).history = s.history ++ [{ value := v, address := s.get .rsp - BitVec.ofNat 64 n, width := n }] := by
  simp [State.push]

/-- `Push` is a change of the history: the revision counter advances (R272). -/
@[simp] theorem State.push_historyRev (s : State) (n : Nat) (v : Word) :
    (s.push n v).historyRev = s.historyRev + 1 := by
  simp [State.push, State.setHistory]

/-- `Pop` removes the history entries below the new stack offset (R273). -/
@[simp] theorem State.popMove_history (s : State) (n : Nat) :
    (s.popMove n).history =
      s.history.filter (fun e => decide ((s.get .rsp + BitVec.ofNat 64 n).toNat ≤ e.address.toNat)) := by
  simp [State.popMove, State.dropBelow]

end Sys2Proof.Machine
end

