-- ==== Sys2Proof/Laws/Memory.lean ====
section
/-! SUPPORT. Memory: what a byte reads after each operation, that every operation keeps the canonical form and stays
inside the buffer, and that little-endian bytes carry a number exactly. -/

namespace Sys2Proof

/-! ## Little-endian bytes -/

@[simp] theorem leBytes_length (n v : Nat) : (leBytes n v).length = n := by
  induction n generalizing v with
  | zero => rfl
  | succ n ih => simp [leBytes, ih]

@[simp] theorem leNat_leBytes (n v : Nat) : leNat (leBytes n v) = v % 256 ^ n := by
  induction n generalizing v with
  | zero => simp [leBytes, leNat, Nat.mod_one]
  | succ n ih =>
    have hp : (2 : Nat) ^ 8 = 256 := by norm_num
    simp only [leBytes, leNat, ih, BitVec.toNat_ofNat, hp]
    rw [pow_succ', Nat.mod_mul (x := v)]

theorem leNat_lt (bs : List Byte) : leNat bs < 256 ^ bs.length := by
  induction bs with
  | nil => simp [leNat]
  | cons b bs ih =>
    have hb := b.isLt
    simp only [leNat, List.length_cons, pow_succ]
    omega

theorem leBytes_getElem (n v i : Nat) (h : i < (leBytes n v).length) :
    (leBytes n v)[i] = BitVec.ofNat 8 (v / 256 ^ i) := by
  induction n generalizing v i with
  | zero => simp [leBytes] at h
  | succ n ih =>
    cases i with
    | zero => simp [leBytes]
    | succ i =>
      simp only [leBytes, List.getElem_cons_succ]
      rw [ih, Nat.div_div_eq_div_mul, pow_succ']

theorem leBytes_leNat (bs : List Byte) : leBytes bs.length (leNat bs) = bs := by
  induction bs with
  | nil => rfl
  | cons b bs ih =>
    have hb := b.isLt
    have h1 : BitVec.ofNat 8 (b.toNat + 256 * leNat bs) = b := by
      apply BitVec.eq_of_toNat_eq
      simp only [BitVec.toNat_ofNat]
      omega
    have h2 : (b.toNat + 256 * leNat bs) / 256 = leNat bs := by omega
    simp only [leNat, List.length_cons, leBytes, h1, h2, ih]

namespace Machine

/-! ## One byte -/

theorem Memory.get_erase (m : Memory) (a c : Nat) :
    Memory.get (Memory.erase m a) c = if c = a then 0 else Memory.get m c := by
  induction m with
  | nil => simp [Memory.erase, Memory.get]
  | cons e m ih =>
    obtain ⟨k, b⟩ := e
    simp only [Memory.erase, Memory.get]
    by_cases hk : k = a
    · simp only [hk, if_true, ih]
      by_cases hc : c = a
      · simp [hc]
      · simp [hc, Ne.symm hc]
    · simp only [hk, if_false, Memory.get, ih]
      by_cases hc : c = a
      · subst hc; simp [hk]
      · simp [hc]

theorem Memory.get_insert (m : Memory) (a c : Nat) (b : Byte) (h : Memory.erase m a = m) :
    Memory.get (Memory.insert m a b) c = if c = a then b else Memory.get m c := by
  induction m with
  | nil => simp [Memory.insert, Memory.get, eq_comm]
  | cons e m ih =>
    obtain ⟨k, x⟩ := e
    have hk : k ≠ a := by
      intro hk
      have := congrArg List.length h
      have hl : ∀ m : Memory, (Memory.erase m a).length ≤ m.length := by
        intro m
        induction m with
        | nil => simp [Memory.erase]
        | cons e m ih => simp only [Memory.erase]; split <;> simp <;> omega
      have := hl m
      simp [Memory.erase, hk] at *
      omega
    have h' : Memory.erase m a = m := by simpa [Memory.erase, hk] using h
    simp only [Memory.insert]
    split
    · simp only [Memory.get, eq_comm (a := a)]
    · simp only [Memory.get, ih h']
      by_cases hc : c = a
      · subst hc; simp [hk]
      · simp [hc]

theorem Memory.erase_erase (m : Memory) (a : Nat) : Memory.erase (Memory.erase m a) a = Memory.erase m a := by
  induction m with
  | nil => rfl
  | cons e m ih =>
    simp only [Memory.erase]
    split
    · exact ih
    · next h => simp [Memory.erase, h, ih]

/-- A byte reads what was last written to it; every other byte is unchanged (R63). -/
@[simp] theorem Memory.get_put (m : Memory) (a c : Nat) (b : Byte) :
    Memory.get (Memory.put m a b) c = if c = a then b else Memory.get m c := by
  unfold Memory.put
  split
  · next h => rw [Memory.get_erase, h]
  · rw [Memory.get_insert _ _ _ _ (Memory.erase_erase m a), Memory.get_erase]
    by_cases hc : c = a <;> simp [hc]

/-! ## The canonical form -/

theorem Memory.canonicalFrom_weaken (m : Memory) {lo : Option Nat} {k : Nat} (h : ∀ l, lo = some l → l ≤ k)
    (hm : Memory.canonicalFrom (some k) m = true) : Memory.canonicalFrom lo m = true := by
  cases m with
  | nil => cases lo <;> rfl
  | cons e m =>
    obtain ⟨j, b⟩ := e
    cases lo with
    | none => simp_all [Memory.canonicalFrom]
    | some l =>
      have := h l rfl
      simp only [Memory.canonicalFrom, Option.all_some, Bool.and_eq_true, decide_eq_true_eq] at *
      exact ⟨⟨by omega, hm.1.2⟩, hm.2⟩

theorem Memory.canonicalFrom_erase (m : Memory) (a : Nat) (lo : Option Nat) (h : Memory.canonicalFrom lo m = true) :
    Memory.canonicalFrom lo (Memory.erase m a) = true := by
  induction m generalizing lo with
  | nil => exact h
  | cons e m ih =>
    obtain ⟨k, b⟩ := e
    simp only [Memory.canonicalFrom, Bool.and_eq_true] at h
    simp only [Memory.erase]
    split
    · refine Memory.canonicalFrom_weaken _ ?_ (ih _ h.2)
      intro l hl
      subst hl
      simp at h
      omega
    · simp only [Memory.canonicalFrom, Bool.and_eq_true]
      exact ⟨h.1, ih _ h.2⟩

theorem Memory.canonicalFrom_insert (m : Memory) (a : Nat) (b : Byte) (lo : Option Nat) (hb : b ≠ 0)
    (hlo : ∀ l, lo = some l → l < a) (ha : Memory.erase m a = m) (h : Memory.canonicalFrom lo m = true) :
    Memory.canonicalFrom lo (Memory.insert m a b) = true := by
  induction m generalizing lo with
  | nil => cases lo <;> simp_all [Memory.insert, Memory.canonicalFrom]
  | cons e m ih =>
    obtain ⟨k, c⟩ := e
    have hlen : ∀ m : Memory, (Memory.erase m a).length ≤ m.length := by
      intro m
      induction m with
      | nil => simp [Memory.erase]
      | cons e m ih => simp only [Memory.erase]; split <;> simp <;> omega
    have hk : k ≠ a := by
      intro hk
      have := congrArg List.length ha
      have := hlen m
      simp [Memory.erase, hk] at *
      omega
    have ha' : Memory.erase m a = m := by simpa [Memory.erase, hk] using ha
    simp only [Memory.canonicalFrom, Bool.and_eq_true] at h
    simp only [Memory.insert]
    split
    · next hlt =>
      simp only [Memory.canonicalFrom, Bool.and_eq_true, Option.all_some, decide_eq_true_eq]
      refine ⟨⟨?_, by simpa using hb⟩, ⟨hlt, h.1.2⟩, h.2⟩
      cases lo with
      | none => rfl
      | some l => simpa using hlo l rfl
    · simp only [Memory.canonicalFrom, Bool.and_eq_true]
      refine ⟨h.1, ih (some k) ?_ ha' h.2⟩
      intro l hl
      cases hl
      omega

theorem Memory.wf_put (m : Memory) (a : Nat) (b : Byte) (h : Memory.wf m = true) : Memory.wf (Memory.put m a b) = true := by
  unfold Memory.put Memory.wf
  split
  · exact Memory.canonicalFrom_erase m a none h
  · next hb =>
    exact Memory.canonicalFrom_insert _ a b none hb (fun l hl => by cases hl) (Memory.erase_erase m a)
      (Memory.canonicalFrom_erase m a none h)

theorem Memory.within_put (size : Nat) (m : Memory) (a : Nat) (b : Byte) (ha : a < size)
    (h : Memory.within size m = true) : Memory.within size (Memory.put m a b) = true := by
  have he : Memory.within size (Memory.erase m a) = true := by
    unfold Memory.within at *
    induction m with
    | nil => rfl
    | cons e m ih =>
      simp only [List.all_cons, Bool.and_eq_true] at h
      simp only [Memory.erase]
      split
      · exact ih h.2
      · simp only [List.all_cons, Bool.and_eq_true]
        exact ⟨h.1, ih h.2⟩
  unfold Memory.put
  split
  · exact he
  · generalize Memory.erase m a = m' at he
    unfold Memory.within at *
    induction m' with
    | nil => simp [Memory.insert, ha]
    | cons e m' ih =>
      simp only [List.all_cons, Bool.and_eq_true] at he
      simp only [Memory.insert]
      split
      · simp only [List.all_cons, Bool.and_eq_true]
        exact ⟨by simpa using ha, he.1, he.2⟩
      · simp only [List.all_cons, Bool.and_eq_true]
        exact ⟨he.1, ih he.2⟩

theorem Memory.wf_writeBytes (size : Nat) (m : Memory) (p : Nat) (bs : List Byte) (h : Memory.wf m = true) :
    Memory.wf (Memory.writeBytes size m p bs) = true := by
  induction bs generalizing m p with
  | nil => exact h
  | cons b bs ih => exact ih _ _ (Memory.wf_put m _ b h)

theorem Memory.within_writeBytes (size : Nat) (m : Memory) (p : Nat) (bs : List Byte) (hs : 0 < size)
    (h : Memory.within size m = true) : Memory.within size (Memory.writeBytes size m p bs) = true := by
  induction bs generalizing m p with
  | nil => exact h
  | cons b bs ih => exact ih _ _ (Memory.within_put size m _ b (Nat.mod_lt _ hs) h)

theorem Memory.wf_pokes (size : Nat) (m : Memory) (ws : List Host.Cell) (h : Memory.wf m = true) :
    Memory.wf (Memory.pokes size m ws) = true := by
  induction ws generalizing m with
  | nil => exact h
  | cons w ws ih => exact ih _ (Memory.wf_put m _ w.2 h)

theorem Memory.within_pokes (size : Nat) (m : Memory) (ws : List Host.Cell) (hs : 0 < size)
    (h : Memory.within size m = true) : Memory.within size (Memory.pokes size m ws) = true := by
  induction ws generalizing m with
  | nil => exact h
  | cons w ws ih => exact ih _ (Memory.within_put size m _ w.2 (Nat.mod_lt _ hs) h)

/-- Two canonical memories that read the same at every index are the same list. -/
theorem Memory.eq_of_get_eq {m n : Memory} (hm : Memory.wf m = true) (hn : Memory.wf n = true)
    (h : ∀ a, Memory.get m a = Memory.get n a) : m = n := by
  have below : ∀ (m : Memory) (k a : Nat), Memory.canonicalFrom (some k) m = true → a ≤ k → Memory.get m a = 0 := by
    intro m
    induction m with
    | nil => intros; rfl
    | cons e m ih =>
      intro k a hc ha
      obtain ⟨j, b⟩ := e
      simp only [Memory.canonicalFrom, Option.all_some, Bool.and_eq_true, decide_eq_true_eq] at hc
      have hne : j ≠ a := by omega
      simp only [Memory.get, hne, if_false]
      exact ih j a hc.2 (by omega)
  have key : ∀ (m n : Memory) (lo : Option Nat), Memory.canonicalFrom lo m = true → Memory.canonicalFrom lo n = true →
      (∀ a, Memory.get m a = Memory.get n a) → m = n := by
    intro m
    induction m with
    | nil =>
      intro n lo _ hn h
      cases n with
      | nil => rfl
      | cons e n =>
        obtain ⟨j, b⟩ := e
        simp only [Memory.canonicalFrom, Bool.and_eq_true, bne_iff_ne, ne_eq] at hn
        have := h j
        simp [Memory.get] at this
        exact absurd this.symm hn.1.2
    | cons e m ih =>
      intro n lo hm hn h
      obtain ⟨k, b⟩ := e
      simp only [Memory.canonicalFrom, Bool.and_eq_true, bne_iff_ne, ne_eq] at hm
      cases n with
      | nil =>
        have := h k
        simp [Memory.get] at this
        exact absurd this hm.1.2
      | cons f n =>
        obtain ⟨j, c⟩ := f
        simp only [Memory.canonicalFrom, Bool.and_eq_true, bne_iff_ne, ne_eq] at hn
        have hkj : k = j := by
          rcases Nat.lt_trichotomy k j with hlt | heq | hlt
          · have := h k
            have hne : j ≠ k := by omega
            simp only [Memory.get, if_true, hne, if_false] at this
            rw [below n j k hn.2 (by omega)] at this
            exact absurd this hm.1.2
          · exact heq
          · have := h j
            have hne : k ≠ j := by omega
            simp only [Memory.get, if_true, hne, if_false] at this
            rw [below m k j hm.2 (by omega)] at this
            exact absurd this.symm hn.1.2
        subst hkj
        have hb : b = c := by simpa [Memory.get] using h k
        subst hb
        have htail : m = n := by
          refine ih n (some k) hm.2 hn.2 fun a => ?_
          by_cases ha : a ≤ k
          · rw [below m k a hm.2 ha, below n k a hn.2 ha]
          · have := h a
            have hne : k ≠ a := by omega
            simpa only [Memory.get, hne, if_false] using this
        rw [htail]
  exact key m n none hm hn h

/-! ## Several bytes -/

@[simp] theorem Memory.readBytes_length (size : Nat) (m : Memory) (p n : Nat) :
    (Memory.readBytes size m p n).length = n := by
  induction n generalizing p with
  | zero => rfl
  | succ n ih => simp [Memory.readBytes, ih]

theorem Memory.readBytes_getElem (size : Nat) (m : Memory) (p n i : Nat)
    (h : i < (Memory.readBytes size m p n).length) :
    (Memory.readBytes size m p n)[i] = Memory.get m ((p + i) % size) := by
  induction n generalizing p i with
  | zero => simp [Memory.readBytes] at h
  | succ n ih =>
    cases i with
    | zero => rfl
    | succ i =>
      simp only [Memory.readBytes, List.getElem_cons_succ]
      rw [ih]
      congr 2
      omega

/-- A byte outside the stored range is unchanged (R63). -/
theorem Memory.get_writeBytes_of_notMem (size : Nat) (m : Memory) (p a : Nat) (bs : List Byte)
    (h : ∀ i, i < bs.length → (p + i) % size ≠ a) :
    Memory.get (Memory.writeBytes size m p bs) a = Memory.get m a := by
  induction bs generalizing m p with
  | nil => rfl
  | cons b bs ih =>
    simp only [Memory.writeBytes]
    rw [ih]
    · have := h 0 (by simp)
      simp only [Nat.add_zero] at this
      rw [Memory.get_put, if_neg (Ne.symm this)]
    · intro i hi
      have := h (i + 1) (by simpa using hi)
      rwa [← Nat.add_assoc, Nat.add_right_comm] at this

/-- Offsets below the size name distinct cells. -/
theorem add_mod_inj {size p i j : Nat} (hi : i < size) (hj : j < size) (h : (p + i) % size = (p + j) % size) : i = j := by
  have := Nat.ModEq.add_left_cancel' p h
  simpa [Nat.ModEq, Nat.mod_eq_of_lt hi, Nat.mod_eq_of_lt hj] using this

/-- A stored byte reads back, when the range is no longer than the buffer (R63). -/
theorem Memory.get_writeBytes (size : Nat) (m : Memory) (p i : Nat) (bs : List Byte) (hs : bs.length ≤ size)
    (h : i < bs.length) : Memory.get (Memory.writeBytes size m p bs) ((p + i) % size) = bs[i] := by
  induction bs generalizing m p i with
  | nil => simp at h
  | cons b bs ih =>
    simp only [List.length_cons] at hs h
    simp only [Memory.writeBytes]
    cases i with
    | zero =>
      rw [Memory.get_writeBytes_of_notMem]
      · simp
      · intro j hj e
        have e' : (p + (1 + j)) % size = (p + 0) % size := by rw [← Nat.add_assoc]; simpa using e
        have := add_mod_inj (by omega) (by omega) e'
        omega
    | succ i =>
      have e : p + (i + 1) = p + 1 + i := by omega
      rw [e, ih _ _ _ (by omega) (by omega)]
      rfl

theorem Memory.readBytes_writeBytes (size : Nat) (m : Memory) (p : Nat) (bs : List Byte) (hs : bs.length ≤ size) :
    Memory.readBytes size (Memory.writeBytes size m p bs) p bs.length = bs := by
  apply List.ext_getElem (by simp)
  intro i h1 h2
  rw [Memory.readBytes_getElem, Memory.get_writeBytes size m p i bs hs h2]

/-- Two memories that agree on a range read the same there. -/
theorem Memory.readBytes_congr (size : Nat) (m m' : Memory) (p n : Nat)
    (h : ∀ i, i < n → Memory.get m ((p + i) % size) = Memory.get m' ((p + i) % size)) :
    Memory.readBytes size m p n = Memory.readBytes size m' p n := by
  apply List.ext_getElem (by simp)
  intro i h1 h2
  rw [Memory.readBytes_getElem, Memory.readBytes_getElem]
  exact h i (by simpa using h1)

/-! ## The state's memory -/

theorem State.memSize_pos (s : State) : 16 ≤ s.memSize := s.config.memSize.property.1

theorem State.phys_lt (s : State) (seg : Reg) (off : Word) : s.phys seg off < s.memSize :=
  Nat.mod_lt _ (by have := s.memSize_pos; omega)

theorem Width.bytes_le (w : Width) : w.bytes ≤ 8 := by cases w <;> decide

theorem Width.bytes_pos (w : Width) : 0 < w.bytes := by cases w <;> decide

/-- `256 ^ n` is `2 ^ (8 n)`. -/
theorem pow_256 (n : Nat) : 256 ^ n = 2 ^ (8 * n) := by
  rw [pow_mul]
  norm_num

/-- Reading what was just written gives the low bytes of the value (R62, R63). -/
theorem State.memRead_memWrite (s : State) (p n : Nat) (v : Word) (hn : n ≤ 8) :
    (s.memWrite p n v).memRead p n = BitVec.ofNat 64 (v.toNat % 256 ^ n) := by
  have hs := s.memSize_pos
  unfold State.memRead
  have h := Memory.readBytes_writeBytes s.memSize s.mem p (leBytes n v.toNat) (by simp; omega)
  simp only [leBytes_length] at h
  rw [State.memWrite_memSize, State.memWrite_mem, h, leNat_leBytes]

/-- `MemRead` gives a value of its width (R62). -/
theorem State.memRead_lt (s : State) (p n : Nat) : (s.memRead p n).toNat < 256 ^ n := by
  unfold State.memRead
  have h := leNat_lt (Memory.readBytes s.memSize s.mem p n)
  simp only [Memory.readBytes_length] at h
  rw [BitVec.toNat_ofNat]
  exact lt_of_le_of_lt (Nat.mod_le _ _) h

end Machine

end Sys2Proof
end

