-- ==== Sys2Proof/Laws/Operands.lean ====
section
/-! SUPPORT. What an operand write can do (regions, memory, nothing else), what a flag write can do, and when an instruction's
checks pass. -/

namespace Sys2Proof.Machine

/-! ## Regions (R24) -/

/-- The bits of a region's mask. -/
theorem Region.mask_getLsbD (g : Region) (i : Nat) (hi : i < 64) :
    (Region.mask g).getLsbD i = decide (g.lo ≤ i ∧ i < g.lo + g.width.bits) := by
  unfold Region.mask
  rw [BitVec.getLsbD_ofNat, Nat.testBit_mul_two_pow, Nat.testBit_two_pow_sub_one]
  simp only [hi, decide_true, Bool.true_and]
  by_cases h : g.lo ≤ i
  · simp only [h, decide_true, Bool.true_and, true_and]
    exact decide_eq_decide.mpr (by omega)
  · simp [h]

theorem Region.width_le (g : Region) : g.lo + g.width.bits ≤ 64 := by cases g <;> decide

/-- A region write changes the region's bits and keeps the others (R24). -/
theorem Region.write_getLsbD (g : Region) (slot v : Word) (i : Nat) (hi : i < 64) :
    (Region.write g slot v).getLsbD i =
      if g.lo ≤ i ∧ i < g.lo + g.width.bits then v.getLsbD (i - g.lo) else slot.getLsbD i := by
  unfold Region.write
  simp only [BitVec.getLsbD_or, BitVec.getLsbD_and, BitVec.getLsbD_not, BitVec.getLsbD_shiftLeft,
    Region.mask_getLsbD g i hi, hi, decide_true, Bool.true_and]
  by_cases h : g.lo ≤ i ∧ i < g.lo + g.width.bits
  · have h' : ¬ i < g.lo := by omega
    simp [h, h']
  · simp [h]

/-- A region read is the region's bits, zero-extended (R24). -/
theorem Region.read_getLsbD (g : Region) (slot : Word) (i : Nat) :
    (Region.read g slot).getLsbD i = (decide (i < g.width.bits) && slot.getLsbD (g.lo + i)) := by
  unfold Region.read
  rw [BitVec.getLsbD_ushiftRight, BitVec.getLsbD_and]
  by_cases hi : g.lo + i < 64
  · rw [Region.mask_getLsbD g _ hi, Bool.and_comm]
    congr 1
    exact decide_eq_decide.mpr (by omega)
  · have hw := Region.width_le g
    have hd : ¬ i < g.width.bits := by omega
    have h0 : slot.getLsbD (g.lo + i) = false := BitVec.getLsbD_of_ge _ _ (by omega)
    simp [h0, hd]

/-- A value of a region is below `2^W`. -/
theorem Region.read_lt (g : Region) (slot : Word) : (Region.read g slot).toNat < 2 ^ g.width.bits := by
  have hw := Region.width_le g
  have h : (Region.read g slot).toNat = (Region.read g slot).toNat % 2 ^ g.width.bits := by
    apply Nat.eq_of_testBit_eq
    intro i
    rw [Nat.testBit_mod_two_pow, BitVec.testBit_toNat, Region.read_getLsbD]
    cases decide (i < g.width.bits) <;> simp
  rw [h]
  exact Nat.mod_lt _ (by positivity)

/-! ## Operand values (R150) -/

/-- An operand's value is below `2^W` of its width: narrow values are zero-extended (R150). -/
theorem State.readOp_lt (s : State) (op : Operand) : (s.readOp op).toNat < 2 ^ op.width.bits := by
  cases op with
  | reg r => exact Region.read_lt _ _
  | mem w seg mode =>
    have := s.memRead_lt (s.memAddr seg mode) w.bytes
    rw [pow_256] at this
    exact this
  | imm w lit =>
    simp only [State.readOp, truncNat, Operand.width, BitVec.toNat_ofNat]
    exact lt_of_le_of_lt (Nat.mod_le _ _) (Nat.mod_lt _ (by positivity))

theorem Width.bits_le (w : Width) : w.bits ≤ 64 := by cases w <;> decide

theorem Width.bits_pos (w : Width) : 8 ≤ w.bits := by cases w <;> decide

/-- A `W`-bit result is a 64-bit word with that value. -/
theorem toNat_ofNat_of_lt_width (w : Width) (r : Nat) (h : r < 2 ^ w.bits) : (BitVec.ofNat 64 r).toNat = r := by
  rw [BitVec.toNat_ofNat]
  exact Nat.mod_eq_of_lt (lt_of_lt_of_le h (Nat.pow_le_pow_right (by decide) (Width.bits_le w)))

/-! ## Operand writes (R151) -/

section writeOp
variable (pre : State) (op : Operand) (v : Word) (old : State)

@[simp] theorem State.writeOp_config : (pre.writeOp op v old).config = old.config := by cases op <;> rfl
@[simp] theorem State.writeOp_stepCount : (pre.writeOp op v old).stepCount = old.stepCount := by cases op <;> rfl
@[simp] theorem State.writeOp_interrupted : (pre.writeOp op v old).interrupted = old.interrupted := by cases op <;> rfl
@[simp] theorem State.writeOp_intCode : (pre.writeOp op v old).intCode = old.intCode := by cases op <;> rfl
@[simp] theorem State.writeOp_pending : (pre.writeOp op v old).pending = old.pending := by cases op <;> rfl
@[simp] theorem State.writeOp_ip0 : (pre.writeOp op v old).ip0 = old.ip0 := by cases op <;> rfl
@[simp] theorem State.writeOp_opc : (pre.writeOp op v old).opc = old.opc := by cases op <;> rfl
@[simp] theorem State.writeOp_history : (pre.writeOp op v old).history = old.history := by cases op <;> rfl
@[simp] theorem State.writeOp_historyRev : (pre.writeOp op v old).historyRev = old.historyRev := by cases op <;> rfl
@[simp] theorem State.writeOp_diags : (pre.writeOp op v old).diags = old.diags := by cases op <;> rfl
@[simp] theorem State.writeOp_deviceLog : (pre.writeOp op v old).deviceLog = old.deviceLog := by cases op <;> rfl
@[simp] theorem State.writeOp_draws : (pre.writeOp op v old).draws = old.draws := by cases op <;> rfl

/-- Every register but the destination is kept. -/
theorem State.writeOp_get (r : Reg) (h : r ∉ Operand.destRegs op) : (pre.writeOp op v old).get r = old.get r := by
  cases op with
  | reg q =>
    simp only [Operand.destRegs, List.mem_singleton] at h
    simp [State.writeOp, State.setRef, h]
  | mem w seg mode => rfl
  | imm w lit => rfl

/-- Every byte outside the destination's bytes is kept. -/
theorem State.writeOp_mem (hc : old.config = pre.config) (a : Nat) (h : a ∉ pre.destBytes op) :
    Memory.get (pre.writeOp op v old).mem a = Memory.get old.mem a := by
  cases op with
  | reg q => rfl
  | imm w lit => rfl
  | mem w seg mode =>
    have hs : old.memSize = pre.memSize := by simp [State.memSize, hc]
    simp only [State.writeOp, State.memWrite_mem, hs]
    apply Memory.get_writeBytes_of_notMem
    intro i hi e
    apply h
    simp only [State.destBytes, byteRange, List.mem_map, List.mem_range]
    exact ⟨i, by simpa using hi, e⟩

/-- The destination holds the value, its address taken from the state before the instruction (R148, R151). -/
theorem State.writeOp_holds (fs : List Flag) (hc : old.config = pre.config) (h : Operand.isImm op = false) :
    Holds pre old (pre.writeOp op v old) op v fs := by
  cases op with
  | imm w lit => simp [Operand.isImm] at h
  | reg r =>
    intro i hi _
    simp only [State.writeOp, State.setRef, State.get_set_self]
    exact Region.write_getLsbD _ _ _ i hi
  | mem w seg mode =>
    have hs : old.memSize = pre.memSize := by simp [State.memSize, hc]
    have hp := pre.memSize_pos
    have hb := Width.bytes_le w
    intro i hi
    simp only [State.writeOp, State.memWrite_memSize, State.memWrite_mem, hs]
    rw [Memory.get_writeBytes _ _ _ _ _ (by simp; omega) (by simpa using hi), leBytes_getElem]

theorem State.writeOp_frame (fs : List Flag) (hc : old.config = pre.config) :
    Frame old (pre.writeOp op v old) (Operand.destRegs op) fs (pre.destBytes op) where
  otherRegs r _ h := State.writeOp_get pre op v old r h
  otherBits h i _ _ := by rw [State.writeOp_get pre op v old _ h]
  otherBytes a h := State.writeOp_mem pre op v old hc a h
  config := by simp
  ip0 := by simp
  opc := by simp

end writeOp

/-! ## Flag writes (R31, R148) -/

theorem setBit_getLsbD (v : Word) (i j : Nat) (b : Bool) (hi : i < 64) (hj : j < 64) :
    (setBit v i b).getLsbD j = if j = i then b else v.getLsbD j := by
  unfold setBit
  by_cases hji : j = i
  · subst hji
    cases b <;> simp [hj]
  · have h2 : j < i ∨ j - i ≠ 0 := by omega
    have h3 : i ≤ j → j - i ≠ 0 := by omega
    cases b
    · simp [hji, hj]; tauto
    · simp [hji, hj]; tauto

theorem Flag.bit_lt (f : Flag) : f.bit < 64 := by cases f <;> decide

theorem Flag.bit_inj {f g : Flag} (h : f.bit = g.bit) : f = g := by
  cases f <;> cases g <;> first | rfl | (exact absurd h (by decide))

theorem State.writeFlag_get (s : State) (f : Flag) (b : Bool) (r : Reg) (h : r ≠ .rflags) :
    (s.writeFlag f b).get r = s.get r := by
  simp [State.writeFlag, h]

theorem State.writeFlag_bit (s : State) (f : Flag) (b : Bool) (i : Nat) (hi : i < 64) :
    ((s.writeFlag f b).get .rflags).getLsbD i = if i = f.bit then b else (s.get .rflags).getLsbD i := by
  simp only [State.writeFlag, State.get_set_self]
  exact setBit_getLsbD _ _ _ _ (Flag.bit_lt f) hi

/-- `writeFlag` sets that flag and no other (R31). -/
@[simp] theorem State.writeFlag_flag (s : State) (f g : Flag) (b : Bool) :
    (s.writeFlag f b).flag g = if g = f then b else s.flag g := by
  unfold State.flag
  rw [State.writeFlag_bit _ _ _ _ (Flag.bit_lt g)]
  by_cases h : g = f
  · simp [h]
  · have : g.bit ≠ f.bit := fun e => h (Flag.bit_inj e)
    simp [h, this]

theorem State.writeFlags_get (s : State) (fs : FlagWrites) (r : Reg) (h : r ≠ .rflags) :
    (s.writeFlags fs).get r = s.get r := by
  induction fs generalizing s with
  | nil => rfl
  | cons a fs ih =>
    simp only [State.writeFlags]
    rw [ih, State.writeFlag_get _ _ _ _ h]

theorem State.writeFlags_bit (s : State) (fs : FlagWrites) (i : Nat) (hi : i < 64)
    (h : ¬ isFlagBit (fs.map Prod.fst) i) :
    ((s.writeFlags fs).get .rflags).getLsbD i = (s.get .rflags).getLsbD i := by
  induction fs generalizing s with
  | nil => rfl
  | cons a fs ih =>
    simp only [State.writeFlags]
    have h1 : i ≠ a.1.bit := fun e => h ⟨a.1, by simp, e.symm⟩
    have h2 : ¬ isFlagBit (fs.map Prod.fst) i := fun ⟨f, hf, e⟩ => h ⟨f, by simp at hf ⊢; tauto, e⟩
    rw [ih _ h2, State.writeFlag_bit _ _ _ _ hi, if_neg h1]

theorem State.writeFlags_flag_cons (s : State) (f g : Flag) (b : Bool) (fs : FlagWrites) :
    (s.writeFlags ((f, b) :: fs)).flag g = ((s.writeFlag f b).writeFlags fs).flag g := rfl

@[simp] theorem State.writeFlags_nil (s : State) : s.writeFlags [] = s := rfl

@[simp] theorem State.writeFlags_cons (s : State) (f : Flag) (b : Bool) (fs : FlagWrites) :
    s.writeFlags ((f, b) :: fs) = (s.writeFlag f b).writeFlags fs := rfl

theorem State.writeFlags_frame (s : State) (fs : FlagWrites) : Frame s (s.writeFlags fs) [] (fs.map Prod.fst) [] where
  otherRegs r h _ := State.writeFlags_get s fs r h
  otherBits _ i hi h := State.writeFlags_bit s fs i hi h
  otherBytes a _ := by simp
  config := by simp
  ip0 := by simp
  opc := by simp

/-! ## Frames compose -/

theorem Frame.refl (s : State) (regs : List Reg) (fs : List Flag) (bytes : List Nat) : Frame s s regs fs bytes :=
  ⟨fun _ _ _ => rfl, fun _ _ _ _ => rfl, fun _ _ => rfl, rfl, rfl, rfl⟩

theorem Frame.trans {s t u : State} {r1 r2 : List Reg} {f1 f2 : List Flag} {b1 b2 : List Nat}
    (h1 : Frame s t r1 f1 b1) (h2 : Frame t u r2 f2 b2) : Frame s u (r1 ++ r2) (f1 ++ f2) (b1 ++ b2) where
  otherRegs r hr h := by
    simp only [List.mem_append, not_or] at h
    rw [h2.otherRegs r hr h.2, h1.otherRegs r hr h.1]
  otherBits h i hi hf := by
    simp only [List.mem_append, not_or] at h
    rw [h2.otherBits h.2 i hi (fun ⟨f, hm, e⟩ => hf ⟨f, by simp [hm], e⟩),
      h1.otherBits h.1 i hi (fun ⟨f, hm, e⟩ => hf ⟨f, by simp [hm], e⟩)]
  otherBytes a h := by
    simp only [List.mem_append, not_or] at h
    rw [h2.otherBytes a h.2, h1.otherBytes a h.1]
  config := by rw [h2.config, h1.config]
  ip0 := by rw [h2.ip0, h1.ip0]
  opc := by rw [h2.opc, h1.opc]

theorem Frame.weaken {s t : State} {r r' : List Reg} {f f' : List Flag} {b b' : List Nat} (h : Frame s t r f b)
    (hr : r ⊆ r') (hf : f ⊆ f') (hb : b ⊆ b') : Frame s t r' f' b' where
  otherRegs q hq hn := h.otherRegs q hq fun hm => hn (hr hm)
  otherBits hn i hi hi' := h.otherBits (fun hm => hn (hr hm)) i hi fun ⟨g, hm, e⟩ => hi' ⟨g, hf hm, e⟩
  otherBytes a ha := h.otherBytes a fun hm => ha (hb hm)
  config := h.config
  ip0 := h.ip0
  opc := h.opc

/-! ## The checks (R152, R153) -/

/-- The checks pass exactly when every single check passes. -/
theorem State.check_eq_none (s : State) (ops : List (Role × Operand)) (slots : List StackSlot) :
    s.check ops slots = none ↔
      (∀ o ∈ ops, roleError o = none ∧ regionError o = none ∧ s.boundsError o = none) ∧
        ∀ k ∈ slots, s.slotError k = none := by
  unfold State.check
  simp only [Option.or_eq_none_iff, List.findSome?_eq_none_iff]
  constructor
  · rintro ⟨h1, h2, h3, h4⟩
    exact ⟨fun o ho => ⟨h1 o ho, h2 o ho, h3 o ho⟩, h4⟩
  · rintro ⟨h, h4⟩
    exact ⟨fun o ho => (h o ho).1, fun o ho => (h o ho).2.1, fun o ho => (h o ho).2.2, h4⟩

@[simp] theorem State.clearPending_check (s : State) (ops : List (Role × Operand)) (slots : List StackSlot) :
    s.clearPending.check ops slots = s.check ops slots := rfl

@[simp] theorem State.clearPending_readOp (s : State) (op : Operand) : s.clearPending.readOp op = s.readOp op := by
  cases op <;> rfl

@[simp] theorem State.clearPending_flag (s : State) (f : Flag) : s.clearPending.flag f = s.flag f := rfl

@[simp] theorem State.clearPending_ea (s : State) (m : AddrMode) : s.clearPending.ea m = s.ea m := by cases m <;> rfl

@[simp] theorem State.clearPending_memAddr (s : State) (g : SegSel) (m : AddrMode) :
    s.clearPending.memAddr g m = s.memAddr g m := rfl

@[simp] theorem State.clearPending_phys (s : State) (r : Reg) (off : Word) :
    s.clearPending.phys r off = s.phys r off := rfl

@[simp] theorem State.clearPending_destBytes (s : State) (op : Operand) :
    s.clearPending.destBytes op = s.destBytes op := by cases op <;> rfl

/-- One operand that is read passes its checks when it is readable. -/
theorem State.checks_of_readable (s : State) (ro : Role) (op : Operand) (hm : ro ≠ .m) (hw : ro.writes = false)
    (h : s.readable op = true) :
    roleError (ro, op) = none ∧ regionError (ro, op) = none ∧ s.boundsError (ro, op) = none := by
  simp only [State.readable, State.reaches, Bool.and_eq_true] at h
  cases ro <;> simp [Role.writes] at hw hm <;> cases op <;>
    simp_all [roleError, regionError, State.boundsError]

/-- One operand that is written passes its checks when it is writable. -/
theorem State.checks_of_writable (s : State) (ro : Role) (op : Operand) (hw : ro.writes = true)
    (h : s.writable op = true) :
    roleError (ro, op) = none ∧ regionError (ro, op) = none ∧ s.boundsError (ro, op) = none := by
  simp only [State.writable, State.readable, State.reaches, Bool.and_eq_true] at h
  cases ro <;> simp [Role.writes] at hw <;> cases op <;>
    simp_all [roleError, regionError, State.boundsError, Operand.isImm]

theorem State.slotError_of_slotOk (s : State) (off : Word) (n : Nat) (h : s.slotOk off n = true) :
    s.slotError (off, n) = none := by
  unfold State.slotOk at h
  simp [State.slotError, h]

/-! ## Instruction rules -/

/-- A rule whose checks pass and which completes commits, is counted, and its jump is applied. -/
theorem runRule_ok {s t : State} {ops : List (Role × Operand)} {slots : List StackSlot}
    {rule : State → Except ExecError State} (hc : s.check ops slots = none) (h : rule s.clearPending = .ok t) :
    runRule s ops slots rule = .next t.complete := by
  simp [runRule, hc, h]

/-- A rule whose checks fail reports the first failure and leaves nothing else (R146, R153). -/
theorem runRule_check {s : State} {ops : List (Role × Operand)} {slots : List StackSlot}
    {rule : State → Except ExecError State} {e : ExecError} (hc : s.check ops slots = some e) :
    runRule s ops slots rule = .next (s.failed e) := by
  simp [runRule, hc]
  rfl

/-- A rule that raises a value error leaves nothing else (R146). -/
theorem runRule_error {s : State} {ops : List (Role × Operand)} {slots : List StackSlot}
    {rule : State → Except ExecError State} {e : ExecError} (hc : s.check ops slots = none)
    (h : rule s.clearPending = .error e) : runRule s ops slots rule = .next (s.failed e) := by
  simp [runRule, hc, h]
  rfl

/-- Everything a rule can do: it fails leaving only a diagnostic, or completes. -/
theorem runRule_cases (s : State) (ops : List (Role × Operand)) (slots : List StackSlot)
    (rule : State → Except ExecError State) :
    (∃ e, runRule s ops slots rule = .next (s.failed e)) ∨
      (s.check ops slots = none ∧ ∃ t, rule s.clearPending = .ok t ∧ runRule s ops slots rule = .next t.complete) := by
  cases hc : s.check ops slots with
  | some e => exact .inl ⟨e, runRule_check hc⟩
  | none =>
    cases h : rule s.clearPending with
    | error e => exact .inl ⟨e, runRule_error hc h⟩
    | ok t => exact .inr ⟨rfl, t, rfl, runRule_ok hc h⟩

end Sys2Proof.Machine
end

