-- ==== Sys2Proof/Laws/Alu.lean ====
section
/-! SUPPORT. The integer operations of the model in the spec's own terms (signed values, parity, overflow, unbounded
shifts), and what the commit of a result with its flags leaves. -/

namespace Sys2Proof.Machine

/-! ## Integers of width W (R12) -/

theorem signed_eq (W a : Nat) (hW : 0 < W) (ha : a < 2 ^ W) : signed W a = signedOf W a := by
  unfold signed signedOf
  have h2 : (2 : Nat) ^ W = 2 * 2 ^ (W - 1) := by rw [← pow_succ']; congr 1; omega
  have hm : a % 2 ^ W = a := Nat.mod_eq_of_lt ha
  rw [BitVec.toInt_eq_toNat_cond, BitVec.toNat_ofNat, hm]
  by_cases hb : 2 ^ (W - 1) ≤ a
  · have ht : a.testBit (W - 1) = true := by
      rw [Nat.testBit_eq_decide_div_mod_eq, decide_eq_true_eq]
      have : a / 2 ^ (W - 1) = 1 := by
        rw [Nat.div_eq_of_lt_le] <;> omega
      omega
    have : ¬ 2 * a < 2 ^ W := by omega
    simp [ht, this]
  · have ht : a.testBit (W - 1) = false := Nat.testBit_lt_two_pow (by omega)
    have : 2 * a < 2 ^ W := by omega
    simp [ht, this]

theorem fitsSigned_not (W : Nat) (v : Int) : (!fitsSigned W v) = overflows W v := by
  unfold fitsSigned overflows
  rw [decide_not]

theorem wrapInt_eq (W : Nat) (v : Int) : wrapInt W v = truncInt W v := rfl

theorem wrapInt_lt (W : Nat) (v : Int) : wrapInt W v < 2 ^ W := by
  unfold wrapInt
  have hp : (0 : Int) < 2 ^ W := by positivity
  have h1 := Int.emod_nonneg v hp.ne'
  have h2 := Int.emod_lt_of_pos v hp
  have : (((v % 2 ^ W).toNat : Nat) : Int) < ((2 ^ W : Nat) : Int) := by
    rw [Int.toNat_of_nonneg h1]
    push_cast
    exact h2
  exact_mod_cast this

theorem popcount_eq (W r : Nat) : popcount W r = onesOf W r := by
  unfold onesOf
  induction W generalizing r with
  | zero => rfl
  | succ W ih =>
    rw [List.range_succ_eq_map, List.filter_cons, popcount, ih]
    have hmap : ((List.map Nat.succ (List.range W)).filter fun i => r.testBit i).length
        = ((List.range W).filter fun i => (r / 2).testBit i).length := by
      rw [List.filter_map, List.length_map]
      congr 2
      funext i
      simp [Nat.testBit_succ]
    rw [Nat.testBit_zero]
    by_cases h : r % 2 = 1
    · simp [h, hmap]; omega
    · have h0 : r % 2 = 0 := by omega
      simp [h0, hmap]

/-! ## The state after a flag write -/

/-- ZF, SF and PF after the flag writes of `SetZSP` are those of R155. -/
theorem writeFlags_setZSP (s : State) (W r : Nat) : ZspFlags (s.writeFlags (setZSP W r)) W r where
  zf := by simp [setZSP, Bool.beq_eq_decide_eq]
  sf := by simp [setZSP]
  pf := by simp [setZSP, popcount_eq]; rfl

theorem writeFlags_setZSP_flag (s : State) (W r : Nat) (f : Flag) (h : f = .cf ∨ f = .of) :
    (s.writeFlags (setZSP W r)).flag f = s.flag f := by
  rcases h with rfl | rfl <;> simp [setZSP]

theorem Flag.flag_congr {s t : State} (h : t.slots = s.slots) (f : Flag) : t.flag f = s.flag f := by
  unfold State.flag
  rw [State.get_congr h]

/-- Flags as a list of all five: CF and OF in either order of writing, then `SetZSP`. -/
theorem writeFlags_alu (s : State) (W r : Nat) (cf of : Bool) :
    AluFlags (s.writeFlags ([(.cf, cf), (.of, of)] ++ setZSP W r)) W r cf of where
  cf := by simp [setZSP]
  of := by simp [setZSP]
  zsp := writeFlags_setZSP _ W r

/-! ## Commit -/

/-- A value stays held while registers other than RFLAGS, RFLAGS bits outside `fs`, and memory are kept. -/
theorem Holds.mono {pre old u t : State} {dst : Operand} {v : Word} {fs : List Flag} (h : Holds pre old u dst v fs)
    (hr : ∀ r, r ≠ Reg.rflags → t.get r = u.get r)
    (hf : ∀ i, i < 64 → ¬ isFlagBit fs i → (t.get .rflags).getLsbD i = (u.get .rflags).getLsbD i)
    (hm : t.mem = u.mem) (hc : t.config = u.config) : Holds pre old t dst v fs := by
  cases dst with
  | imm w lit => exact h
  | mem w seg mode =>
    intro i hi
    have hs : t.memSize = u.memSize := by simp [State.memSize, hc]
    rw [hs, hm]
    exact h i hi
  | reg r =>
    intro i hi hn
    by_cases hrf : r.reg = .rflags
    · have := h i hi hn
      rw [hrf] at this ⊢
      rw [hf i hi (hn hrf)]
      exact this
    · rw [hr _ hrf]
      exact h i hi hn

theorem State.complete_slots {s : State} (h : s.pending = none) : s.complete.slots = s.slots := by
  unfold State.complete State.applyJump
  simp only [h]

theorem State.complete_mem' (s : State) : s.complete.mem = s.mem := by simp

/-- What a rule with one destination commits: the value, the flags, and nothing else (R145, R148, R149). -/
theorem commit_wrote (s : State) (dst : Operand) (v : Word) (fs : FlagWrites) (h : Operand.isImm dst = false) :
    Wrote s (((s.clearPending.writeOp dst v s.clearPending).writeFlags fs).complete) dst v (fs.map Prod.fst) := by
  set p := s.clearPending with hp
  set u := p.writeOp dst v p with hu
  set w := u.writeFlags fs with hw
  have hpend : w.pending = none := by simp [hw, hu, hp]
  have hslots := State.complete_slots hpend
  have hget : ∀ r, w.complete.get r = w.get r := fun r => State.get_congr hslots r
  have hps : ∀ r, p.get r = s.get r := fun r => rfl
  have hH : Holds p p u dst v (fs.map Prod.fst) := State.writeOp_holds p dst v p _ rfl h
  have hH' : Holds p p w.complete dst v (fs.map Prod.fst) := by
    refine hH.mono ?_ ?_ ?_ ?_
    · intro r hr; rw [hget, hw, State.writeFlags_get _ _ _ hr]
    · intro i hi hn; rw [hget, hw, State.writeFlags_bit _ _ _ hi hn]
    · simp [hw]
    · simp [hw]
  have hF : Frame p w (Operand.destRegs dst ++ []) (fs.map Prod.fst ++ fs.map Prod.fst) (p.destBytes dst ++ []) :=
    (State.writeOp_frame p dst v p _ rfl).trans (State.writeFlags_frame u fs)
  have hF' := hF.weaken (r' := Operand.destRegs dst) (f' := fs.map Prod.fst) (b' := p.destBytes dst)
    (by simp) (by simp) (by simp)
  refine ⟨?_, ?_, ?_⟩
  · cases dst with
    | reg r => exact hH'
    | mem a b c =>
      intro i hi
      have := hH' i hi
      rwa [hp, State.clearPending_memAddr] at this
    | imm a b => exact hH'
  · have hb : p.destBytes dst = s.destBytes dst := by simp [hp]
    rw [hb] at hF'
    refine ⟨?_, ?_, ?_, ?_, ?_, ?_⟩
    · intro r hr hn; rw [hget]; exact hF'.otherRegs r hr hn
    · intro hn i hi hi'; rw [hget]; exact hF'.otherBits hn i hi hi'
    · intro a ha; rw [State.complete_mem]; exact hF'.otherBytes a ha
    · simp [hw, hu, hp]
    · simp [hw, hu, hp]
    · simp [hw, hu, hp]
  · refine ⟨⟨?_, ?_⟩, ⟨?_, ?_⟩, ⟨?_, ?_⟩, ⟨?_, ?_⟩, ?_⟩ <;> simp [hw, hu, hp]

/-- The flags after the commit are those the flag writes leave. -/
theorem commit_flag (s : State) (dst : Operand) (v : Word) (fs : FlagWrites) (f : Flag) :
    (((s.clearPending.writeOp dst v s.clearPending).writeFlags fs).complete).flag f =
      ((s.clearPending.writeOp dst v s.clearPending).writeFlags fs).flag f :=
  Flag.flag_congr (State.complete_slots (by simp)) f

theorem ZspFlags.congr {t u : State} {W r : Nat} (h : ZspFlags u W r) (hf : ∀ f, t.flag f = u.flag f) :
    ZspFlags t W r := ⟨by rw [hf, h.zf], by rw [hf, h.sf], by rw [hf, h.pf]⟩

theorem AluFlags.congr {t u : State} {W r : Nat} {cf of : Bool} (h : AluFlags u W r cf of)
    (hf : ∀ f, t.flag f = u.flag f) : AluFlags t W r cf of :=
  ⟨by rw [hf, h.cf], by rw [hf, h.of], h.zsp.congr hf⟩

/-- The names of the flags an ALU result with all five flags writes. -/
theorem aluFlags_names (W r : Nat) (cf of : Bool) (f : Flag) :
    f ∈ (([(Flag.cf, cf), (Flag.of, of)] ++ setZSP W r).map Prod.fst) ↔ f ∈ allFlags := by
  simp [setZSP, allFlags]
  tauto

theorem isFlagBit_congr {fs gs : List Flag} (h : ∀ f, f ∈ fs ↔ f ∈ gs) (i : Nat) : isFlagBit fs i ↔ isFlagBit gs i := by
  unfold isFlagBit
  simp [h]

theorem Wrote.congr {s t : State} {dst : Operand} {v : Word} {fs gs : List Flag} (w : Wrote s t dst v fs)
    (h : ∀ f, f ∈ fs ↔ f ∈ gs) : Wrote s t dst v gs := by
  refine ⟨?_, w.frame.weaken (fun _ h => h) (fun f hf => (h f).1 hf) (fun _ h => h), w.quiet⟩
  have := w.value
  cases dst with
  | imm a b => exact this
  | mem a b c => exact this
  | reg r =>
    intro i hi hn
    exact this i hi fun e => fun hb => hn e ((isFlagBit_congr h i).1 hb)

/-! ## ALU rules -/

/-- A two-operand ALU rule whose operation gives all five flags: the destination holds the result, the flags are as the
operation says, and nothing else changed. -/
theorem aluRule2_ok (s : State) (dst src : Operand) (hd : s.writable dst = true) (hs : s.readable src = true)
    (op : Nat → Nat → Nat → Bool → Except ExecError AluOut) (r : Nat) (cf of : Bool)
    (h : op dst.width.bits (s.readOp dst).toNat (truncNat dst.width.bits (s.readOp src)) (s.flag .cf) =
      .ok { result := r, flags := [(.cf, cf), (.of, of)] ++ setZSP dst.width.bits r }) :
    ∃ t, aluRule2 op dst src s = .next t ∧ Wrote s t dst (BitVec.ofNat 64 r) allFlags ∧
      AluFlags t dst.width.bits r cf of := by
  have hi : Operand.isImm dst = false := by
    simp only [State.writable, Bool.and_eq_true, Bool.not_eq_true'] at hd
    exact hd.1
  have hc : s.check [(.rw, dst), (.r, src)] [] = none := by
    rw [State.check_eq_none]
    refine ⟨?_, by simp⟩
    intro o ho
    simp only [List.mem_cons, List.not_mem_nil, or_false] at ho
    rcases ho with rfl | rfl
    · exact s.checks_of_writable _ _ rfl hd
    · exact s.checks_of_readable _ _ (by simp) rfl hs
  refine ⟨(s.clearPending.commit dst
    { result := r, flags := [(.cf, cf), (.of, of)] ++ setZSP dst.width.bits r }).complete, runRule_ok hc ?_, ?_, ?_⟩
  · simp only [State.clearPending_readOp, State.clearPending_flag, h]
    rfl
  · exact (commit_wrote s dst _ _ hi).congr (aluFlags_names _ _ _ _)
  · exact (writeFlags_alu _ dst.width.bits r cf of).congr fun f => commit_flag s dst _ _ f

/-- A one-operand ALU rule, as `aluRule2_ok`. -/
theorem aluRule1_ok (s : State) (dst : Operand) (hd : s.writable dst = true) (op : Nat → Nat → AluOut) (o : AluOut)
    (h : op dst.width.bits (s.readOp dst).toNat = o) :
    ∃ t, aluRule1 op dst s = .next t ∧ Wrote s t dst (BitVec.ofNat 64 o.result) (o.flags.map Prod.fst) ∧
      ∀ f, t.flag f = ((s.clearPending.writeOp dst (BitVec.ofNat 64 o.result) s.clearPending).writeFlags o.flags).flag f := by
  have hi : Operand.isImm dst = false := by
    simp only [State.writable, Bool.and_eq_true, Bool.not_eq_true'] at hd
    exact hd.1
  have hc : s.check [(.rw, dst)] [] = none := by
    rw [State.check_eq_none]
    refine ⟨?_, by simp⟩
    intro p hp
    simp only [List.mem_cons, List.not_mem_nil, or_false] at hp
    subst hp
    exact s.checks_of_writable _ _ rfl hd
  refine ⟨(s.clearPending.commit dst o).complete, runRule_ok hc ?_, commit_wrote s dst _ _ hi, ?_⟩
  · simp only [State.clearPending_readOp, h]
  · exact fun f => commit_flag s dst _ _ f

/-- A shift or rotate with a count that is not 0 (R230). -/
theorem shiftRule_ok (s : State) (dst count : Operand) (hd : s.writable dst = true) (hs : s.readable count = true)
    (op : Nat → Nat → Bool → Nat → AluOut) (r : Nat) (cf : Bool) (hz : (s.readOp count).toNat ≠ 0)
    (h : op dst.width.bits (s.readOp dst).toNat (s.flag .cf) (s.readOp count).toNat =
      { result := r, flags := [(.cf, cf), (.of, false)] ++ setZSP dst.width.bits r }) :
    ∃ t, shiftRule op dst count s = .next t ∧ Wrote s t dst (BitVec.ofNat 64 r) allFlags ∧
      AluFlags t dst.width.bits r cf false := by
  have hi : Operand.isImm dst = false := by
    simp only [State.writable, Bool.and_eq_true, Bool.not_eq_true'] at hd
    exact hd.1
  have hc : s.check [(.rw, dst), (.r, count)] [] = none := by
    rw [State.check_eq_none]
    refine ⟨?_, by simp⟩
    intro o ho
    simp only [List.mem_cons, List.not_mem_nil, or_false] at ho
    rcases ho with rfl | rfl
    · exact s.checks_of_writable _ _ rfl hd
    · exact s.checks_of_readable _ _ (by simp) rfl hs
  refine ⟨(s.clearPending.commit dst
    { result := r, flags := [(.cf, cf), (.of, false)] ++ setZSP dst.width.bits r }).complete, runRule_ok hc ?_, ?_, ?_⟩
  · simp only [State.clearPending_readOp, State.clearPending_flag, h, hz, if_false]
  · exact (commit_wrote s dst _ _ hi).congr (aluFlags_names _ _ _ _)
  · exact (writeFlags_alu _ dst.width.bits r cf false).congr fun f => commit_flag s dst _ _ f

/-! ## The operations in the spec's words -/

theorem Bool.toNat_cast (b : Bool) : ((b.toNat : Nat) : Int) = if b then 1 else 0 := by cases b <;> rfl

/-- `AddCore` (R156) in signed and unsigned mathematics. -/
theorem addCore_eq (W a b : Nat) (c : Bool) (hW : 0 < W) (ha : a < 2 ^ W) (hb : b < 2 ^ W) :
    addCore W a b c =
      { result := (a + b + c.toNat) % 2 ^ W
        flags := [(.cf, decide (2 ^ W ≤ a + b + c.toNat)),
                  (.of, overflows W (signedOf W a + signedOf W b + c.toNat))] ++
                setZSP W ((a + b + c.toNat) % 2 ^ W) } := by
  unfold addCore
  rw [← signed_eq W a hW ha, ← signed_eq W b hW hb, ← fitsSigned_not]

/-- `SubCore` (R157) in signed and unsigned mathematics. -/
theorem subCore_eq (W a b : Nat) (c : Bool) (hW : 0 < W) (ha : a < 2 ^ W) (hb : b < 2 ^ W) :
    subCore W a b c =
      { result := truncInt W ((a : Int) - b - c.toNat)
        flags := [(.cf, decide (a < b + c.toNat)),
                  (.of, overflows W (signedOf W a - signedOf W b - c.toNat))] ++
                setZSP W (truncInt W ((a : Int) - b - c.toNat)) } := by
  unfold subCore
  rw [← signed_eq W a hW ha, ← signed_eq W b hW hb, ← fitsSigned_not, wrapInt_eq]

/-- SHL with the unbounded count of R231. -/
theorem shlOp_result (W a c : Nat) : (if c < W then a * 2 ^ c % 2 ^ W else 0) = a * 2 ^ c % 2 ^ W := by
  split
  · rfl
  · next h =>
    have hd : 2 ^ W ∣ 2 ^ c := Nat.pow_dvd_pow 2 (by omega)
    exact (Nat.mod_eq_zero_of_dvd (Dvd.dvd.mul_left hd a)).symm

/-- SHR with the unbounded count of R232. -/
theorem shrOp_result (W a c : Nat) (ha : a < 2 ^ W) : (if c < W then a / 2 ^ c else 0) = a / 2 ^ c := by
  split
  · rfl
  · next h =>
    have : 2 ^ W ≤ 2 ^ c := Nat.pow_le_pow_right (by decide) (by omega)
    exact (Nat.div_eq_of_lt (by omega)).symm

/-- SAR with the unbounded count of R234. -/
theorem sarOp_result (W : Nat) (v : Int) (c : Nat) (h1 : -2 ^ W ≤ v) (h2 : v < 2 ^ W) :
    v / 2 ^ min c W = v / 2 ^ c := by
  by_cases h : c ≤ W
  · rw [min_eq_left h]
  · rw [min_eq_right (by omega)]
    have hp : (0 : Int) < 2 ^ W := by positivity
    have hle : (2 : Int) ^ W ≤ 2 ^ c := pow_le_pow_right₀ (by norm_num) (by omega)
    by_cases hv : 0 ≤ v
    · rw [Int.ediv_eq_zero_of_lt hv h2, Int.ediv_eq_zero_of_lt hv (by omega)]
    · have e : ∀ n : Int, 0 < n → -n ≤ v → v / n = -1 := by
        intro n hn hnv
        rw [Int.ediv_eq_iff_of_pos hn]
        constructor <;> omega
      rw [e _ hp h1, e _ (by omega) (by omega)]

theorem signedOf_bounds (W a : Nat) : -2 ^ (W - 1) ≤ signedOf W a ∧ signedOf W a < 2 ^ (W - 1) := by
  unfold signedOf
  have h1 := BitVec.le_toInt (BitVec.ofNat W a)
  have h2 := BitVec.toInt_lt (x := BitVec.ofNat W a)
  exact ⟨by exact_mod_cast h1, by exact_mod_cast h2⟩

end Sys2Proof.Machine
end

