-- ==== Sys2Proof/Laws/Decode.lean ====
section
/-! SUPPORT. The decoder over a source that holds given bytes (so that it reads back what the encoder wrote), and what it
read when it succeeds on a list of bytes. -/

namespace Sys2Proof

/-! ## Sources -/

/-- The source holds the bytes `bs` from cursor position `k` on. -/
def Fetch.HasAt (rd : Fetch) (k : Nat) (bs : List Byte) : Prop :=
  ∀ (j : Nat) (w : Width), j + w.bytes ≤ bs.length →
    rd (k + j) w = .ok (BitVec.ofNat 64 (leNat ((bs.drop j).take w.bytes)))

theorem Fetch.HasAt.left {rd : Fetch} {k : Nat} {a b : List Byte} (h : Fetch.HasAt rd k (a ++ b)) :
    Fetch.HasAt rd k a := by
  intro j w hj
  rw [h j w (by simp; omega), List.drop_append_of_le_length (by omega), List.take_append_of_le_length (by simp; omega)]

theorem Fetch.HasAt.right {rd : Fetch} {k : Nat} {a b : List Byte} (h : Fetch.HasAt rd k (a ++ b)) :
    Fetch.HasAt rd (k + a.length) b := by
  intro j w hj
  have := h (a.length + j) w (by simp; omega)
  rw [← Nat.add_assoc] at this
  rw [this, ← List.drop_drop, List.drop_left]

/-- A one-byte field. -/
theorem Fetch.HasAt.byte {rd : Fetch} {k : Nat} {b : Byte} {bs : List Byte} (h : Fetch.HasAt rd k (b :: bs)) :
    rd k .byte = .ok (b.setWidth 64) := by
  have := h 0 .byte (by simp [Width.bytes])
  rw [Nat.add_zero] at this
  rw [this]
  congr 1
  apply BitVec.eq_of_toNat_eq
  have := b.isLt
  simp [leNat, Width.bytes]

theorem Fetch.HasAt.tail {rd : Fetch} {k : Nat} {b : Byte} {bs : List Byte} (h : Fetch.HasAt rd k (b :: bs)) :
    Fetch.HasAt rd (k + 1) bs := Fetch.HasAt.right (a := [b]) h

/-- A little-endian field. -/
theorem Fetch.HasAt.field {rd : Fetch} {k v : Nat} (w : Width) (h : Fetch.HasAt rd k (leBytes w.bytes v)) :
    rd k w = .ok (BitVec.ofNat 64 (v % 256 ^ w.bytes)) := by
  have := h 0 w (by simp)
  rw [Nat.add_zero] at this
  rw [this]
  congr 2
  rw [List.drop_zero, List.take_of_length_le (by simp), leNat_leBytes]

theorem Fetch.HasAt.qword {rd : Fetch} {k : Nat} {d : Word} (h : Fetch.HasAt rd k (leBytes 8 d.toNat)) :
    rd k .qword = .ok d := by
  rw [Fetch.HasAt.field .qword h]
  congr 1
  apply BitVec.eq_of_toNat_eq
  have := d.isLt
  simp only [Width.bytes, BitVec.toNat_ofNat]
  omega

/-- The bytes a list holds before anything that follows them. -/
theorem listFetch_hasAt (pre bs rest : List Byte) : Fetch.HasAt (listFetch (pre ++ bs ++ rest)) pre.length bs := by
  intro j w hj
  have hl : pre.length + j + w.bytes ≤ (pre ++ bs ++ rest).length := by simp; omega
  simp only [listFetch, hl, if_true]
  congr 3
  rw [List.append_assoc, ← List.drop_drop, List.drop_left, List.drop_append_of_le_length (by omega),
    List.take_append_of_le_length (by simp; omega)]

/-! ## Reading back what the encoder wrote -/

theorem decodeRegRef_encode (r : RegRef) : decodeRegRef (r.encode.setWidth 64).toNat = .ok r := by
  obtain ⟨r, g⟩ := r
  cases r <;> cases g <;> rfl

theorem fetchRegRef_hasAt {rd : Fetch} {k : Nat} {r : RegRef} {bs : List Byte}
    (h : Fetch.HasAt rd k (r.encode :: bs)) : fetchRegRef rd k = .ok r := by
  simp only [fetchRegRef, h.byte]
  exact decodeRegRef_encode r

theorem fetchScale_hasAt {rd : Fetch} {k : Nat} {c : BitVec 16} (h : Fetch.HasAt rd k (leBytes 2 c.toNat)) :
    fetchScale rd k = .ok c := by
  simp only [fetchScale, Fetch.HasAt.field .word h]
  refine congrArg Except.ok ?_
  apply BitVec.eq_of_toNat_eq
  have := c.isLt
  simp only [Width.bytes, BitVec.toNat_setWidth, BitVec.toNat_ofNat]
  omega

theorem AddrMode.encode_length (w : Width) (seg : SegSel) (m : AddrMode) :
    m.encode.length + 2 = (Operand.mem w seg m).encodedLength := by
  cases m <;> simp [AddrMode.encode, Operand.encodedLength]

/-- The fields of a mode read back (R106, R107). -/
theorem decodeMode_hasAt {rd : Fetch} {k : Nat} (m : AddrMode) (h : Fetch.HasAt rd k m.encode) :
    decodeMode rd m.id k = .ok (m, k + m.encode.length) := by
  cases m with
  | direct d => simp only [decodeMode, AddrMode.id, AddrMode.encode] at *; simp [h.qword]
  | indirect b =>
    simp only [decodeMode, AddrMode.id, AddrMode.encode] at *
    simp [fetchRegRef_hasAt h]
  | disp d b =>
    simp only [decodeMode, AddrMode.id, AddrMode.encode] at *
    have h2 := h.right
    simp only [leBytes_length] at h2
    simp [h.left.qword, fetchRegRef_hasAt h2]; rfl
  | indexed b i =>
    simp only [decodeMode, AddrMode.id, AddrMode.encode] at *
    simp [fetchRegRef_hasAt h, fetchRegRef_hasAt h.tail]; rfl
  | indexedDisp d b i =>
    simp only [decodeMode, AddrMode.id, AddrMode.encode] at *
    have h2 := h.right
    simp only [leBytes_length] at h2
    have h3 := h2.tail
    simp [h.left.qword, fetchRegRef_hasAt h2, fetchRegRef_hasAt h3]; rfl
  | scaled c i =>
    simp only [decodeMode, AddrMode.id, AddrMode.encode] at *
    have h2 := h.right
    simp only [leBytes_length] at h2
    simp [fetchScale_hasAt h.left, fetchRegRef_hasAt h2]; rfl
  | scaledDisp d c i =>
    simp only [decodeMode, AddrMode.id, AddrMode.encode] at *
    have h1 := h.left.right
    have h2 := h.right
    simp only [leBytes_length, List.length_append] at h1 h2
    simp [h.left.left.qword, fetchScale_hasAt h1, fetchRegRef_hasAt h2]; rfl
  | baseScaled c b i =>
    simp only [decodeMode, AddrMode.id, AddrMode.encode] at *
    have h2 := h.right
    simp only [leBytes_length] at h2
    have h3 := h2.tail
    simp [fetchScale_hasAt h.left, fetchRegRef_hasAt h2, fetchRegRef_hasAt h3]; rfl
  | baseScaledDisp d c b i =>
    simp only [decodeMode, AddrMode.id, AddrMode.encode] at *
    have h1 := h.left.right
    have h2 := h.right
    simp only [leBytes_length, List.length_append] at h1 h2
    have h3 := h2.tail
    simp [h.left.left.qword, fetchScale_hasAt h1, fetchRegRef_hasAt h2, fetchRegRef_hasAt h3]; rfl

theorem encodeTag_kind (n : Nat) (w : Width) (h : n < 4) : (((encodeTag n w).setWidth 64).toNat) / 64 = n := by
  interval_cases n <;> cases w <;> rfl

theorem encodeTag_width (n : Nat) (w : Width) (h : n < 4) :
    Width.ofCode ((((encodeTag n w).setWidth 64).toNat) % 4) = w := by
  interval_cases n <;> cases w <;> rfl

theorem payload_id_aux (n : Nat) (seg : SegSel) (h : n < 9) :
    (((BitVec.ofNat 8 (8 * n + seg.id)).setWidth 64).toNat) / 8 = n ∧
      SegSel.ofId ((((BitVec.ofNat 8 (8 * n + seg.id)).setWidth 64).toNat) % 8) = some seg ∧
      modeIdValid n = true := by
  interval_cases n <;> cases seg <;> exact ⟨rfl, rfl, rfl⟩

theorem payload_id (m : AddrMode) (seg : SegSel) :
    (((BitVec.ofNat 8 (8 * m.id + seg.id)).setWidth 64).toNat) / 8 = m.id ∧
      SegSel.ofId ((((BitVec.ofNat 8 (8 * m.id + seg.id)).setWidth 64).toNat) % 8) = some seg ∧
      modeIdValid m.id = true :=
  payload_id_aux m.id seg (by cases m <;> simp [AddrMode.id])

@[simp] theorem Operand.encode_length (op : Operand) : op.encode.length = op.encodedLength := by
  cases op with
  | reg r => rfl
  | imm w lit => simp [Operand.encode, Operand.encodedLength]; omega
  | mem w seg m => rw [← AddrMode.encode_length w seg m]; simp [Operand.encode]

/-- An operand reads back (R121). -/
theorem decodeOperand_hasAt {rd : Fetch} {k : Nat} (op : Operand) (hw : op.wellFormed = true)
    (h : Fetch.HasAt rd k op.encode) : decodeOperand rd k = .ok (op, k + op.encodedLength) := by
  cases op with
  | reg r =>
    simp only [Operand.encode] at h
    have hk := encodeTag_kind 0 r.region.width (by decide)
    have hwd := encodeTag_width 0 r.region.width (by decide)
    simp only [decodeOperand, h.byte, bind, Except.bind, hk, hwd, fetchRegRef_hasAt h.tail]
    simp [Operand.encodedLength]; rfl
  | imm w lit =>
    simp only [Operand.encode] at h
    have hk := encodeTag_kind 2 w (by decide)
    have hwd := encodeTag_width 2 w (by decide)
    simp only [decodeOperand, h.byte, bind, Except.bind, hk, hwd, Fetch.HasAt.field w h.tail]
    have hw : lit.toNat < 2 ^ (8 * w.bytes) := of_decide_eq_true hw
    have hp : 256 ^ w.bytes = 2 ^ (8 * w.bytes) := by
      rw [show (256 : Nat) = 2 ^ 8 by norm_num, ← pow_mul]
    have hlit : BitVec.ofNat 64 (lit.toNat % 256 ^ w.bytes) = lit := by
      rw [hp, Nat.mod_eq_of_lt hw, BitVec.ofNat_toNat, BitVec.setWidth_eq]
    rw [hlit]
    simp [Operand.encodedLength, Nat.add_assoc]; rfl
  | mem w seg m =>
    simp only [Operand.encode] at h
    have hk := encodeTag_kind 1 w (by decide)
    have hwd := encodeTag_width 1 w (by decide)
    obtain ⟨h1, h2, h3⟩ := payload_id m seg
    simp only [decodeOperand, h.byte, bind, Except.bind, hk, hwd, decodeMem, h.tail.byte, h1, h2, h3, if_true,
      decodeMode_hasAt m h.tail.tail]
    rw [← AddrMode.encode_length w seg m, show k + 1 + 1 + m.encode.length = k + (m.encode.length + 2) by omega]
    rfl

theorem decode1_hasAt {rd : Fetch} (mk : Operand → Instr) (a : Operand) (ha : a.wellFormed = true)
    (h : Fetch.HasAt rd 1 a.encode) : decode1 rd mk = .ok (mk a, 1 + a.encodedLength) := by
  simp only [decode1, decodeOperand_hasAt a ha h]; rfl

theorem decode2_hasAt {rd : Fetch} (mk : Operand → Operand → Instr) (a b : Operand) (ha : a.wellFormed = true)
    (hb : b.wellFormed = true) (h : Fetch.HasAt rd 1 (a.encode ++ b.encode)) :
    decode2 rd mk = .ok (mk a b, 1 + a.encodedLength + b.encodedLength) := by
  have h2 := h.right
  rw [Operand.encode_length] at h2
  simp only [decode2, decodeOperand_hasAt a ha h.left, bind, Except.bind, decodeOperand_hasAt b hb h2]; rfl

theorem decode3_hasAt {rd : Fetch} (mk : Operand → Operand → Operand → Instr) (a b c : Operand)
    (ha : a.wellFormed = true) (hb : b.wellFormed = true) (hc : c.wellFormed = true)
    (h : Fetch.HasAt rd 1 (a.encode ++ (b.encode ++ c.encode))) :
    decode3 rd mk = .ok (mk a b c, 1 + a.encodedLength + b.encodedLength + c.encodedLength) := by
  have h2 := h.right
  rw [Operand.encode_length] at h2
  have h3 := h2.right
  rw [Operand.encode_length] at h3
  simp only [decode3, decodeOperand_hasAt a ha h.left, bind, Except.bind, decodeOperand_hasAt b hb h2.left,
    decodeOperand_hasAt c hc h3]; rfl

/-- The body of an instruction reads back under its own opcode. -/
theorem decodeBody_hasAt {rd : Fetch} (i : Instr) (hw : i.wellFormed = true)
    (h : Fetch.HasAt rd 1 (i.operands.flatMap Operand.encode)) :
    decodeBody rd i.opcode.toNat = .ok (i, i.encodedLength) := by
  cases i
  case nop | pushf | popf | pusha | popa => rfl
  case inp a b c | out a b c =>
    simp only [Instr.wellFormed, Instr.operands, List.all_cons, List.all_nil, Bool.and_true, Bool.and_eq_true] at hw
    simp only [Instr.operands, List.flatMap_cons, List.flatMap_nil, List.append_nil] at h
    have hd := fun mk => decode3_hasAt mk a b c hw.1 hw.2.1 hw.2.2 h
    have hl : 1 + a.encodedLength + b.encodedLength + c.encodedLength =
        1 + (a.encodedLength + (b.encodedLength + c.encodedLength)) := by omega
    simp only [Instr.encodedLength, Instr.operands, List.map_cons, List.map_nil, List.sum_cons, List.sum_nil,
      Nat.add_zero, ← hl]
    exact hd _
  case mov a b | xchg a b | lea a b | add a b | adc a b | sub a b | sbb a b | mul a b | imul a b | div a b | idiv a b
      | mod a b | imod a b | and a b | or a b | xor a b | shl a b | shr a b | sal a b | sar a b | rol a b | ror a b
      | rcl a b | rcr a b | cmp a b | test a b =>
    simp only [Instr.wellFormed, Instr.operands, List.all_cons, List.all_nil, Bool.and_true, Bool.and_eq_true] at hw
    simp only [Instr.operands, List.flatMap_cons, List.flatMap_nil, List.append_nil] at h
    have hd := fun mk => decode2_hasAt mk a b hw.1 hw.2 h
    simp only [Instr.encodedLength, Instr.operands, List.map_cons, List.map_nil, List.sum_cons, List.sum_nil,
      Nat.add_zero, ← Nat.add_assoc]
    exact hd _
  all_goals
    rename_i a
    simp only [Instr.wellFormed, Instr.operands, List.all_cons, List.all_nil, Bool.and_true] at hw
    simp only [Instr.operands, List.flatMap_cons, List.flatMap_nil, List.append_nil] at h
    have hd := fun mk => decode1_hasAt mk a hw h
    simp only [Instr.encodedLength, Instr.operands, List.map_cons, List.map_nil, List.sum_cons, List.sum_nil,
      Nat.add_zero]
    exact hd _

/-- Over any source that holds its encoding, an instruction reads back. -/
theorem decode_hasAt {rd : Fetch} (i : Instr) (hw : i.wellFormed = true) (h : Fetch.HasAt rd 0 (encode i)) :
    decode rd = .ok (i, i.encodedLength) := by
  unfold encode at h
  have hb : (i.opcode.setWidth 64).toNat = i.opcode.toNat := by
    have := i.opcode.isLt
    simp only [BitVec.toNat_setWidth]; omega
  simp only [decode, h.byte, bind, Except.bind, hb]
  exact decodeBody_hasAt i hw h.tail

theorem encode_length (i : Instr) : (encode i).length = i.encodedLength := by
  simp only [encode, Instr.encodedLength, List.length_cons, List.length_flatMap, Operand.encode_length]
  rw [Nat.add_comm]

/-! ## What was read -/

/-- A field read from a list of bytes: it lies inside, and its bytes are those of the value. -/
theorem listFetch_ok {bs : List Byte} {k : Nat} {w : Width} {v : Word} (h : listFetch bs k w = .ok v) :
    k + w.bytes ≤ bs.length ∧ leBytes w.bytes v.toNat = (bs.drop k).take w.bytes := by
  unfold listFetch at h
  split at h
  · next hk =>
    refine ⟨hk, ?_⟩
    cases h
    have hl : ((bs.drop k).take w.bytes).length = w.bytes := by simp; omega
    have hlt := leNat_lt ((bs.drop k).take w.bytes)
    rw [hl] at hlt
    have h64 : 256 ^ w.bytes ≤ 2 ^ 64 := by cases w <;> decide
    rw [BitVec.toNat_ofNat, Nat.mod_eq_of_lt (by omega)]
    have := leBytes_leNat ((bs.drop k).take w.bytes)
    rwa [hl] at this
  · cases h

/-- A byte read from a list. -/
theorem listFetch_byte {bs : List Byte} {k : Nat} {v : Word} (h : listFetch bs k .byte = .ok v) :
    k + 1 ≤ bs.length ∧ [BitVec.ofNat 8 v.toNat] = (bs.drop k).take 1 ∧ v.toNat < 256 := by
  have h1 := (listFetch_ok h).1
  refine ⟨h1, (listFetch_ok h).2, ?_⟩
  rw [listFetch, if_pos h1] at h
  cases h
  have hl : ((bs.drop k).take Width.byte.bytes).length = 1 := by
    simp only [Width.bytes] at h1 ⊢
    simp; omega
  have hlt := leNat_lt ((bs.drop k).take Width.byte.bytes)
  rw [hl] at hlt
  rw [BitVec.toNat_ofNat]
  omega

theorem take_drop_add (bs : List Byte) (k m n : Nat) :
    (bs.drop k).take (m + n) = (bs.drop k).take m ++ (bs.drop (k + m)).take n := by
  rw [List.take_add, List.drop_drop]

theorem decodeRegRef_ok {b : Nat} {r : RegRef} (hb : b < 256) (h : decodeRegRef b = .ok r) :
    r.encode = BitVec.ofNat 8 b := by
  have key : ∀ b : Fin 256, ∀ r, decodeRegRef b.val = .ok r → r.encode = BitVec.ofNat 8 b.val := by
    intro b
    fin_cases b <;> intro r h <;> first | (cases h; rfl) | cases h
  exact key ⟨b, hb⟩ r h

theorem fetchRegRef_ok {bs : List Byte} {k : Nat} {r : RegRef} (h : fetchRegRef (listFetch bs) k = .ok r) :
    k + 1 ≤ bs.length ∧ [r.encode] = (bs.drop k).take 1 := by
  unfold fetchRegRef at h
  cases hb : listFetch bs k .byte with
  | error e => rw [hb] at h; cases h
  | ok v =>
    rw [hb] at h
    obtain ⟨h1, h2, h3⟩ := listFetch_byte hb
    refine ⟨h1, ?_⟩
    rw [decodeRegRef_ok h3 h, h2]

theorem fetchScale_ok {bs : List Byte} {k : Nat} {c : BitVec 16} (h : fetchScale (listFetch bs) k = .ok c) :
    k + 2 ≤ bs.length ∧ leBytes 2 c.toNat = (bs.drop k).take 2 := by
  unfold fetchScale at h
  cases hb : listFetch bs k .word with
  | error e => rw [hb] at h; cases h
  | ok v =>
    rw [hb] at h
    obtain ⟨h1, h2⟩ := listFetch_ok hb
    refine ⟨h1, ?_⟩
    have hc : v.setWidth 16 = c := by cases h; rfl
    simp only [Width.bytes] at h2
    rw [← h2, ← hc, BitVec.toNat_setWidth]
    simp only [leBytes]
    congr 1
    · apply BitVec.eq_of_toNat_eq; simp only [BitVec.toNat_ofNat]; omega
    · congr 1
      apply BitVec.eq_of_toNat_eq; simp only [BitVec.toNat_ofNat]; omega

theorem decodeMode_ok {bs : List Byte} {n k k' : Nat} {m : AddrMode}
    (h : decodeMode (listFetch bs) n k = .ok (m, k')) :
    m.id = n ∧ k' = k + m.encode.length ∧ k' ≤ bs.length ∧ m.encode = (bs.drop k).take m.encode.length := by
  have bindok : ∀ {α β : Type} {x : Except DecodeError α} {f : α → Except DecodeError β} {b : β},
      x >>= f = .ok b → ∃ a, x = .ok a ∧ f a = .ok b := by
    intro α β x f b hx
    cases x with
    | error e => cases hx
    | ok a => exact ⟨a, rfl, hx⟩
  unfold decodeMode at h
  split at h
  · obtain ⟨d, hd, h⟩ := bindok h
    cases h
    obtain ⟨h1, h2⟩ := listFetch_ok hd
    exact ⟨rfl, by simp [AddrMode.encode], h1, by simpa [AddrMode.encode, Width.bytes] using h2⟩
  · obtain ⟨b, hb, h⟩ := bindok h
    cases h
    obtain ⟨h1, h2⟩ := fetchRegRef_ok hb
    exact ⟨rfl, by simp [AddrMode.encode], h1, by simpa [AddrMode.encode] using h2⟩
  · obtain ⟨d, hd, h⟩ := bindok h
    obtain ⟨b, hb, h⟩ := bindok h
    cases h
    obtain ⟨h1, h2⟩ := listFetch_ok hd
    obtain ⟨h3, h4⟩ := fetchRegRef_ok hb
    refine ⟨rfl, by simp [AddrMode.encode], h3, ?_⟩
    simp only [AddrMode.encode, List.length_append, leBytes_length, List.length_cons, List.length_nil]
    rw [take_drop_add, ← h4]; simp only [Width.bytes] at h2; rw [← h2]
  · obtain ⟨b, hb, h⟩ := bindok h
    obtain ⟨i, hi, h⟩ := bindok h
    cases h
    obtain ⟨h1, h2⟩ := fetchRegRef_ok hb
    obtain ⟨h3, h4⟩ := fetchRegRef_ok hi
    refine ⟨rfl, by simp [AddrMode.encode], h3, ?_⟩
    simp only [AddrMode.encode, List.length_cons, List.length_nil]
    rw [take_drop_add, ← h4, ← h2]; rfl
  · obtain ⟨d, hd, h⟩ := bindok h
    obtain ⟨b, hb, h⟩ := bindok h
    obtain ⟨i, hi, h⟩ := bindok h
    cases h
    obtain ⟨h1, h2⟩ := listFetch_ok hd
    obtain ⟨h3, h4⟩ := fetchRegRef_ok hb
    obtain ⟨h5, h6⟩ := fetchRegRef_ok hi
    refine ⟨rfl, by simp [AddrMode.encode], h5, ?_⟩
    simp only [AddrMode.encode, List.length_append, leBytes_length, List.length_cons, List.length_nil]
    simp only [Width.bytes] at h2
    rw [take_drop_add, take_drop_add _ _ 1 1, ← h2, ← h4, Nat.add_assoc, ← h6]; rfl
  · obtain ⟨c, hc, h⟩ := bindok h
    obtain ⟨i, hi, h⟩ := bindok h
    cases h
    obtain ⟨h1, h2⟩ := fetchScale_ok hc
    obtain ⟨h3, h4⟩ := fetchRegRef_ok hi
    refine ⟨rfl, by simp [AddrMode.encode], h3, ?_⟩
    simp only [AddrMode.encode, List.length_append, leBytes_length, List.length_cons, List.length_nil]
    rw [take_drop_add, ← h2, ← h4]
  · obtain ⟨d, hd, h⟩ := bindok h
    obtain ⟨c, hc, h⟩ := bindok h
    obtain ⟨i, hi, h⟩ := bindok h
    cases h
    obtain ⟨h1, h2⟩ := listFetch_ok hd
    obtain ⟨h3, h4⟩ := fetchScale_ok hc
    obtain ⟨h5, h6⟩ := fetchRegRef_ok hi
    refine ⟨rfl, by simp [AddrMode.encode], h5, ?_⟩
    simp only [AddrMode.encode, List.length_append, leBytes_length, List.length_cons, List.length_nil]
    simp only [Width.bytes] at h2
    rw [take_drop_add, take_drop_add, ← h2, ← h4, ← h6]
  · obtain ⟨c, hc, h⟩ := bindok h
    obtain ⟨b, hb, h⟩ := bindok h
    obtain ⟨i, hi, h⟩ := bindok h
    cases h
    obtain ⟨h1, h2⟩ := fetchScale_ok hc
    obtain ⟨h3, h4⟩ := fetchRegRef_ok hb
    obtain ⟨h5, h6⟩ := fetchRegRef_ok hi
    refine ⟨rfl, by simp [AddrMode.encode], h5, ?_⟩
    simp only [AddrMode.encode, List.length_append, leBytes_length, List.length_cons, List.length_nil]
    rw [take_drop_add, ← h2, take_drop_add _ _ 1 1, ← h4, Nat.add_assoc, ← h6]; rfl
  · obtain ⟨d, hd, h⟩ := bindok h
    obtain ⟨c, hc, h⟩ := bindok h
    obtain ⟨b, hb, h⟩ := bindok h
    obtain ⟨i, hi, h⟩ := bindok h
    cases h
    obtain ⟨h1, h2⟩ := listFetch_ok hd
    obtain ⟨h3, h4⟩ := fetchScale_ok hc
    obtain ⟨h5, h6⟩ := fetchRegRef_ok hb
    obtain ⟨h7, h8⟩ := fetchRegRef_ok hi
    refine ⟨rfl, by simp [AddrMode.encode], h7, ?_⟩
    simp only [AddrMode.encode, List.length_append, leBytes_length, List.length_cons, List.length_nil]
    simp only [Width.bytes] at h2
    rw [take_drop_add, take_drop_add, ← h2, ← h4, take_drop_add _ _ 1 1, ← h6, Nat.add_assoc, ← h8]; rfl
  · cases h

theorem bind_ok {α β : Type} {x : Except DecodeError α} {f : α → Except DecodeError β} {b : β}
    (h : x >>= f = .ok b) : ∃ a, x = .ok a ∧ f a = .ok b := by
  cases x with
  | error e => cases h
  | ok a => exact ⟨a, rfl, h⟩

theorem encodeTag_of_byte {v n : Nat} {w : Width} (hv : v < 256) (hn : v / 64 = n) (hw : Width.ofCode (v % 4) = w) :
    encodeTag n w = BitVec.ofNat 8 v &&& 0xC3#8 := by
  subst hn hw
  have key : ∀ v : Fin 256, encodeTag (v.val / 64) (Width.ofCode (v.val % 4)) = BitVec.ofNat 8 v.val &&& 0xC3#8 := by
    intro v; fin_cases v <;> rfl
  exact key ⟨v, hv⟩

theorem payload_of_byte {v n : Nat} {seg : SegSel} (hv : v < 256) (hn : v / 8 = n) (hs : SegSel.ofId (v % 8) = some seg) :
    BitVec.ofNat 8 (8 * n + seg.id) = BitVec.ofNat 8 v := by
  subst hn
  have key : ∀ v : Fin 256, ∀ seg, SegSel.ofId (v.val % 8) = some seg →
      BitVec.ofNat 8 (8 * (v.val / 8) + seg.id) = BitVec.ofNat 8 v.val := by
    intro v; fin_cases v <;> intro seg h <;> first | (cases h; rfl) | cases h
  exact key ⟨v, hv⟩ seg hs

/-- An operand that decodes from a list of bytes has an encoding: those bytes, with bits 5:2 of the tag cleared. -/
theorem decodeOperand_ok {bs : List Byte} {k k' : Nat} {op : Operand}
    (h : decodeOperand (listFetch bs) k = .ok (op, k')) :
    op.wellFormed = true ∧ k' = k + op.encodedLength ∧ k' ≤ bs.length ∧
      ∃ tag tl, (bs.drop k).take op.encodedLength = tag :: tl ∧ op.encode = (tag &&& 0xC3#8) :: tl := by
  unfold decodeOperand at h
  obtain ⟨t, ht, h⟩ := bind_ok h
  obtain ⟨t1, t2, t3⟩ := listFetch_byte ht
  have hcons : ∀ n tl, (bs.drop (k + 1)).take n = tl →
      (bs.drop k).take (1 + n) = BitVec.ofNat 8 t.toNat :: tl := by
    intro n tl e
    rw [take_drop_add, ← t2, e]; rfl
  dsimp only at h
  split at h
  · next hk =>
    obtain ⟨r, hr, h⟩ := bind_ok h
    obtain ⟨r1, r2⟩ := fetchRegRef_ok hr
    split at h
    · next hw =>
      cases h
      refine ⟨rfl, rfl, by omega, _, _, hcons 1 _ r2.symm, ?_⟩
      simp only [Operand.encode]
      rw [encodeTag_of_byte t3 hk hw.symm]
    · cases h
  · next hk =>
    unfold decodeMem at h
    obtain ⟨p, hp, h⟩ := bind_ok h
    obtain ⟨p1, p2, p3⟩ := listFetch_byte hp
    split at h
    · split at h
      · cases h
      · next seg hseg =>
        obtain ⟨⟨m, k2⟩, hm, h⟩ := bind_ok h
        obtain ⟨m1, m2, m3, m4⟩ := decodeMode_ok hm
        cases h
        have hl := AddrMode.encode_length (Width.ofCode (t.toNat % 4)) seg m
        refine ⟨rfl, by omega, by omega, BitVec.ofNat 8 t.toNat, BitVec.ofNat 8 p.toNat :: m.encode, ?_, ?_⟩
        · rw [← hl, show m.encode.length + 2 = 1 + (1 + m.encode.length) by omega]
          refine hcons _ _ ?_
          rw [take_drop_add, ← p2, ← m4]; rfl
        · simp only [Operand.encode]
          rw [encodeTag_of_byte t3 hk rfl, payload_of_byte p3 m1.symm hseg]
    · cases h
  · next hk =>
    obtain ⟨v, hv, h⟩ := bind_ok h
    obtain ⟨v1, v2⟩ := listFetch_ok hv
    cases h
    have hlt : v.toNat < 2 ^ (Width.ofCode (t.toNat % 4)).bits := by
      unfold listFetch at hv
      rw [if_pos v1] at hv
      cases hv
      have hl : ((bs.drop (k + 1)).take (Width.ofCode (t.toNat % 4)).bytes).length
          = (Width.ofCode (t.toNat % 4)).bytes := by simp; omega
      have := leNat_lt ((bs.drop (k + 1)).take (Width.ofCode (t.toNat % 4)).bytes)
      rw [hl, show (256 : Nat) = 2 ^ 8 by norm_num, ← pow_mul] at this
      exact lt_of_le_of_lt (by rw [BitVec.toNat_ofNat]; exact Nat.mod_le _ _) this
    refine ⟨decide_eq_true hlt, by simp only [Operand.encodedLength]; omega, v1, BitVec.ofNat 8 t.toNat,
      leBytes (Width.ofCode (t.toNat % 4)).bytes v.toNat, hcons _ _ v2.symm, ?_⟩
    simp only [Operand.encode]
    rw [encodeTag_of_byte t3 hk rfl]
  · cases h

theorem Operand.encodedLength_bounds (op : Operand) : 2 ≤ op.encodedLength ∧ op.encodedLength ≤ 14 := by
  cases op with
  | reg r => simp [Operand.encodedLength]
  | imm w lit => cases w <;> simp [Operand.encodedLength, Width.bytes]
  | mem w seg m => cases m <;> simp [Operand.encodedLength]

end Sys2Proof
end

