-- ==== Sys2Proof/Laws/Effect.lean ====
section
/-! SUPPORT. `Effect`: once and for all, what the operations that instruction rules are made of can do to a state. Rules
compose them; later proofs read off the part they need. -/

namespace Sys2Proof.Machine

/-- A register slot is below 2^16. -/
def State.wordReg (s : State) (r : Reg) : Prop := (s.get r).toNat < 2 ^ 16

/-- A segment register. -/
def Reg.isSegment : Reg → Bool
  | .cs | .ds | .ss | .es | .fs | .gs => true
  | _ => false

/-- From `p` to `t` only the registers in `regs`, the flags in `flags` and the bytes in `bytes` may differ; memory keeps its
form, the history its entries' form, segment registers stay words; diagnostics are only added, all informational. -/
structure Effect (p t : State) (regs : List Reg) (flags : List Flag) (bytes : List Nat) : Prop where
  frame     : Frame p t regs flags bytes
  wf        : Memory.wf p.mem = true → Memory.wf t.mem = true
  within    : Memory.within p.memSize p.mem = true → Memory.within p.memSize t.mem = true
  history   : p.history.all HistoryEntry.wf = true → t.history.all HistoryEntry.wf = true
  interrupt : SameInterrupt p t
  diags     : ∃ new, t.diags = p.diags ++ new ∧ ∀ d ∈ new, d.ip0 = p.ip0 ∧ d.opc = p.opc ∧ ∃ k, d.kind = .info k
  stepCount : t.stepCount = p.stepCount
  words     : ∀ r, Reg.isSegment r = true → p.wordReg r → t.wordReg r

theorem Effect.refl (s : State) (regs : List Reg) (fs : List Flag) (bytes : List Nat) : Effect s s regs fs bytes :=
  ⟨Frame.refl _ _ _ _, id, id, id, ⟨rfl, rfl⟩, ⟨[], by simp, by simp⟩, rfl, fun _ _ h => h⟩

theorem Effect.memSize {p t : State} {r : List Reg} {f : List Flag} {b : List Nat} (h : Effect p t r f b) :
    t.memSize = p.memSize := by simp [State.memSize, h.frame.config]

theorem Effect.trans {s t u : State} {r1 r2 : List Reg} {f1 f2 : List Flag} {b1 b2 : List Nat}
    (h1 : Effect s t r1 f1 b1) (h2 : Effect t u r2 f2 b2) : Effect s u (r1 ++ r2) (f1 ++ f2) (b1 ++ b2) where
  frame := h1.frame.trans h2.frame
  wf h := h2.wf (h1.wf h)
  within h := by rw [← h1.memSize]; exact h2.within (by rw [h1.memSize]; exact h1.within h)
  history h := h2.history (h1.history h)
  interrupt := ⟨h2.interrupt.interrupted.trans h1.interrupt.interrupted, h2.interrupt.intCode.trans h1.interrupt.intCode⟩
  diags := by
    obtain ⟨n1, e1, a1⟩ := h1.diags
    obtain ⟨n2, e2, a2⟩ := h2.diags
    refine ⟨n1 ++ n2, by rw [e2, e1, List.append_assoc], ?_⟩
    intro d hd
    rcases List.mem_append.1 hd with hd | hd
    · exact a1 d hd
    · have := a2 d hd
      rwa [h1.frame.ip0, h1.frame.opc] at this
  stepCount := h2.stepCount.trans h1.stepCount
  words r hr h := h2.words r hr (h1.words r hr h)

theorem Effect.weaken {s t : State} {r r' : List Reg} {f f' : List Flag} {b b' : List Nat} (h : Effect s t r f b)
    (hr : r ⊆ r') (hf : f ⊆ f') (hb : b ⊆ b') : Effect s t r' f' b' :=
  ⟨h.frame.weaken hr hf hb, h.wf, h.within, h.history, h.interrupt, h.diags, h.stepCount, h.words⟩

/-- An effect that leaves registers and memory alone. -/
theorem Effect.ofOutputs {p t : State} (regs : List Reg) (fs : List Flag) (bytes : List Nat) (hs : t.slots = p.slots)
    (hm : t.mem = p.mem) (hc : t.config = p.config) (hi : t.ip0 = p.ip0) (ho : t.opc = p.opc)
    (hh : p.history.all HistoryEntry.wf = true → t.history.all HistoryEntry.wf = true) (hn : SameInterrupt p t)
    (hd : ∃ new, t.diags = p.diags ++ new ∧ ∀ d ∈ new, d.ip0 = p.ip0 ∧ d.opc = p.opc ∧ ∃ k, d.kind = .info k)
    (hst : t.stepCount = p.stepCount) : Effect p t regs fs bytes where
  frame := ⟨fun r _ _ => State.get_congr hs r, fun _ i _ _ => by rw [State.get_congr hs], fun a _ => by rw [hm], hc, hi, ho⟩
  wf h := by rw [hm]; exact h
  within h := by rw [hm]; exact h
  history := hh
  interrupt := hn
  diags := hd
  stepCount := hst
  words r _ h := by unfold State.wordReg at *; rwa [State.get_congr hs]

/-! ## The operations -/

theorem State.set_effect (s : State) (r : Reg) (v : Word) (h : Reg.isSegment r = true → v.toNat < 2 ^ 16) :
    Effect s (s.set r v) [r] [] [] where
  frame := ⟨fun q _ hq => by simp at hq; simp [hq], fun hq i _ _ => by simp at hq; simp [hq], fun _ _ => rfl, rfl, rfl, rfl⟩
  wf h := h
  within h := h
  history h := h
  interrupt := ⟨rfl, rfl⟩
  diags := ⟨[], by simp, by simp⟩
  stepCount := rfl
  words q hq hw := by
    unfold State.wordReg at *
    rw [State.get_set]
    split
    · next e => subst e; exact h hq
    · exact hw

/-- A merge into the WORD region of a word leaves a word (R24, R41). -/
theorem Region.write_word (slot v : Word) (h : slot.toNat < 2 ^ 16) : (Region.write .word slot v).toNat < 2 ^ 16 := by
  have : (Region.write .word slot v).toNat = (Region.write .word slot v).toNat % 2 ^ 16 := by
    apply Nat.eq_of_testBit_eq
    intro i
    rw [Nat.testBit_mod_two_pow, BitVec.testBit_toNat]
    by_cases hi : i < 64
    · rw [Region.write_getLsbD _ _ _ i hi]
      simp only [Region.lo, Region.width, Width.bits, Width.bytes]
      by_cases h16 : i < 16
      · simp [h16]
      · have : slot.getLsbD i = false := by
          rw [← BitVec.testBit_toNat]
          exact Nat.testBit_lt_two_pow (lt_of_lt_of_le h (Nat.pow_le_pow_right (by decide) (by omega)))
        simp [h16, this]
    · rw [BitVec.getLsbD_of_ge _ _ (by omega)]; simp
  rw [this]
  exact Nat.mod_lt _ (by decide)

theorem State.writeOp_effect (pre : State) (op : Operand) (v : Word) (old : State) (hr : Operand.regionsAllowed op = true)
    (hc : old.config = pre.config) :
    Effect old (pre.writeOp op v old) (Operand.destRegs op) [] (pre.destBytes op) where
  frame := State.writeOp_frame pre op v old [] hc
  wf h := by
    cases op with
    | reg r => exact h
    | imm w l => exact h
    | mem w seg m => exact Memory.wf_writeBytes _ _ _ _ h
  within h := by
    cases op with
    | reg r => exact h
    | imm w l => exact h
    | mem w seg m =>
      exact Memory.within_writeBytes _ _ _ _ (by have := old.memSize_pos; omega) h
  history h := by rwa [State.writeOp_history]
  interrupt := ⟨by simp, by simp⟩
  diags := ⟨[], by simp, by simp⟩
  stepCount := by simp
  words q hq hw := by
    cases op with
    | imm w l => exact hw
    | mem w seg m => exact hw
    | reg r =>
      obtain ⟨r, g⟩ := r
      by_cases hqr : q = r
      · subst hqr
        have hg : g = .word := by
          simp only [Operand.regionsAllowed, RegRef.allowed] at hr
          cases q <;> simp [Reg.isSegment] at hq <;> cases g <;> simp [Reg.allows] at hr <;> rfl
        subst hg
        unfold State.wordReg at *
        simp only [State.writeOp, State.setRef, State.get_set_self]
        exact Region.write_word _ _ hw
      · unfold State.wordReg at *
        rw [State.writeOp_get _ _ _ _ _ (by simp [Operand.destRegs, hqr])]
        exact hw

theorem State.writeFlags_effect (s : State) (fs : FlagWrites) : Effect s (s.writeFlags fs) [] (fs.map Prod.fst) [] where
  frame := State.writeFlags_frame s fs
  wf h := by simpa using h
  within h := by simpa using h
  history h := by simpa using h
  interrupt := ⟨by simp, by simp⟩
  diags := ⟨[], by simp, by simp⟩
  stepCount := by simp
  words r hr h := by
    unfold State.wordReg at *
    rw [State.writeFlags_get _ _ _ (by intro e; subst e; simp [Reg.isSegment] at hr)]
    exact h

theorem State.jump_effect (s : State) (t : Word) : Effect s (s.jump t) [] [] [] :=
  Effect.ofOutputs _ _ _ rfl rfl rfl rfl rfl id ⟨rfl, rfl⟩ ⟨[], by simp, by simp⟩ rfl

theorem State.diag_effect (s : State) (k : InfoKind) : Effect s (s.diag (.info k)) [] [] [] :=
  Effect.ofOutputs _ _ _ rfl rfl rfl rfl rfl id ⟨rfl, rfl⟩
    ⟨[{ kind := .info k, ip0 := s.ip0, opc := s.opc }], rfl, by simp⟩ rfl

theorem State.deviceReadEvent_effect (s : State) (p a v : Word) : Effect s (s.deviceReadEvent p a v) [] [] [] :=
  Effect.ofOutputs _ _ _ rfl rfl rfl rfl rfl id ⟨rfl, rfl⟩ ⟨[], by simp, by simp⟩ rfl

theorem State.deviceWrite_effect (s : State) (p a v : Word) : Effect s (s.deviceWrite p a v) [] [] [] :=
  Effect.ofOutputs _ _ _ rfl rfl rfl rfl rfl id ⟨rfl, rfl⟩ ⟨[], by simp, by simp⟩ rfl

theorem State.dropBelow_effect (s : State) (sp : Word) : Effect s (s.dropBelow sp) [] [] [] := by
  refine Effect.ofOutputs _ _ _ ?_ (by simp) (by simp) (by simp) (by simp) ?_ ⟨by simp, by simp⟩
    ⟨[], by simp, by simp⟩ (by simp)
  · unfold State.dropBelow State.setHistory; split <;> rfl
  · intro h
    have : (s.dropBelow sp).history = s.history.filter (fun e => decide (sp.toNat ≤ e.address.toNat)) := by
      unfold State.dropBelow State.setHistory
      split
      · next e => exact e.symm
      · rfl
    rw [this, List.all_eq_true]
    intro e he
    exact List.all_eq_true.1 h e (List.mem_filter.1 he).1

theorem State.checkPop_effect (s : State) (p : Word) : Effect s (s.checkPop p) [] [] [] := by
  unfold State.checkPop
  split
  · split
    · exact Effect.refl _ _ _ _
    · exact s.diag_effect _
  · exact s.diag_effect _

theorem State.popMove_effect (s : State) (n : Nat) : Effect s (s.popMove n) [.rsp] [] [] := by
  unfold State.popMove
  have h1 := s.set_effect .rsp (s.get .rsp + BitVec.ofNat 64 n) (by simp [Reg.isSegment])
  exact ((h1.trans (State.checkPop_effect _ (s.get .rsp))).trans (State.dropBelow_effect _ _)).weaken
    (by simp) (by simp) (by simp)

theorem State.push_effect (s : State) (n : Nat) (v : Word) (hn : n ∈ [1, 2, 4, 8]) (hv : v.toNat < 256 ^ n) :
    Effect s (s.push n v) [.rsp] [] (s.slotBytes (s.get .rsp - BitVec.ofNat 64 n) n) where
  frame := by
    refine ⟨fun r _ hr => ?_, fun _ i _ _ => by simp, fun a ha => ?_, by simp, by simp, by simp⟩
    · simp at hr; simp [hr]
    · rw [State.push_mem]
      apply Memory.get_writeBytes_of_notMem
      intro i hi e
      apply ha
      simp only [State.slotBytes, byteRange, List.mem_map, List.mem_range]
      exact ⟨i, by simpa using hi, e⟩
  wf h := by rw [State.push_mem]; exact Memory.wf_writeBytes _ _ _ _ h
  within h := by
    rw [State.push_mem]
    exact Memory.within_writeBytes _ _ _ _ (by have := s.memSize_pos; omega) h
  history h := by
    rw [State.push_history, List.all_append, h]
    simp only [List.all_cons, List.all_nil, HistoryEntry.wf, Bool.true_and, Bool.and_true, Bool.and_eq_true,
      decide_eq_true_eq]
    exact ⟨hn, hv⟩
  interrupt := ⟨by simp, by simp⟩
  diags := ⟨[], by simp, by simp⟩
  stepCount := by simp
  words r hr h := by
    have hne : r ≠ .rsp := by intro e; subst e; simp [Reg.isSegment] at hr
    unfold State.wordReg at *
    simpa [hne] using h

end Sys2Proof.Machine
end

