-- ==== Sys2Proof/Laws/Encoding.lean ====
section
/-! SUPPORT. The small lemmas of the terms of `Sys2Proof/Safety.lean` about encodings: where the tag bytes stand, what clearing
their unused bits does, and what the register byte check and the field check say of the decoder. -/

namespace Sys2Proof.Machine

/-! ## Tag bytes -/

@[simp] theorem tagOffsetsFrom_nil (k : Nat) : tagOffsetsFrom k [] = [] := rfl

@[simp] theorem tagOffsetsFrom_cons (k : Nat) (op : Operand) (ops : List Operand) :
    tagOffsetsFrom k (op :: ops) = k :: tagOffsetsFrom (k + op.encodedLength) ops := rfl

/-- No tag byte stands before the first operand. -/
theorem le_of_mem_tagOffsetsFrom {j : Nat} : ∀ {k : Nat} {ops : List Operand}, j ∈ tagOffsetsFrom k ops → k ≤ j
  | _, [], h => by simp at h
  | k, op :: ops, h => by
    rw [tagOffsetsFrom_cons, List.mem_cons] at h
    rcases h with rfl | h
    · exact Nat.le_refl _
    · exact Nat.le_trans (Nat.le_add_right _ _) (le_of_mem_tagOffsetsFrom h)

@[simp] theorem clearTagBits_length (tags : List Nat) (bs : List Byte) : (clearTagBits tags bs).length = bs.length := by
  simp [clearTagBits]

theorem clearTagBits_getElem? (tags : List Nat) (bs : List Byte) (k : Nat) :
    (clearTagBits tags bs)[k]? = bs[k]?.map fun b => if k ∈ tags then b &&& 0xC3#8 else b := by
  simp [clearTagBits]

/-- An operand that decodes at `k` re-encodes to its bytes with the tag's unused bits cleared, and only those. -/
theorem decodeOperand_clearTagBits {bs : List Byte} {k k' : Nat} {op : Operand}
    (h : decodeOperand (listFetch bs) k = .ok (op, k')) :
    op.encode = clearTagBits [0] ((bs.drop k).take op.encodedLength) := by
  obtain ⟨_, _, _, tag, tl, h4, h5⟩ := decodeOperand_ok h
  rw [h4, h5]
  simp only [clearTagBits, List.mapIdx_cons, List.mem_singleton, if_true, Nat.add_eq_zero_iff, Nat.one_ne_zero,
    and_false, if_false]
  exact congrArg _ (List.ext_getElem (by simp) fun _ _ _ => by simp)

/-! ## Register bytes and fields -/

/-- The check of a register byte is the decoder's. -/
theorem decodeRegRef_error_of {b : Nat} {e : DecodeError} (h : registerByteError b = some e) :
    decodeRegRef b = .error e := by
  have hreg : ∀ n, 24 ≤ n → Reg.ofId n = none := by
    intro n hn; unfold Reg.ofId; split <;> first | omega | rfl
  have hregion : ∀ n, 5 ≤ n → Region.ofId n = none := by
    intro n hn; unfold Region.ofId; split <;> first | omega | rfl
  unfold registerByteError at h
  unfold decodeRegRef
  split at h
  · next h1 => cases h; rw [hreg _ h1]
  · next h1 =>
    split at h
    · next h2 =>
      cases h
      obtain ⟨r, hr⟩ : ∃ r, Reg.ofId (b / 8) = some r := by
        have : b / 8 < 24 := by omega
        interval_cases b / 8 <;> exact ⟨_, rfl⟩
      rw [hr, hregion _ h2]
    · cases h

/-- A register byte that passes the check decodes. -/
theorem decodeRegRef_ok_of {b : Nat} (h : registerByteError b = none) : ∃ r, decodeRegRef b = .ok r := by
  unfold registerByteError at h
  split at h
  · cases h
  · split at h
    · cases h
    · obtain ⟨r, hr⟩ : ∃ r, Reg.ofId (b / 8) = some r := by
        have : b / 8 < 24 := by omega
        interval_cases b / 8 <;> exact ⟨_, rfl⟩
      obtain ⟨g, hg⟩ : ∃ g, Region.ofId (b % 8) = some g := by
        have : b % 8 < 5 := by omega
        interval_cases b % 8 <;> exact ⟨_, rfl⟩
      exact ⟨⟨r, g⟩, by unfold decodeRegRef; rw [hr, hg]⟩

/-- A register byte at fault stops the fetch of its field. -/
theorem fetchRegRef_error_of {rd : Fetch} {k off : Nat} {e : DecodeError}
    (h : MemField.error rd k (.regByte off) = some e) : fetchRegRef rd (k + off) = .error e := by
  simp only [MemField.error] at h
  simp only [fetchRegRef]
  split at h
  · next hb => rw [hb]; exact decodeRegRef_error_of h
  · next hb => cases h; rw [hb]; rfl

/-- A register byte without fault is read. -/
theorem fetchRegRef_ok_of {rd : Fetch} {k off : Nat} (h : MemField.error rd k (.regByte off) = none) :
    ∃ r, fetchRegRef rd (k + off) = .ok r := by
  simp only [MemField.error] at h
  simp only [fetchRegRef]
  split at h
  · next hb => rw [hb]; exact decodeRegRef_ok_of h
  · cases h

/-- An address, displacement or scale field that cannot be read. -/
theorem data_error_of {rd : Fetch} {k off : Nat} {w : Width} {e : DecodeError}
    (h : MemField.error rd k (.data off w) = some e) : rd (k + off) w = .error e := by
  simp only [MemField.error] at h
  split at h
  · cases h
  · next hb => cases h; exact hb

theorem data_ok_of {rd : Fetch} {k off : Nat} {w : Width} (h : MemField.error rd k (.data off w) = none) :
    ∃ v, rd (k + off) w = .ok v := by
  simp only [MemField.error] at h
  split at h
  · next v hb => exact ⟨v, hb⟩
  · cases h

end Sys2Proof.Machine
end

