-- ==== Sys2Proof/Laws/Exec.lean ====
section
/-! SUPPORT. `exec_law`: everything an instruction can do. It reports the first failing check, or a zero divisor, and leaves
nothing else; or it completes, having had the effect on registers, flags, bytes and outputs that `BodyEffect` bounds. -/

namespace Sys2Proof.Machine

/-- What the rule of `i` may have done between the state `s` before it and the state `t` it commits. -/
def BodyEffect (i : Instr) (s t : State) : Prop :=
  match i with
  | .int c => t = s.clearPending.interrupt (s.readOp c)
  | i => Effect s.clearPending t (Instr.mayWriteRegs i) (Instr.mayWriteFlags i) (s.mayWriteBytes i) ∧
      (t.pending = none ∨ ∃ x, t.pending = some { ip := x, seg := none } ∧ Reg.rip ∈ Instr.implicitRegs i)

/-- Everything an instruction can do, for a rule with checks `R` and `K` and a body. -/
theorem runRule_law {s : State} {R : List (Role × Operand)} {K : List StackSlot}
    {body : State → Except ExecError State} {dz : Prop} {P : State → Prop}
    (h : s.check R K = none → (dz ∧ body s.clearPending = .error .divideByZero) ∨
      (¬ dz ∧ ∃ t, body s.clearPending = .ok t ∧ P t)) :
    (∃ e, runRule s R K body = .next (s.failed e) ∧
      (s.check R K = some e ∨ (s.check R K = none ∧ dz ∧ e = .divideByZero))) ∨
    (s.check R K = none ∧ ¬ dz ∧ ∃ t, runRule s R K body = .next t.complete ∧ P t) := by
  cases hc : s.check R K with
  | some e => exact .inl ⟨e, runRule_check hc, .inl rfl⟩
  | none =>
    rcases h hc with ⟨hd, hb⟩ | ⟨hd, t, hb, hp⟩
    · exact .inl ⟨_, runRule_error hc hb, .inr ⟨rfl, hd, rfl⟩⟩
    · exact .inr ⟨rfl, hd, t, runRule_ok hc hb, hp⟩

/-- Every operand whose checks pass names allowed regions. -/
theorem State.regions_of_check {s : State} {R : List (Role × Operand)} {K : List StackSlot} (h : s.check R K = none)
    {ro : Role} {op : Operand} (hm : (ro, op) ∈ R) : Operand.regionsAllowed op = true := by
  have := ((State.check_eq_none s R K).1 h).1 _ hm
  by_contra hn
  simp [regionError, hn] at this

theorem State.commit_effect (p : State) (dst : Operand) (o : AluOut) (hr : Operand.regionsAllowed dst = true) :
    Effect p (p.commit dst o) (Operand.destRegs dst) (o.flags.map Prod.fst) (p.destBytes dst) := by
  have := (State.writeOp_effect p dst (BitVec.ofNat 64 o.result) p hr rfl).trans
    (State.writeFlags_effect _ o.flags)
  simpa [State.commit] using this

@[simp] theorem State.commit_pending (p : State) (dst : Operand) (o : AluOut) :
    (p.commit dst o).pending = p.pending := by simp [State.commit]

theorem flag_mem_allFlags (f : Flag) : f ∈ allFlags := by cases f <;> simp [allFlags]

@[simp] theorem State.clearPending_slotBytes (s : State) (off : Word) (n : Nat) :
    s.clearPending.slotBytes off n = s.slotBytes off n := rfl

/-! ## One instruction at a time -/

/-- The law for a rule that completes without a jump. -/
theorem effect_plain {i : Instr} {s t : State} {r : List Reg} {f : List Flag} {b : List Nat} (hi : ∀ c, i ≠ .int c)
    (h : Effect s.clearPending t r f b) (hp : t.pending = none) (hr : r ⊆ Instr.mayWriteRegs i)
    (hf : f ⊆ Instr.mayWriteFlags i) (hb : b ⊆ s.mayWriteBytes i) : BodyEffect i s t := by
  have := And.intro (h.weaken hr hf hb)
    (Or.inl hp : t.pending = none ∨ ∃ x, t.pending = some { ip := x, seg := none } ∧ Reg.rip ∈ Instr.implicitRegs i)
  cases i <;> first | exact this | exact absurd rfl (hi _)

/-- The law for a rule that requests a jump. -/
theorem effect_jump {i : Instr} {s t : State} {r : List Reg} {f : List Flag} {b : List Nat} (hi : ∀ c, i ≠ .int c)
    (h : Effect s.clearPending t r f b) (x : Word) (hp : t.pending = some { ip := x, seg := none })
    (hm : Reg.rip ∈ Instr.implicitRegs i) (hr : r ⊆ Instr.mayWriteRegs i)
    (hf : f ⊆ Instr.mayWriteFlags i) (hb : b ⊆ s.mayWriteBytes i) : BodyEffect i s t := by
  have := And.intro (h.weaken hr hf hb)
    (Or.inr ⟨x, hp, hm⟩ : t.pending = none ∨ ∃ x, t.pending = some { ip := x, seg := none } ∧
      Reg.rip ∈ Instr.implicitRegs i)
  cases i <;> first | exact this | exact absurd rfl (hi _)

/-- What the law says of an instruction. -/
def ExecLaw (i : Instr) (s : State) : Prop :=
  (∃ e, exec i s = .next (s.failed e) ∧
    (s.check (Instr.roles i) (Instr.slots s i) = some e ∨
      (s.check (Instr.roles i) (Instr.slots s i) = none ∧ s.dividesByZero i ∧ e = .divideByZero))) ∨
  (s.check (Instr.roles i) (Instr.slots s i) = none ∧ ¬ s.dividesByZero i ∧
    ∃ t, exec i s = .next t.complete ∧ BodyEffect i s t)

theorem execLaw_of_rule {i : Instr} {s : State} {body : State → Except ExecError State}
    (he : exec i s = runRule s (Instr.roles i) (Instr.slots s i) body)
    (h : s.check (Instr.roles i) (Instr.slots s i) = none →
      (s.dividesByZero i ∧ body s.clearPending = .error .divideByZero) ∨
      (¬ s.dividesByZero i ∧ ∃ t, body s.clearPending = .ok t ∧ BodyEffect i s t)) : ExecLaw i s := by
  unfold ExecLaw
  rw [he]
  exact runRule_law h

/-- A one-operand ALU instruction. -/
theorem execLaw_alu1 (i : Instr) (s : State) (dst : Operand) (op : Nat → Nat → AluOut)
    (he : exec i s = aluRule1 op dst s) (hroles : Instr.roles i = [(.rw, dst)]) (hslots : Instr.slots s i = [])
    (hi : ∀ c, i ≠ .int c) (hz : ¬ s.dividesByZero i)
    (hflags : ∀ W a, (op W a).flags.map Prod.fst ⊆ Instr.mayWriteFlags i) : ExecLaw i s := by
  refine execLaw_of_rule (body := fun s => .ok (s.commit dst (op dst.width.bits (s.readOp dst).toNat)))
    (by rw [he, hroles, hslots]; rfl) fun hc => .inr ⟨hz, _, rfl, ?_⟩
  have hr := State.regions_of_check hc (ro := .rw) (op := dst) (by simp [hroles])
  refine effect_plain hi (State.commit_effect _ dst _ hr) (by simp) ?_ (hflags _ _) ?_
  · simp [Instr.mayWriteRegs, Instr.destinations, hroles, Role.writes]
  · simp [State.mayWriteBytes, Instr.destinations, hroles, Role.writes]

/-- A two-operand ALU instruction. -/
theorem execLaw_alu2 (i : Instr) (s : State) (dst src : Operand) (op : Nat → Nat → Nat → Bool → Except ExecError AluOut)
    (he : exec i s = aluRule2 op dst src s) (hroles : Instr.roles i = [(.rw, dst), (.r, src)])
    (hslots : Instr.slots s i = []) (hi : ∀ c, i ≠ .int c) (hflags : ∀ f, f ∈ Instr.mayWriteFlags i)
    (hop : (s.dividesByZero i ∧ op dst.width.bits (s.readOp dst).toNat (truncNat dst.width.bits (s.readOp src))
        (s.flag .cf) = .error .divideByZero) ∨
      (¬ s.dividesByZero i ∧ ∃ o, op dst.width.bits (s.readOp dst).toNat (truncNat dst.width.bits (s.readOp src))
        (s.flag .cf) = .ok o)) : ExecLaw i s := by
  refine execLaw_of_rule (body := fun s => do
      let o ← op dst.width.bits (s.readOp dst).toNat (truncNat dst.width.bits (s.readOp src)) (s.flag .cf)
      return s.commit dst o)
    (by rw [he, hroles, hslots]; rfl) fun hc => ?_
  have hr := State.regions_of_check hc (ro := .rw) (op := dst) (by simp [hroles])
  rcases hop with ⟨hz, ho⟩ | ⟨hz, o, ho⟩
  · refine .inl ⟨hz, ?_⟩
    simp only [State.clearPending_readOp, State.clearPending_flag, ho]
    rfl
  · refine .inr ⟨hz, s.clearPending.commit dst o, ?_, ?_⟩
    · simp only [State.clearPending_readOp, State.clearPending_flag, ho]
      rfl
    · refine effect_plain hi (State.commit_effect _ dst _ hr) (by simp) ?_ (fun f _ => hflags f) ?_
      · simp [Instr.mayWriteRegs, Instr.destinations, hroles, Role.writes]
      · simp [State.mayWriteBytes, Instr.destinations, hroles, Role.writes]

/-- A shift or rotate. -/
theorem execLaw_shift (i : Instr) (s : State) (dst count : Operand) (op : Nat → Nat → Bool → Nat → AluOut)
    (he : exec i s = shiftRule op dst count s) (hroles : Instr.roles i = [(.rw, dst), (.r, count)])
    (hslots : Instr.slots s i = []) (hi : ∀ c, i ≠ .int c) (hz : ¬ s.dividesByZero i)
    (hflags : ∀ f, f ∈ Instr.mayWriteFlags i) : ExecLaw i s := by
  refine execLaw_of_rule (body := fun s =>
      let c := (s.readOp count).toNat
      if c = 0 then .ok s else .ok (s.commit dst (op dst.width.bits (s.readOp dst).toNat (s.flag .cf) c)))
    (by rw [he, hroles, hslots]; rfl) fun hc => .inr ⟨hz, ?_⟩
  have hr := State.regions_of_check hc (ro := .rw) (op := dst) (by simp [hroles])
  by_cases h0 : (s.readOp count).toNat = 0
  · refine ⟨s.clearPending, by simp [h0], ?_⟩
    exact effect_plain hi (Effect.refl _ [] [] []) (by simp) (by simp) (by simp) (by simp)
  · refine ⟨_, by simp only [State.clearPending_readOp, h0, if_false]; rfl, ?_⟩
    refine effect_plain hi (State.commit_effect _ dst _ hr) (by simp) ?_ (fun f _ => hflags f) ?_
    · simp [Instr.mayWriteRegs, Instr.destinations, hroles, Role.writes]
    · simp [State.mayWriteBytes, Instr.destinations, hroles, Role.writes]

/-- CMP and TEST. -/
theorem execLaw_flags (i : Instr) (s : State) (a b : Operand) (op : Nat → Nat → Nat → FlagWrites)
    (he : exec i s = flagsRule op a b s) (hroles : Instr.roles i = [(.r, a), (.r, b)])
    (hslots : Instr.slots s i = []) (hi : ∀ c, i ≠ .int c) (hz : ¬ s.dividesByZero i)
    (hflags : ∀ f, f ∈ Instr.mayWriteFlags i) : ExecLaw i s := by
  refine execLaw_of_rule (body := fun s =>
      .ok (s.writeFlags (op a.width.bits (s.readOp a).toNat (truncNat a.width.bits (s.readOp b)))))
    (by rw [he, hroles, hslots]; rfl) fun _ => .inr ⟨hz, _, rfl, ?_⟩
  exact effect_plain hi (State.writeFlags_effect _ _) (by simp) (by simp) (fun f _ => hflags f) (by simp)

/-- JMP and the conditional jumps. -/
theorem execLaw_jump (i : Instr) (s : State) (target : Operand) (cond : State → Bool)
    (he : exec i s = jumpRule cond target s) (hroles : Instr.roles i = [(.t, target)])
    (hslots : Instr.slots s i = []) (hi : ∀ c, i ≠ .int c) (hz : ¬ s.dividesByZero i)
    (hrip : Reg.rip ∈ Instr.implicitRegs i) : ExecLaw i s := by
  refine execLaw_of_rule (body := fun s => let t := s.readOp target; if cond s then .ok (s.jump t) else .ok s)
    (by rw [he, hroles, hslots]; rfl) fun _ => .inr ⟨hz, ?_⟩
  cases hcond : cond s.clearPending with
  | true =>
    refine ⟨_, by simp only [if_true]; rfl, ?_⟩
    exact effect_jump hi (State.jump_effect _ _) _ rfl hrip (by simp) (by simp) (by simp)
  | false =>
    refine ⟨s.clearPending, by simp, ?_⟩
    exact effect_plain hi (Effect.refl _ [] [] []) (by simp) (by simp) (by simp) (by simp)

theorem execLaw_mov (dst src : Operand) (s : State) : ExecLaw (.mov dst src) s := by
  refine execLaw_of_rule (body := fun s => .ok (s.writeOp dst (s.readOp src) s)) rfl fun hc => .inr ⟨id, _, rfl, ?_⟩
  have hr := State.regions_of_check hc (ro := .w) (op := dst) (by simp [Instr.roles])
  refine effect_plain (by simp) (State.writeOp_effect _ dst _ _ hr rfl) (by simp) ?_ (by simp) ?_
  · simp [Instr.mayWriteRegs, Instr.destinations, Instr.roles, Role.writes]
  · simp [State.mayWriteBytes, Instr.destinations, Instr.roles, Role.writes]

theorem execLaw_xchg (a b : Operand) (s : State) : ExecLaw (.xchg a b) s := by
  refine execLaw_of_rule (body := fun s => .ok (s.writeOp b (s.readOp a) (s.writeOp a (s.readOp b) s))) rfl
    fun hc => .inr ⟨id, _, rfl, ?_⟩
  have ha := State.regions_of_check hc (ro := .rw) (op := a) (by simp [Instr.roles])
  have hb := State.regions_of_check hc (ro := .rw) (op := b) (by simp [Instr.roles])
  have h := (State.writeOp_effect s.clearPending a (s.clearPending.readOp b) s.clearPending ha rfl).trans
    (State.writeOp_effect s.clearPending b (s.clearPending.readOp a) _ hb (State.writeOp_config _ _ _ _))
  refine effect_plain (by simp) h (by simp) ?_ (by simp) ?_
  · simp [Instr.mayWriteRegs, Instr.destinations, Instr.roles, Role.writes]
  · simp [State.mayWriteBytes, Instr.destinations, Instr.roles, Role.writes]

theorem execLaw_lea (dst src : Operand) (s : State) : ExecLaw (.lea dst src) s := by
  refine execLaw_of_rule (body := fun s =>
    match src with
    | .mem _ _ mode => .ok (s.writeOp dst (s.ea mode) s)
    | _ => .error .operandKind) rfl fun hc => .inr ⟨id, ?_⟩
  have hr := State.regions_of_check hc (ro := .w) (op := dst) (by simp [Instr.roles])
  have hm := (((State.check_eq_none s _ _).1 hc).1 (.m, src) (by simp [Instr.roles])).1
  cases src with
  | reg r => simp [roleError] at hm
  | imm w l => simp [roleError] at hm
  | mem w seg m =>
    refine ⟨_, rfl, ?_⟩
    refine effect_plain (by simp) (State.writeOp_effect _ dst _ _ hr rfl) (by simp) ?_ (by simp) ?_
    · simp [Instr.mayWriteRegs, Instr.destinations, Instr.roles, Role.writes]
    · simp [State.mayWriteBytes, Instr.destinations, Instr.roles, Role.writes]

theorem execLaw_nop (s : State) : ExecLaw .nop s :=
  execLaw_of_rule (body := fun s => .ok s) rfl fun _ => .inr ⟨id, _, rfl,
    effect_plain (by simp) (Effect.refl _ [] [] []) (by simp) (by simp) (by simp) (by simp)⟩

/-- An operand's value fits its width in bytes. -/
theorem State.readOp_lt_bytes (s : State) (op : Operand) : (s.readOp op).toNat < 256 ^ op.width.bytes := by
  rw [pow_256]
  exact s.readOp_lt op

theorem Width.bytes_mem (w : Width) : w.bytes ∈ [1, 2, 4, 8] := by cases w <;> decide

theorem word_lt_8 (v : Word) : v.toNat < 256 ^ 8 := lt_of_lt_of_le v.isLt (by decide)

theorem execLaw_push (src : Operand) (s : State) : ExecLaw (.push src) s := by
  refine execLaw_of_rule (body := fun s => .ok (s.push src.width.bytes (s.readOp src))) rfl
    fun _ => .inr ⟨id, _, rfl, ?_⟩
  have h := State.push_effect s.clearPending src.width.bytes (s.clearPending.readOp src) (Width.bytes_mem _)
    (State.readOp_lt_bytes _ _)
  refine effect_plain (by simp) h (by simp) ?_ (by simp) ?_
  · simp [Instr.mayWriteRegs, Instr.implicitRegs]
  · intro a ha
    simpa [State.mayWriteBytes, Instr.destinations, Instr.roles, Role.writes, Instr.storedSlots, Instr.slots] using ha

theorem execLaw_pop (dst : Operand) (s : State) : ExecLaw (.pop dst) s := by
  refine execLaw_of_rule
    (body := fun s => .ok (s.writeOp dst (s.popValue dst.width.bytes) (s.popMove dst.width.bytes))) rfl
    fun hc => .inr ⟨id, _, rfl, ?_⟩
  have hr := State.regions_of_check hc (ro := .w) (op := dst) (by simp [Instr.roles])
  have h := (State.popMove_effect s.clearPending dst.width.bytes).trans
    (State.writeOp_effect s.clearPending dst (s.clearPending.popValue dst.width.bytes) _ hr (by simp))
  refine effect_plain (by simp) h (by simp) ?_ (by simp) ?_
  · intro r hr
    simp [Instr.mayWriteRegs, Instr.destinations, Instr.roles, Role.writes, Instr.implicitRegs] at hr ⊢
    tauto
  · simp [State.mayWriteBytes, Instr.destinations, Instr.roles, Role.writes]

theorem execLaw_pushf (s : State) : ExecLaw .pushf s := by
  refine execLaw_of_rule (body := fun s => .ok (s.push 8 (s.get .rflags))) rfl fun _ => .inr ⟨id, _, rfl, ?_⟩
  have h := State.push_effect s.clearPending 8 (s.clearPending.get .rflags) (by simp) (word_lt_8 _)
  refine effect_plain (by simp) h (by simp) ?_ (by simp) ?_
  · simp [Instr.mayWriteRegs, Instr.implicitRegs]
  · intro a ha
    simpa [State.mayWriteBytes, Instr.destinations, Instr.roles, Instr.storedSlots, Instr.slots] using ha

theorem execLaw_popf (s : State) : ExecLaw .popf s := by
  refine execLaw_of_rule (body := fun s => .ok ((s.popMove 8).set .rflags (s.popValue 8))) rfl
    fun _ => .inr ⟨id, _, rfl, ?_⟩
  have h := (State.popMove_effect s.clearPending 8).trans
    (State.set_effect _ .rflags (s.clearPending.popValue 8) (by simp [Reg.isSegment]))
  refine effect_plain (by simp) h (by simp) ?_ (by simp) (by simp)
  simp [Instr.mayWriteRegs, Instr.implicitRegs]

/-! ## PUSHA, POPA -/

theorem stackSlots_down (x : Word) (n : Nat) :
    stackSlots (x - 8) (-8) n = (List.range n).map fun i => (x - BitVec.ofNat 64 (8 * (i + 1)), 8) := by
  induction n generalizing x with
  | zero => rfl
  | succ n ih =>
    rw [stackSlots, show x - 8 + -8 = x - 8 - 8 by rw [BitVec.sub_eq_add_neg (x - 8) 8], ih (x - 8),
      List.range_succ_eq_map, List.map_cons, List.map_map]
    congr 1
    apply List.map_congr_left
    intro i _
    simp only [Function.comp, Prod.mk.injEq, and_true]
    apply BitVec.eq_of_toNat_eq
    have h8 : (8 : Word).toNat = 8 := rfl
    simp only [BitVec.toNat_sub, BitVec.toNat_ofNat, h8, Nat.succ_eq_add_one]
    have := x.isLt
    omega

theorem stackSlots_up (x : Word) (n : Nat) :
    stackSlots x 8 n = (List.range n).map fun i => (x + BitVec.ofNat 64 (8 * i), 8) := by
  induction n generalizing x with
  | zero => rfl
  | succ n ih =>
    rw [stackSlots, ih (x + 8), List.range_succ_eq_map, List.map_cons, List.map_map]
    congr 1
    · simp
    · apply List.map_congr_left
      intro i _
      simp only [Function.comp, Prod.mk.injEq, and_true]
      apply BitVec.eq_of_toNat_eq
      have h8 : (8 : Word).toNat = 8 := rfl
      simp only [BitVec.toNat_add, BitVec.toNat_ofNat, h8, Nat.succ_eq_add_one]
      omega

theorem pushAll_effect (rs : List Reg) (s : State) :
    Effect s (s.pushAll rs) [.rsp] [] ((stackSlots (s.get .rsp - 8) (-8) rs.length).flatMap
      fun k => s.slotBytes k.1 k.2) := by
  induction rs generalizing s with
  | nil => exact Effect.refl _ _ _ _
  | cons r rs ih =>
    have h1 := State.push_effect s 8 (s.get r) (by simp) (word_lt_8 _)
    have h2 := ih (s.push 8 (s.get r))
    refine (h1.trans h2).weaken (by simp) (by simp) ?_
    have hb : ∀ k : StackSlot, (s.push 8 (s.get r)).slotBytes k.1 k.2 = s.slotBytes k.1 k.2 := by
      intro k
      simp [State.slotBytes, State.phys]
    have hsp : (s.push 8 (s.get r)).get .rsp - 8 = s.get .rsp - 8 + -8 := by
      simp only [State.push_get, if_true]
      rw [BitVec.sub_eq_add_neg (s.get .rsp - BitVec.ofNat 64 8)]
      rfl
    simp only [hb, hsp, List.length_cons, stackSlots, List.flatMap_cons]
    exact fun _ h => h

theorem popAll_effect (rs : List Reg) (s : State) (h : ∀ r ∈ rs, Reg.isSegment r = false) :
    Effect s (s.popAll rs) (.rsp :: rs) [] [] := by
  induction rs generalizing s with
  | nil => exact Effect.refl _ _ _ _
  | cons r rs ih =>
    have h1 := (State.popMove_effect s 8).trans
      (State.set_effect _ r (s.popValue 8) (by rw [h r (by simp)]; simp))
    have h2 := ih ((s.popMove 8).set r (s.popValue 8)) (fun q hq => h q (by simp [hq]))
    refine (h1.trans h2).weaken ?_ (by simp) (by simp)
    intro q hq
    simp at hq ⊢
    tauto

theorem execLaw_pusha (s : State) : ExecLaw .pusha s := by
  have hslots : Instr.slots s .pusha = stackSlots (s.get .rsp - 8) (-8) 14 := (stackSlots_down _ _).symm
  refine execLaw_of_rule (body := fun s => .ok (s.pushAll pushaRegs)) (by rw [hslots]; rfl)
    fun _ => .inr ⟨id, _, rfl, ?_⟩
  refine effect_plain (by simp) (pushAll_effect pushaRegs s.clearPending) (by simp) ?_ (by simp) ?_
  · simp [Instr.mayWriteRegs, Instr.implicitRegs]
  · intro a ha
    simp only [State.mayWriteBytes, Instr.storedSlots, hslots]
    exact List.mem_append_right _ ha

theorem execLaw_popa (s : State) : ExecLaw .popa s := by
  have hslots : Instr.slots s .popa = stackSlots (s.get .rsp) 8 14 := (stackSlots_up _ _).symm
  refine execLaw_of_rule (body := fun s => .ok (s.popAll pushaRegs.reverse)) (by rw [hslots]; rfl)
    fun _ => .inr ⟨id, _, rfl, ?_⟩
  have h := popAll_effect pushaRegs.reverse s.clearPending (by decide)
  refine effect_plain (by simp) h (by simp) ?_ (by simp) (by simp)
  simp only [Instr.mayWriteRegs, Instr.implicitRegs, Instr.destinations, Instr.roles]
  decide

/-! ## CALL, RET -/

theorem execLaw_call (target : Operand) (s : State) : ExecLaw (.call target) s := by
  refine execLaw_of_rule (body := fun s =>
    let t := s.readOp target
    let u := (s.push 8 (s.get .rip)).push 8 (s.get .rbp)
    .ok ((u.set .rbp (u.get .rsp)).jump t)) rfl fun _ => .inr ⟨id, _, rfl, ?_⟩
  have h1 := (State.push_effect s.clearPending 8 (s.get .rip) (by simp) (word_lt_8 _)).trans
    (State.push_effect (s.clearPending.push 8 (s.get .rip)) 8 (s.get .rbp) (by simp) (word_lt_8 _))
  have h2 := h1.trans (State.set_effect _ .rbp
    (((s.clearPending.push 8 (s.get .rip)).push 8 (s.get .rbp)).get .rsp) (by simp [Reg.isSegment]))
  have h3 := h2.trans (State.jump_effect _ (s.clearPending.readOp target))
  refine effect_jump (by simp) h3 _ rfl (by simp [Instr.implicitRegs]) ?_ (by simp) ?_
  · simp [Instr.mayWriteRegs, Instr.implicitRegs]
  · have hsp : (s.clearPending.push 8 (s.get .rip)).get .rsp - BitVec.ofNat 64 8 = s.get .rsp - 16 := by
      simp only [State.push_get, if_true, State.clearPending_get, BitVec.sub_sub]
      rfl
    have hb : ∀ off, (s.clearPending.push 8 (s.get .rip)).slotBytes off 8 = s.slotBytes off 8 := by
      intro off
      simp [State.slotBytes, State.phys]
    intro a ha
    rw [hsp, hb] at ha
    simpa [State.mayWriteBytes, Instr.destinations, Instr.roles, Role.writes, Instr.storedSlots, Instr.slots] using ha

theorem execLaw_ret (count : Operand) (s : State) : ExecLaw (.ret count) s := by
  refine execLaw_of_rule (body := fun s =>
    let n := s.readOp count
    let bp := s.popValue 8
    let u := s.popMove 8
    let ret := u.popValue 8
    let u := (u.popMove 8).set .rbp bp
    let sp := u.get .rsp + n
    .ok (((u.set .rsp sp).dropBelow sp).jump ret)) rfl fun _ => .inr ⟨id, _, rfl, ?_⟩
  have h1 := (State.popMove_effect s.clearPending 8).trans (State.popMove_effect (s.clearPending.popMove 8) 8)
  have h2 := h1.trans (State.set_effect _ .rbp (s.clearPending.popValue 8) (by simp [Reg.isSegment]))
  have h3 := h2.trans (State.set_effect _ .rsp
    ((((s.clearPending.popMove 8).popMove 8).set .rbp (s.clearPending.popValue 8)).get .rsp
      + s.clearPending.readOp count) (by simp [Reg.isSegment]))
  have h4 := (h3.trans (State.dropBelow_effect _
    ((((s.clearPending.popMove 8).popMove 8).set .rbp (s.clearPending.popValue 8)).get .rsp
      + s.clearPending.readOp count))).trans
    (State.jump_effect _ ((s.clearPending.popMove 8).popValue 8))
  refine effect_jump (by simp) h4 _ rfl (by simp [Instr.implicitRegs]) ?_ (by simp) (by simp)
  simp [Instr.mayWriteRegs, Instr.implicitRegs]

/-! ## IN, OUT, INT -/

theorem execLaw_inp (port address dst : Operand) (s : State) : ExecLaw (.inp port address dst) s := by
  refine execLaw_of_rule (body := fun s =>
    let p := s.readOp port
    let d := s.readOp address
    if s.hasDevice p then
      let v := s.deviceAnswer p d
      .ok (s.writeOp dst v (s.deviceReadEvent p d v))
    else .ok (s.writeOp dst 0 (s.diag (.info .noDeviceIn)))) rfl fun hc => .inr ⟨id, ?_⟩
  have hr := State.regions_of_check hc (ro := .w) (op := dst) (by simp [Instr.roles])
  have hregs : Operand.destRegs dst ⊆ Instr.mayWriteRegs (.inp port address dst) := by
    simp [Instr.mayWriteRegs, Instr.destinations, Instr.roles, Role.writes]
  have hbytes : s.destBytes dst ⊆ s.mayWriteBytes (.inp port address dst) := by
    simp [State.mayWriteBytes, Instr.destinations, Instr.roles, Role.writes]
  cases hd : s.clearPending.hasDevice (s.clearPending.readOp port) with
  | true =>
    refine ⟨_, by simp only [hd, if_true]; rfl, ?_⟩
    have h := (State.deviceReadEvent_effect s.clearPending (s.clearPending.readOp port)
      (s.clearPending.readOp address) (s.clearPending.deviceAnswer (s.clearPending.readOp port)
        (s.clearPending.readOp address))).trans (State.writeOp_effect s.clearPending dst
          (s.clearPending.deviceAnswer (s.clearPending.readOp port) (s.clearPending.readOp address)) _ hr (by simp))
    exact effect_plain (by simp) h (by simp) (by simpa using hregs) (by simp) (by simpa using hbytes)
  | false =>
    refine ⟨s.clearPending.writeOp dst 0 (s.clearPending.diag (.info .noDeviceIn)), ?_, ?_⟩
    · simp only [hd]; rfl
    · have h := (State.diag_effect s.clearPending .noDeviceIn).trans
        (State.writeOp_effect s.clearPending dst 0 _ hr (by simp))
      exact effect_plain (by simp) h (by simp) (by simpa using hregs) (by simp) (by simpa using hbytes)

theorem execLaw_out (port address src : Operand) (s : State) : ExecLaw (.out port address src) s := by
  refine execLaw_of_rule (body := fun s =>
    let p := s.readOp port
    if s.hasDevice p then .ok (s.deviceWrite p (s.readOp address) (s.readOp src))
    else .ok (s.diag (.info .noDeviceOut))) rfl fun _ => .inr ⟨id, ?_⟩
  cases hd : s.clearPending.hasDevice (s.clearPending.readOp port) with
  | true =>
    refine ⟨_, by simp only [hd, if_true]; rfl, ?_⟩
    exact effect_plain (by simp) (State.deviceWrite_effect _ _ _ _) (by simp) (by simp) (by simp) (by simp)
  | false =>
    refine ⟨s.clearPending.diag (.info .noDeviceOut), ?_, ?_⟩
    · simp only [hd]; rfl
    · exact effect_plain (by simp) (State.diag_effect _ _) (by simp) (by simp) (by simp) (by simp)

theorem execLaw_int (code : Operand) (s : State) : ExecLaw (.int code) s := by
  refine execLaw_of_rule (body := fun s => .ok (s.interrupt (s.readOp code))) rfl fun _ => .inr ⟨id, _, rfl, ?_⟩
  simp [BodyEffect]

/-! ## Division -/

/-- A division either has a zero divisor and fails, or gives a result. -/
theorem divOp_cases (W a b : Nat) : (b = 0 ∧ divOp W a b = .error .divideByZero) ∨ (¬ b = 0 ∧ ∃ o, divOp W a b = .ok o) := by
  unfold divOp
  by_cases h : b = 0
  · exact .inl ⟨h, by rw [if_pos h]⟩
  · exact .inr ⟨h, _, by rw [if_neg h]⟩

theorem idivOp_cases (W a b : Nat) : (b = 0 ∧ idivOp W a b = .error .divideByZero) ∨ (¬ b = 0 ∧ ∃ o, idivOp W a b = .ok o) := by
  unfold idivOp
  by_cases h : b = 0
  · exact .inl ⟨h, by rw [if_pos h]⟩
  · exact .inr ⟨h, _, by rw [if_neg h]⟩

theorem modOp_cases (W a b : Nat) : (b = 0 ∧ modOp W a b = .error .divideByZero) ∨ (¬ b = 0 ∧ ∃ o, modOp W a b = .ok o) := by
  unfold modOp
  by_cases h : b = 0
  · exact .inl ⟨h, by rw [if_pos h]⟩
  · exact .inr ⟨h, _, by rw [if_neg h]⟩

theorem imodOp_cases (W a b : Nat) : (b = 0 ∧ imodOp W a b = .error .divideByZero) ∨ (¬ b = 0 ∧ ∃ o, imodOp W a b = .ok o) := by
  unfold imodOp
  by_cases h : b = 0
  · exact .inl ⟨h, by rw [if_pos h]⟩
  · exact .inr ⟨h, _, by rw [if_neg h]⟩

/-! ## Every instruction -/

/-- Everything an instruction can do. -/
theorem exec_law (i : Instr) (s : State) : ExecLaw i s := by
  cases i with
  | nop => exact execLaw_nop s
  | mov dst src => exact execLaw_mov dst src s
  | xchg a b => exact execLaw_xchg a b s
  | lea dst src => exact execLaw_lea dst src s
  | inc dst =>
    exact execLaw_alu1 _ s dst incOp rfl rfl rfl (by simp) id fun W a => by simp [incOp, setZSP, Instr.mayWriteFlags]
  | dec dst =>
    exact execLaw_alu1 _ s dst decOp rfl rfl rfl (by simp) id fun W a => by simp [decOp, setZSP, Instr.mayWriteFlags]
  | neg dst =>
    exact execLaw_alu1 _ s dst (fun W a => subCore W 0 a false) rfl rfl rfl (by simp) id (fun _ _ f _ => flag_mem_allFlags f)
  | not dst =>
    exact execLaw_alu1 _ s dst (fun W a => logicOut W (a ^^^ (2 ^ W - 1))) rfl rfl rfl (by simp) id (fun _ _ f _ => flag_mem_allFlags f)
  | add dst src =>
    exact execLaw_alu2 _ s dst src (fun W a b _ => .ok (addCore W a b false)) rfl rfl rfl (by simp) flag_mem_allFlags (.inr ⟨id, _, rfl⟩)
  | adc dst src =>
    exact execLaw_alu2 _ s dst src (fun W a b cf => .ok (addCore W a b cf)) rfl rfl rfl (by simp) flag_mem_allFlags (.inr ⟨id, _, rfl⟩)
  | sub dst src =>
    exact execLaw_alu2 _ s dst src (fun W a b _ => .ok (subCore W a b false)) rfl rfl rfl (by simp) flag_mem_allFlags (.inr ⟨id, _, rfl⟩)
  | sbb dst src =>
    exact execLaw_alu2 _ s dst src (fun W a b cf => .ok (subCore W a b cf)) rfl rfl rfl (by simp) flag_mem_allFlags (.inr ⟨id, _, rfl⟩)
  | mul dst src =>
    exact execLaw_alu2 _ s dst src (fun W a b _ => .ok (mulOp W a b)) rfl rfl rfl (by simp) flag_mem_allFlags (.inr ⟨id, _, rfl⟩)
  | imul dst src =>
    exact execLaw_alu2 _ s dst src (fun W a b _ => .ok (imulOp W a b)) rfl rfl rfl (by simp) flag_mem_allFlags (.inr ⟨id, _, rfl⟩)
  | and dst src =>
    exact execLaw_alu2 _ s dst src (fun W a b _ => .ok (logicOut W (a &&& b))) rfl rfl rfl (by simp) flag_mem_allFlags (.inr ⟨id, _, rfl⟩)
  | or dst src =>
    exact execLaw_alu2 _ s dst src (fun W a b _ => .ok (logicOut W (a ||| b))) rfl rfl rfl (by simp) flag_mem_allFlags (.inr ⟨id, _, rfl⟩)
  | xor dst src =>
    exact execLaw_alu2 _ s dst src (fun W a b _ => .ok (logicOut W (a ^^^ b))) rfl rfl rfl (by simp) flag_mem_allFlags (.inr ⟨id, _, rfl⟩)
  | div dst src =>
    exact execLaw_alu2 _ s dst src (fun W a b _ => divOp W a b) rfl rfl rfl (by simp) flag_mem_allFlags
      (divOp_cases dst.width.bits _ ((s.readOp src).toNat % 2 ^ dst.width.bits))
  | idiv dst src =>
    exact execLaw_alu2 _ s dst src (fun W a b _ => idivOp W a b) rfl rfl rfl (by simp) flag_mem_allFlags
      (idivOp_cases dst.width.bits _ ((s.readOp src).toNat % 2 ^ dst.width.bits))
  | mod dst src =>
    exact execLaw_alu2 _ s dst src (fun W a b _ => modOp W a b) rfl rfl rfl (by simp) flag_mem_allFlags
      (modOp_cases dst.width.bits _ ((s.readOp src).toNat % 2 ^ dst.width.bits))
  | imod dst src =>
    exact execLaw_alu2 _ s dst src (fun W a b _ => imodOp W a b) rfl rfl rfl (by simp) flag_mem_allFlags
      (imodOp_cases dst.width.bits _ ((s.readOp src).toNat % 2 ^ dst.width.bits))
  | shl dst c => exact execLaw_shift _ s dst c shlOp rfl rfl rfl (by simp) id flag_mem_allFlags
  | shr dst c => exact execLaw_shift _ s dst c shrOp rfl rfl rfl (by simp) id flag_mem_allFlags
  | sal dst c => exact execLaw_shift _ s dst c shlOp rfl rfl rfl (by simp) id flag_mem_allFlags
  | sar dst c => exact execLaw_shift _ s dst c sarOp rfl rfl rfl (by simp) id flag_mem_allFlags
  | rol dst c => exact execLaw_shift _ s dst c rolOp rfl rfl rfl (by simp) id flag_mem_allFlags
  | ror dst c => exact execLaw_shift _ s dst c rorOp rfl rfl rfl (by simp) id flag_mem_allFlags
  | rcl dst c => exact execLaw_shift _ s dst c rclOp rfl rfl rfl (by simp) id flag_mem_allFlags
  | rcr dst c => exact execLaw_shift _ s dst c rcrOp rfl rfl rfl (by simp) id flag_mem_allFlags
  | cmp a b =>
    exact execLaw_flags _ s a b (fun W x y => (subCore W x y false).flags) rfl rfl rfl (by simp) id flag_mem_allFlags
  | test a b => exact execLaw_flags _ s a b (fun W x y => logicFlags W (x &&& y)) rfl rfl rfl (by simp) id flag_mem_allFlags
  | jmp t => exact execLaw_jump _ s t (fun _ => true) rfl rfl rfl (by simp) id (by simp [Instr.implicitRegs])
  | jz t => exact execLaw_jump _ s t (fun s => s.flag .zf) rfl rfl rfl (by simp) id (by simp [Instr.implicitRegs])
  | jnz t => exact execLaw_jump _ s t (fun s => !s.flag .zf) rfl rfl rfl (by simp) id (by simp [Instr.implicitRegs])
  | jc t => exact execLaw_jump _ s t (fun s => s.flag .cf) rfl rfl rfl (by simp) id (by simp [Instr.implicitRegs])
  | jnc t => exact execLaw_jump _ s t (fun s => !s.flag .cf) rfl rfl rfl (by simp) id (by simp [Instr.implicitRegs])
  | js t => exact execLaw_jump _ s t (fun s => s.flag .sf) rfl rfl rfl (by simp) id (by simp [Instr.implicitRegs])
  | jns t => exact execLaw_jump _ s t (fun s => !s.flag .sf) rfl rfl rfl (by simp) id (by simp [Instr.implicitRegs])
  | jo t => exact execLaw_jump _ s t (fun s => s.flag .of) rfl rfl rfl (by simp) id (by simp [Instr.implicitRegs])
  | jno t => exact execLaw_jump _ s t (fun s => !s.flag .of) rfl rfl rfl (by simp) id (by simp [Instr.implicitRegs])
  | jp t => exact execLaw_jump _ s t (fun s => s.flag .pf) rfl rfl rfl (by simp) id (by simp [Instr.implicitRegs])
  | jnp t => exact execLaw_jump _ s t (fun s => !s.flag .pf) rfl rfl rfl (by simp) id (by simp [Instr.implicitRegs])
  | jl t => exact execLaw_jump _ s t (fun s => s.flag .sf != s.flag .of) rfl rfl rfl (by simp) id (by simp [Instr.implicitRegs])
  | jge t => exact execLaw_jump _ s t (fun s => s.flag .sf == s.flag .of) rfl rfl rfl (by simp) id (by simp [Instr.implicitRegs])
  | jle t => exact execLaw_jump _ s t (fun s => s.flag .zf || s.flag .sf != s.flag .of) rfl rfl rfl (by simp) id (by simp [Instr.implicitRegs])
  | jg t => exact execLaw_jump _ s t (fun s => !s.flag .zf && s.flag .sf == s.flag .of) rfl rfl rfl (by simp) id (by simp [Instr.implicitRegs])
  | call t => exact execLaw_call t s
  | ret c => exact execLaw_ret c s
  | push a => exact execLaw_push a s
  | pop a => exact execLaw_pop a s
  | pushf => exact execLaw_pushf s
  | popf => exact execLaw_popf s
  | pusha => exact execLaw_pusha s
  | popa => exact execLaw_popa s
  | inp p a d => exact execLaw_inp p a d s
  | out p a v => exact execLaw_out p a v s
  | int c => exact execLaw_int c s

/-- An instruction whose checks fail reports the first failure and leaves nothing else (R146, R153). -/
theorem exec_of_check {i : Instr} {s : State} {e : ExecError} (h : s.check (Instr.roles i) (Instr.slots s i) = some e) :
    exec i s = .next (s.failed e) := by
  rcases exec_law i s with ⟨e', he, h' | ⟨h', _⟩⟩ | ⟨h', _⟩
  · rw [h] at h'; cases h'; exact he
  · rw [h] at h'; cases h'
  · rw [h] at h'; cases h'

/-- The checks pass when written operands are writable, read operands readable and stack slots in reach. -/
theorem State.check_of_access (s : State) (R : List (Role × Operand)) (K : List StackSlot)
    (hR : ∀ o ∈ R, if o.1.writes then s.writable o.2 = true else o.1 ≠ .m ∧ s.readable o.2 = true)
    (hK : ∀ k ∈ K, s.slotOk k.1 k.2 = true) : s.check R K = none := by
  rw [State.check_eq_none]
  refine ⟨?_, fun k hk => s.slotError_of_slotOk _ _ (hK k hk)⟩
  rintro ⟨ro, op⟩ ho
  have := hR _ ho
  dsimp only at this
  split at this
  · next h => exact s.checks_of_writable _ _ h this
  · next h => exact s.checks_of_readable _ _ this.1 (by simpa using h) this.2

end Sys2Proof.Machine
end

