-- ==== Sys2Proof/Laws/Interrupt.lean ====
section
/-! SUPPORT. What offering a code to the listeners, and an interrupt, can do to a state. -/

namespace Sys2Proof.Machine

/-- What no listener's answer touches (log entry 5): the size of memory, the policy, PENDING, the snapshot, the outputs; and
memory keeps its form. -/
structure ListenerKeeps (s t : State) : Prop where
  size      : t.config.memSize = s.config.memSize
  policy    : t.config.policy = s.config.policy
  pending   : t.pending = s.pending
  ip0       : t.ip0 = s.ip0
  opc       : t.opc = s.opc
  history   : SameHistory s t
  diags     : t.diags = s.diags
  deviceLog : t.deviceLog = s.deviceLog
  wf        : Memory.wf s.mem = true → Memory.wf t.mem = true
  within    : Memory.within s.memSize s.mem = true → Memory.within s.memSize t.mem = true

theorem ListenerKeeps.refl (s : State) : ListenerKeeps s s := ⟨rfl, rfl, rfl, rfl, rfl, ⟨rfl, rfl⟩, rfl, rfl, id, id⟩

theorem ListenerKeeps.memSize {s t : State} (h : ListenerKeeps s t) : t.memSize = s.memSize := by
  simp [State.memSize, h.size]

theorem ListenerKeeps.trans {s t u : State} (a : ListenerKeeps s t) (b : ListenerKeeps t u) : ListenerKeeps s u where
  size := b.size.trans a.size
  policy := b.policy.trans a.policy
  pending := b.pending.trans a.pending
  ip0 := b.ip0.trans a.ip0
  opc := b.opc.trans a.opc
  history := ⟨b.history.history.trans a.history.history, b.history.historyRev.trans a.history.historyRev⟩
  diags := b.diags.trans a.diags
  deviceLog := b.deviceLog.trans a.deviceLog
  wf h := b.wf (a.wf h)
  within h := by
    rw [← a.memSize]
    exact b.within (by rw [a.memSize]; exact a.within h)

theorem State.afterListener_keeps (s : State) (a : ListenerAnswer) : ListenerKeeps s (s.afterListener a) where
  size := rfl
  policy := rfl
  pending := rfl
  ip0 := rfl
  opc := rfl
  history := ⟨rfl, rfl⟩
  diags := rfl
  deviceLog := rfl
  wf h := Memory.wf_pokes _ _ _ h
  within h := Memory.within_pokes _ _ _ (by have := s.memSize_pos; omega) h

/-- The offer is the chain of R290. -/
theorem State.offer_offered (s : State) (c : Word) (ls : List Nat) :
    Offered s c ls (s.offer c ls).1 (s.offer c ls).2 := by
  induction ls generalizing s with
  | nil => exact .nobody s c
  | cons l ls ih =>
    unfold State.offer
    by_cases h : (Config.onInterrupt s.draws l c s.view).handled = true
    · simp only [h, if_true]
      exact .handled s c l ls h
    · simp only [h]
      exact .passed s c l ls _ _ (by simpa using h) (ih _)

/-- An offer neither reads nor changes the pending jump. -/
theorem State.offer_clearPending (s : State) (c : Word) (ls : List Nat) :
    s.clearPending.offer c ls = ((s.offer c ls).1, (s.offer c ls).2.clearPending) := by
  induction ls generalizing s with
  | nil => rfl
  | cons l ls ih =>
    have hc : ∀ a, s.clearPending.afterListener a = (s.afterListener a).clearPending := fun _ => rfl
    unfold State.offer
    simp only [State.clearPending_view, State.clearPending_draws, hc, ih]
    split <;> rfl

theorem State.offer_keeps (s : State) (c : Word) (ls : List Nat) :
    ListenerKeeps s (s.offer c ls).2 := by
  induction ls generalizing s with
  | nil => exact .refl s
  | cons l ls ih =>
    unfold State.offer
    by_cases h : (Config.onInterrupt s.draws l c s.view).handled = true
    · simp only [h, if_true]
      exact s.afterListener_keeps _
    · simp only [h]
      exact (s.afterListener_keeps _).trans (ih _)

/-- An interrupt neither reads nor changes the pending jump. -/
theorem State.interrupt_clearPending (s : State) (c : Word) :
    s.clearPending.interrupt c = (s.interrupt c).clearPending := by
  unfold State.interrupt
  rw [State.clearPending_config, State.offer_clearPending]
  split
  · rfl
  · cases s.offer c s.config.listeners with
    | mk b u => cases b <;> rfl

/-- What an interrupt leaves of a state (R290, R291). -/
theorem State.interrupt_keeps (s : State) (c : Word) : ListenerKeeps s (s.interrupt c) := by
  unfold State.interrupt
  split
  · exact ⟨rfl, rfl, rfl, rfl, rfl, ⟨rfl, rfl⟩, rfl, rfl, id, id⟩
  · have h := s.offer_keeps c s.config.listeners
    split
    · next t e => rw [e] at h; exact h
    · next t e =>
      rw [e] at h
      exact h.trans ⟨rfl, rfl, rfl, rfl, rfl, ⟨rfl, rfl⟩, rfl, rfl, id, id⟩

/-- Without listeners an interrupt changes the interrupt state only. -/
theorem State.interrupt_no_listeners (s : State) (c : Word) (h : s.config.listeners = []) :
    s.interrupt c = s.recordInterrupt c := by
  unfold State.interrupt
  rw [h]
  simp [State.offer]

/-- An interrupt sets INTERRUPTED (R290), unless there is a listener to handle it. -/
theorem State.interrupt_interrupted (s : State) (c : Word) :
    (s.interrupt c).interrupted = true ∨ s.config.listeners ≠ [] := by
  by_cases hl : s.config.listeners = []
  · exact .inl (by rw [State.interrupt_no_listeners s c hl]; rfl)
  · exact .inr hl

/-- The step counter after an interrupt is the one its listeners leave: recording an interrupt counts nothing. -/
theorem State.interrupt_leave (s : State) (c : Word) :
    ∃ u, ListenersLeave s c u ∧ (s.interrupt c).stepCount = u.stepCount := by
  unfold State.interrupt
  split
  · next h => exact ⟨s, .inl ⟨h, rfl⟩, rfl⟩
  · next h =>
    refine ⟨_, .inr ⟨h, _, s.offer_offered c s.config.listeners⟩, ?_⟩
    split <;> next t e => simp [e]

/-- A code that is not 0: offered to the listeners, and recorded if none handles it (R290). -/
theorem State.interrupt_offered (s : State) (c : Word) (h : c ≠ 0) :
    ∃ handled u, Offered s c s.config.listeners handled u ∧
      s.interrupt c = if handled then u else u.recordInterrupt c := by
  refine ⟨_, _, s.offer_offered c s.config.listeners, ?_⟩
  unfold State.interrupt
  rw [if_neg h]
  split
  · next t e => simp [e]
  · next t e => simp [e]

end Sys2Proof.Machine
end

