-- ==== Sys2Proof/Laws/PerInstr.lean ====
section
/-! SUPPORT. Statements made for each instruction: one lemma per constructor of `Instr`. -/

namespace Sys2Proof.Laws

/-- The encoding of an instruction has the length R90 and R115 give it, begins with its opcode byte, and lies within the
bounds of R91. -/
def EncodedSize.Statement (i : Instr) : Prop :=
  (encode i).length = i.encodedLength ∧ (encode i).head? = some i.opcode ∧
    1 ≤ i.encodedLength ∧ i.encodedLength ≤ maxLength

theorem EncodedSize.of_operands (i : Instr) (h : i.operands.length ≤ 3) : EncodedSize.Statement i := by
  refine ⟨encode_length i, rfl, by simp [Instr.encodedLength], ?_⟩
  have key : ∀ l : List Operand, (l.map Operand.encodedLength).sum ≤ 14 * l.length := by
    intro l
    induction l with
    | nil => simp
    | cons a l ih =>
      have := (Operand.encodedLength_bounds a).2
      simp only [List.map_cons, List.sum_cons, List.length_cons]
      omega
  have := key i.operands
  unfold Instr.encodedLength maxLength
  omega

theorem EncodedSize.nop : EncodedSize.Statement .nop :=
  EncodedSize.of_operands _ (by simp [Instr.operands])

theorem EncodedSize.mov (dst src : Operand) : EncodedSize.Statement (.mov dst src) :=
  EncodedSize.of_operands _ (by simp [Instr.operands])

theorem EncodedSize.xchg (a b : Operand) : EncodedSize.Statement (.xchg a b) :=
  EncodedSize.of_operands _ (by simp [Instr.operands])

theorem EncodedSize.lea (dst src : Operand) : EncodedSize.Statement (.lea dst src) :=
  EncodedSize.of_operands _ (by simp [Instr.operands])

theorem EncodedSize.inc (dst : Operand) : EncodedSize.Statement (.inc dst) :=
  EncodedSize.of_operands _ (by simp [Instr.operands])

theorem EncodedSize.dec (dst : Operand) : EncodedSize.Statement (.dec dst) :=
  EncodedSize.of_operands _ (by simp [Instr.operands])

theorem EncodedSize.add (dst src : Operand) : EncodedSize.Statement (.add dst src) :=
  EncodedSize.of_operands _ (by simp [Instr.operands])

theorem EncodedSize.adc (dst src : Operand) : EncodedSize.Statement (.adc dst src) :=
  EncodedSize.of_operands _ (by simp [Instr.operands])

theorem EncodedSize.sub (dst src : Operand) : EncodedSize.Statement (.sub dst src) :=
  EncodedSize.of_operands _ (by simp [Instr.operands])

theorem EncodedSize.sbb (dst src : Operand) : EncodedSize.Statement (.sbb dst src) :=
  EncodedSize.of_operands _ (by simp [Instr.operands])

theorem EncodedSize.neg (dst : Operand) : EncodedSize.Statement (.neg dst) :=
  EncodedSize.of_operands _ (by simp [Instr.operands])

theorem EncodedSize.mul (dst src : Operand) : EncodedSize.Statement (.mul dst src) :=
  EncodedSize.of_operands _ (by simp [Instr.operands])

theorem EncodedSize.imul (dst src : Operand) : EncodedSize.Statement (.imul dst src) :=
  EncodedSize.of_operands _ (by simp [Instr.operands])

theorem EncodedSize.div (dst src : Operand) : EncodedSize.Statement (.div dst src) :=
  EncodedSize.of_operands _ (by simp [Instr.operands])

theorem EncodedSize.idiv (dst src : Operand) : EncodedSize.Statement (.idiv dst src) :=
  EncodedSize.of_operands _ (by simp [Instr.operands])

theorem EncodedSize.mod (dst src : Operand) : EncodedSize.Statement (.mod dst src) :=
  EncodedSize.of_operands _ (by simp [Instr.operands])

theorem EncodedSize.imod (dst src : Operand) : EncodedSize.Statement (.imod dst src) :=
  EncodedSize.of_operands _ (by simp [Instr.operands])

theorem EncodedSize.and (dst src : Operand) : EncodedSize.Statement (.and dst src) :=
  EncodedSize.of_operands _ (by simp [Instr.operands])

theorem EncodedSize.or (dst src : Operand) : EncodedSize.Statement (.or dst src) :=
  EncodedSize.of_operands _ (by simp [Instr.operands])

theorem EncodedSize.xor (dst src : Operand) : EncodedSize.Statement (.xor dst src) :=
  EncodedSize.of_operands _ (by simp [Instr.operands])

theorem EncodedSize.not (dst : Operand) : EncodedSize.Statement (.not dst) :=
  EncodedSize.of_operands _ (by simp [Instr.operands])

theorem EncodedSize.shl (dst count : Operand) : EncodedSize.Statement (.shl dst count) :=
  EncodedSize.of_operands _ (by simp [Instr.operands])

theorem EncodedSize.shr (dst count : Operand) : EncodedSize.Statement (.shr dst count) :=
  EncodedSize.of_operands _ (by simp [Instr.operands])

theorem EncodedSize.sal (dst count : Operand) : EncodedSize.Statement (.sal dst count) :=
  EncodedSize.of_operands _ (by simp [Instr.operands])

theorem EncodedSize.sar (dst count : Operand) : EncodedSize.Statement (.sar dst count) :=
  EncodedSize.of_operands _ (by simp [Instr.operands])

theorem EncodedSize.rol (dst count : Operand) : EncodedSize.Statement (.rol dst count) :=
  EncodedSize.of_operands _ (by simp [Instr.operands])

theorem EncodedSize.ror (dst count : Operand) : EncodedSize.Statement (.ror dst count) :=
  EncodedSize.of_operands _ (by simp [Instr.operands])

theorem EncodedSize.rcl (dst count : Operand) : EncodedSize.Statement (.rcl dst count) :=
  EncodedSize.of_operands _ (by simp [Instr.operands])

theorem EncodedSize.rcr (dst count : Operand) : EncodedSize.Statement (.rcr dst count) :=
  EncodedSize.of_operands _ (by simp [Instr.operands])

theorem EncodedSize.cmp (a b : Operand) : EncodedSize.Statement (.cmp a b) :=
  EncodedSize.of_operands _ (by simp [Instr.operands])

theorem EncodedSize.test (a b : Operand) : EncodedSize.Statement (.test a b) :=
  EncodedSize.of_operands _ (by simp [Instr.operands])

theorem EncodedSize.jmp (target : Operand) : EncodedSize.Statement (.jmp target) :=
  EncodedSize.of_operands _ (by simp [Instr.operands])

theorem EncodedSize.jz (target : Operand) : EncodedSize.Statement (.jz target) :=
  EncodedSize.of_operands _ (by simp [Instr.operands])

theorem EncodedSize.jnz (target : Operand) : EncodedSize.Statement (.jnz target) :=
  EncodedSize.of_operands _ (by simp [Instr.operands])

theorem EncodedSize.jc (target : Operand) : EncodedSize.Statement (.jc target) :=
  EncodedSize.of_operands _ (by simp [Instr.operands])

theorem EncodedSize.jnc (target : Operand) : EncodedSize.Statement (.jnc target) :=
  EncodedSize.of_operands _ (by simp [Instr.operands])

theorem EncodedSize.js (target : Operand) : EncodedSize.Statement (.js target) :=
  EncodedSize.of_operands _ (by simp [Instr.operands])

theorem EncodedSize.jns (target : Operand) : EncodedSize.Statement (.jns target) :=
  EncodedSize.of_operands _ (by simp [Instr.operands])

theorem EncodedSize.jo (target : Operand) : EncodedSize.Statement (.jo target) :=
  EncodedSize.of_operands _ (by simp [Instr.operands])

theorem EncodedSize.jno (target : Operand) : EncodedSize.Statement (.jno target) :=
  EncodedSize.of_operands _ (by simp [Instr.operands])

theorem EncodedSize.jp (target : Operand) : EncodedSize.Statement (.jp target) :=
  EncodedSize.of_operands _ (by simp [Instr.operands])

theorem EncodedSize.jnp (target : Operand) : EncodedSize.Statement (.jnp target) :=
  EncodedSize.of_operands _ (by simp [Instr.operands])

theorem EncodedSize.jl (target : Operand) : EncodedSize.Statement (.jl target) :=
  EncodedSize.of_operands _ (by simp [Instr.operands])

theorem EncodedSize.jge (target : Operand) : EncodedSize.Statement (.jge target) :=
  EncodedSize.of_operands _ (by simp [Instr.operands])

theorem EncodedSize.jle (target : Operand) : EncodedSize.Statement (.jle target) :=
  EncodedSize.of_operands _ (by simp [Instr.operands])

theorem EncodedSize.jg (target : Operand) : EncodedSize.Statement (.jg target) :=
  EncodedSize.of_operands _ (by simp [Instr.operands])

theorem EncodedSize.call (target : Operand) : EncodedSize.Statement (.call target) :=
  EncodedSize.of_operands _ (by simp [Instr.operands])

theorem EncodedSize.ret (count : Operand) : EncodedSize.Statement (.ret count) :=
  EncodedSize.of_operands _ (by simp [Instr.operands])

theorem EncodedSize.push (src : Operand) : EncodedSize.Statement (.push src) :=
  EncodedSize.of_operands _ (by simp [Instr.operands])

theorem EncodedSize.pop (dst : Operand) : EncodedSize.Statement (.pop dst) :=
  EncodedSize.of_operands _ (by simp [Instr.operands])

theorem EncodedSize.pushf : EncodedSize.Statement .pushf :=
  EncodedSize.of_operands _ (by simp [Instr.operands])

theorem EncodedSize.popf : EncodedSize.Statement .popf :=
  EncodedSize.of_operands _ (by simp [Instr.operands])

theorem EncodedSize.pusha : EncodedSize.Statement .pusha :=
  EncodedSize.of_operands _ (by simp [Instr.operands])

theorem EncodedSize.popa : EncodedSize.Statement .popa :=
  EncodedSize.of_operands _ (by simp [Instr.operands])

theorem EncodedSize.inp (port address dst : Operand) : EncodedSize.Statement (.inp port address dst) :=
  EncodedSize.of_operands _ (by simp [Instr.operands])

theorem EncodedSize.out (port address src : Operand) : EncodedSize.Statement (.out port address src) :=
  EncodedSize.of_operands _ (by simp [Instr.operands])

theorem EncodedSize.int (code : Operand) : EncodedSize.Statement (.int code) :=
  EncodedSize.of_operands _ (by simp [Instr.operands])

end Sys2Proof.Laws
end

