-- ==== Sys2Proof/Laws/Rules.lean ====
section
/-! SUPPORT. Laws the statements about whole instructions share: congruence of frames and results in the fields they
read, the flag-only and the jump rules, and the bits of a rotation. -/

namespace Sys2Proof.Machine

/-! ## Congruence -/

theorem isImm_of_writable {s : State} {op : Operand} (h : s.writable op = true) : Operand.isImm op = false := by
  simp only [State.writable, Bool.and_eq_true, Bool.not_eq_true'] at h
  exact h.1

theorem Frame.of_slots {s t u : State} {r f b} (h : Frame s t r f b) (hs : u.slots = t.slots) (hm : u.mem = t.mem) (hc : u.config = t.config) (hi : u.ip0 = t.ip0) (ho : u.opc = t.opc) : Frame s u r f b :=
  ⟨fun r h1 h2 => by rw [State.get_congr hs]; exact h.otherRegs r h1 h2, fun h1 i h2 h3 => by rw [State.get_congr hs]; exact h.otherBits h1 i h2 h3,
   fun a ha => by rw [hm]; exact h.otherBytes a ha, hc.trans h.config, hi.trans h.ip0, ho.trans h.opc⟩

theorem Frame.of_slots_left {s s' t : State} {r f b} (h : Frame s t r f b) (hs : s'.slots = s.slots) (hm : s'.mem = s.mem) (hc : s'.config = s.config) (hi : s'.ip0 = s.ip0) (ho : s'.opc = s.opc) : Frame s' t r f b :=
  ⟨fun r h1 h2 => by rw [State.get_congr hs]; exact h.otherRegs r h1 h2, fun h1 i h2 h3 => by rw [State.get_congr hs]; exact h.otherBits h1 i h2 h3,
   fun a ha => by rw [hm]; exact h.otherBytes a ha, h.config.trans hc.symm, h.ip0.trans hi.symm, h.opc.trans ho.symm⟩

theorem Holds.of_eq {p p' o o' n n' : State} {d v f} (h : Holds p o n d v f) (hp : p'.slots = p.slots) (hpc : p'.config = p.config)
    (ho : o'.slots = o.slots) (hn : n'.slots = n.slots) (hm : n'.mem = n.mem) (hc : n'.config = n.config) : Holds p' o' n' d v f := by
  cases d with
  | imm w l => exact h
  | reg r =>
    intro i hi hh
    rw [State.get_congr hn, State.get_congr ho]; exact h i hi hh
  | mem w g m =>
    have ha : p'.memAddr g m = p.memAddr g m := by
      have hg : ∀ r, p'.get r = p.get r := fun r => State.get_congr hp r
      cases m <;> simp [State.memAddr, State.phys, State.memSize, hpc, State.ea, State.getRef, hg]
    intro i hi
    simp only [ha, hm, State.memSize, hc]
    exact h i hi

/-! ## Flag-only instructions and jumps -/

theorem flags_ok (s : State) (a b : Operand) (ha : s.readable a = true) (hb : s.readable b = true)
    (op : Nat → Nat → Nat → FlagWrites) (W r : Nat) (cf of : Bool)
    (h : op a.width.bits (s.readOp a).toNat (truncNat a.width.bits (s.readOp b)) = [(.cf, cf), (.of, of)] ++ setZSP W r) :
    ∃ t, flagsRule op a b s = .next t ∧ FlagsOnly s t allFlags ∧ AluFlags t W r cf of ∧ t = (s.clearPending.writeFlags ([(.cf, cf), (.of, of)] ++ setZSP W r)).complete := by
  have hc : s.check [(.r, a), (.r, b)] [] = none :=
    s.check_of_access _ _ (by simp [Role.writes, ha, hb]) (by simp)
  set t := s.clearPending.writeFlags ([(.cf, cf), (.of, of)] ++ setZSP W r) with ht
  have hpend : t.pending = none := by simp [ht]
  have hcs := State.complete_slots hpend
  have f := State.writeFlags_frame s.clearPending ([(.cf, cf), (.of, of)] ++ setZSP W r)
  refine ⟨t.complete, runRule_ok (rule := fun s => .ok (s.writeFlags (op a.width.bits (s.readOp a).toNat (truncNat a.width.bits (s.readOp b))))) hc ?_, ?_, ?_, rfl⟩
  · simp only [State.clearPending_readOp, h]; rfl
  · refine ⟨⟨fun r h1 h2 => ?_, fun h1 i h2 h3 => ?_, fun x hx => ?_, by simp [ht], by simp [ht], by simp [ht]⟩, ⟨⟨by simp [ht], by simp⟩, ⟨by simp [ht], by simp [ht]⟩, ⟨by simp [ht], by simp [ht]⟩, ⟨by simp [ht], by simp [ht]⟩, by simp [ht]⟩⟩
    · rw [State.get_congr hcs]; exact f.otherRegs r h1 h2
    · rw [State.get_congr hcs]; exact f.otherBits (by simp) i h2 (fun hh => h3 ((isFlagBit_congr (aluFlags_names W r cf of) i).1 hh))
    · simp [ht]
  · exact (writeFlags_alu s.clearPending W r cf of).congr fun f => by rw [Flag.flag_congr hcs]

theorem trunc_lt (W : Nat) (v : Word) : truncNat W v < 2 ^ W := Nat.mod_lt _ (by positivity)

theorem jump_taken (s : State) (target : Operand) (cond : State → Bool) (h : s.readable target = true) (hc : cond s.clearPending = true) :
    jumpRule cond target s = .next (s.counted.set .rip (s.readOp target)) := by
  have hch : s.check [(.t, target)] [] = none := s.check_of_access _ _ (by simp [Role.writes, h]) (by simp)
  rw [jumpRule, runRule_ok (t := s.clearPending.jump (s.readOp target)) hch (by simp [hc])]
  rfl

theorem jump_untaken (s : State) (target : Operand) (cond : State → Bool) (h : s.readable target = true) (hc : cond s.clearPending = false) :
    jumpRule cond target s = .next s.counted := by
  have hch : s.check [(.t, target)] [] = none := s.check_of_access _ _ (by simp [Role.writes, h]) (by simp)
  rw [jumpRule, runRule_ok (t := s.clearPending) hch (by simp [hc])]
  rfl

theorem jump_law (s : State) (target : Operand) (cond : State → Bool) (P : Prop) (h : s.readable target = true) (hP : cond s.clearPending = true ↔ P) :
    (P → jumpRule cond target s = .next (s.counted.set .rip (s.readOp target))) ∧ (¬ P → jumpRule cond target s = .next s.counted) :=
  ⟨fun hp => jump_taken s target cond h (hP.2 hp), fun hp => jump_untaken s target cond h (by
    cases hh : cond s.clearPending
    · rfl
    · exact absurd (hP.1 hh) hp)⟩

theorem signedOf_inj {W x y : Nat} (hx : x < 2 ^ W) (hy : y < 2 ^ W) : signedOf W x = signedOf W y ↔ x = y := by
  constructor
  · intro h
    have := congrArg BitVec.toNat (BitVec.eq_of_toInt_eq h)
    simpa [Nat.mod_eq_of_lt hx, Nat.mod_eq_of_lt hy] using this
  · rintro rfl; rfl

/-! ## Rotations -/

/-- A left rotation of `N` bits by `k` places. -/
theorem rotl_testBit (N v k j : Nat) (hv : v < 2 ^ N) (hk : k < N) (hj : j < N) :
    ((v * 2 ^ k + v / 2 ^ (N - k)) % 2 ^ N).testBit j = if j < k then v.testBit (j + (N - k)) else v.testBit (j - k) := by
  have hq : v / 2 ^ (N - k) < 2 ^ k := by
    apply Nat.div_lt_of_lt_mul
    rwa [← pow_add, Nat.sub_add_cancel (by omega)]
  rw [Nat.testBit_mod_two_pow, mul_comm v, Nat.testBit_two_pow_mul_add _ hq]
  simp only [hj, decide_true, Bool.true_and]
  split
  · rw [Nat.testBit_div_two_pow, Nat.add_comm]
  · rfl

theorem rotr_testBit (N v k j : Nat) (hv : v < 2 ^ N) (hk : k < N) (hj : j < N) :
    ((v / 2 ^ k + v * 2 ^ (N - k)) % 2 ^ N).testBit j = if j < N - k then v.testBit (j + k) else v.testBit (j - (N - k)) := by
  have hq : v / 2 ^ k < 2 ^ (N - k) := by
    apply Nat.div_lt_of_lt_mul
    rwa [← pow_add, show k + (N - k) = N by omega]
  rw [Nat.testBit_mod_two_pow, Nat.add_comm, mul_comm v, Nat.testBit_two_pow_mul_add _ hq]
  simp only [hj, decide_true, Bool.true_and]
  split
  · rw [Nat.testBit_div_two_pow, Nat.add_comm]
  · rfl

theorem rot_index (N c i : Nat) (hi : i < N) : (i + c) % N = if i + c % N < N then i + c % N else i + c % N - N := by
  have hk : c % N < N := Nat.mod_lt _ (by omega)
  rw [Nat.add_mod, Nat.mod_eq_of_lt hi]
  split
  · rw [Nat.mod_eq_of_lt (by assumption)]
  · rw [Nat.mod_eq_sub_mod (by omega), Nat.mod_eq_of_lt (by omega)]

theorem rotl_spec (N v c i : Nat) (hv : v < 2 ^ N) (hi : i < N) :
    ((v * 2 ^ (c % N) + v / 2 ^ (N - c % N)) % 2 ^ N).testBit ((i + c) % N) = v.testBit i := by
  have hk : c % N < N := Nat.mod_lt _ (by omega)
  rw [rotl_testBit N v _ _ hv hk (Nat.mod_lt _ (by omega)), rot_index N c i hi]
  split
  · split
    · congr 1; omega
    · congr 1; omega
  · split
    · congr 1; omega
    · congr 1; omega

theorem rotr_spec (N v c i : Nat) (hv : v < 2 ^ N) (hi : i < N) :
    ((v / 2 ^ (c % N) + v * 2 ^ (N - c % N)) % 2 ^ N).testBit i = v.testBit ((i + c) % N) := by
  have hk : c % N < N := Nat.mod_lt _ (by omega)
  rw [rotr_testBit N v _ _ hv hk hi, rot_index N c i hi]
  split
  · split
    · rfl
    · omega
  · split
    · omega
    · congr 1; omega

end Sys2Proof.Machine
end

