-- ==== Sys2Proof/Laws/Stack.lean ====
section
/-! SUPPORT. What a push and a pop do to memory, to the stack history and to the diagnostics, once each, and the same
for the lists of PUSHA and POPA. -/

namespace Sys2Proof.Machine

/-! ## One slot in memory -/

theorem mem_byteRange {size p n a : Nat} : a ∈ byteRange size p n ↔ ∃ i, i < n ∧ (p + i) % size = a := by
  simp [byteRange]

theorem storedByte_of_mem {size p n i : Nat} (v : Word) (b : Byte) (hn : n ≤ size) (hi : i < n) :
    storedByte size p n v ((p + i) % size) b = BitVec.ofNat 8 (v.toNat / 256 ^ i) := by
  unfold storedByte
  have hs : ((List.range n).find? fun j => decide ((p + j) % size = (p + i) % size)) = some i := by
    rw [List.find?_range_eq_some]
    refine ⟨by simp, by simpa using hi, fun j hj => ?_⟩
    have : (p + j) % size ≠ (p + i) % size := fun e => by
      have := add_mod_inj (size := size) (by omega) (by omega) e
      omega
    simp [this]
  rw [hs]

theorem storedByte_of_notMem {size p n a : Nat} (v : Word) (b : Byte) (ha : a ∉ byteRange size p n) :
    storedByte size p n v a b = b := by
  unfold storedByte
  have hs : ((List.range n).find? fun j => decide ((p + j) % size = a)) = none := by
    rw [List.find?_eq_none]
    intro j hj e
    exact ha (mem_byteRange.2 ⟨j, by simpa using hj, by simpa using e⟩)
  rw [hs]

/-- The byte at `a` after a store of the low `n` bytes of `v`. -/
theorem State.memWrite_memGet (s : State) (p n : Nat) (v : Word) (a : Nat) (hn : n ≤ s.memSize) :
    Memory.get (s.memWrite p n v).mem a = storedByte s.memSize p n v a (Memory.get s.mem a) := by
  show Memory.get (Memory.writeBytes s.memSize s.mem p (leBytes n v.toNat)) a = _
  by_cases ha : a ∈ byteRange s.memSize p n
  · obtain ⟨i, hi, rfl⟩ := mem_byteRange.1 ha
    rw [storedByte_of_mem v _ hn hi, Memory.get_writeBytes _ _ _ _ _ (by simpa using hn) (by simpa using hi)]
    simp [leBytes_getElem]
  · rw [storedByte_of_notMem v _ ha, Memory.get_writeBytes_of_notMem]
    intro i hi e
    exact ha (mem_byteRange.2 ⟨i, by simpa using hi, e⟩)

theorem State.push_memGet (s : State) (n : Nat) (v : Word) (a : Nat) (hn : n ≤ s.memSize) :
    Memory.get (s.push n v).mem a =
      storedByte s.memSize (s.phys .ss (s.get .rsp - BitVec.ofNat 64 n)) n v a (Memory.get s.mem a) := by
  rw [← State.memWrite_memGet s _ _ _ _ hn]
  simp [State.push_mem, State.memWrite]

/-- Memory that holds the bytes of a value reads as that value, cut to the width. -/
theorem State.memRead_of_holds (t : State) (p n : Nat) (v : Word) (h : t.memHolds p n v) :
    (t.memRead p n).toNat = v.toNat % 256 ^ n := by
  have hb : Memory.readBytes t.memSize t.mem p n = leBytes n v.toNat := by
    apply List.ext_getElem (by simp)
    intro i h1 h2
    rw [Memory.readBytes_getElem, leBytes_getElem]
    exact h i (by simpa using h1)
  have hlt : v.toNat % 256 ^ n < 2 ^ 64 := lt_of_le_of_lt (Nat.mod_le _ _) v.isLt
  unfold State.memRead
  rw [hb, leNat_leBytes, BitVec.toNat_ofNat, Nat.mod_eq_of_lt hlt]

theorem State.memRead8_of_holds (t : State) (p : Nat) (v : Word) (h : t.memHolds p 8 v) : t.memRead p 8 = v := by
  apply BitVec.eq_of_toNat_eq
  rw [t.memRead_of_holds p 8 v h]
  exact Nat.mod_eq_of_lt (word_lt_8 v)

theorem State.memRead_congr {s t : State} (p n : Nat) (hc : t.config = s.config)
    (h : ∀ a ∈ byteRange s.memSize p n, Memory.get t.mem a = Memory.get s.mem a) : t.memRead p n = s.memRead p n := by
  have hz : t.memSize = s.memSize := by simp [State.memSize, hc]
  unfold State.memRead
  rw [hz]
  congr 2
  apply List.ext_getElem (by simp)
  intro i h1 h2
  rw [Memory.readBytes_getElem, Memory.readBytes_getElem]
  exact h _ (mem_byteRange.2 ⟨i, by simpa using h1, rfl⟩)

/-! ## Several slots -/

theorem State.slotsStored_congr {s t : State} (hc : t.config = s.config) (hss : t.get .ss = s.get .ss) (a : Nat)
    (ws : List (Word × Word)) (b : Byte) : t.slotsStored a ws b = s.slotsStored a ws b := by
  induction ws generalizing b with
  | nil => rfl
  | cons w ws ih => simp only [State.slotsStored, ih, State.phys, State.memSize, hc, hss]

theorem State.slotsStored_of_notMem (s : State) (a : Nat) (ws : List (Word × Word)) (b : Byte)
    (h : ∀ w ∈ ws, a ∉ s.slotBytes w.1 8) : s.slotsStored a ws b = b := by
  induction ws generalizing b with
  | nil => rfl
  | cons w ws ih =>
    rw [State.slotsStored, storedByte_of_notMem _ _ (h w (by simp))]
    exact ih b fun w' hw => h w' (by simp [hw])

/-- Where no two slots share a byte, each byte of a slot is the one stored for it. -/
theorem State.slotsStored_of_mem (s : State) (ws : List (Word × Word)) (b : Nat → Byte)
    (hd : ws.Pairwise fun w w' => ∀ a ∈ s.slotBytes w.1 8, a ∉ s.slotBytes w'.1 8)
    {w : Word × Word} (hw : w ∈ ws) {i : Nat} (hi : i < 8) :
    s.slotsStored ((s.phys .ss w.1 + i) % s.memSize) ws (b ((s.phys .ss w.1 + i) % s.memSize)) =
      BitVec.ofNat 8 (w.2.toNat / 256 ^ i) := by
  have hm := s.memSize_pos
  suffices ∀ c : Byte, s.slotsStored ((s.phys .ss w.1 + i) % s.memSize) ws c =
      BitVec.ofNat 8 (w.2.toNat / 256 ^ i) from this _
  induction ws with
  | nil => simp at hw
  | cons x ws ih =>
    intro c
    rw [List.pairwise_cons] at hd
    rcases List.mem_cons.1 hw with rfl | hw
    · rw [State.slotsStored, storedByte_of_mem _ _ (by omega) hi]
      exact s.slotsStored_of_notMem _ _ _ fun w' hw' => hd.1 w' hw' _ (mem_byteRange.2 ⟨i, hi, rfl⟩)
    · rw [State.slotsStored]
      exact ih hd.2 hw _

/-- Two slots at linear addresses 8 apart or more, within the size of memory of each other, share no byte. -/
theorem slots_disjoint {size x y : Nat} (h1 : x + 8 ≤ y) (h2 : y + 8 ≤ x + size) :
    ∀ a ∈ byteRange size (x % size) 8, a ∉ byteRange size (y % size) 8 := by
  intro a ha hb
  obtain ⟨i, hi, rfl⟩ := mem_byteRange.1 ha
  obtain ⟨j, hj, e⟩ := mem_byteRange.1 hb
  rw [Nat.mod_add_mod, Nat.mod_add_mod, show y + j = x + (y - x + j) by omega] at e
  have := add_mod_inj (size := size) (p := x) (by omega) (by omega) e
  omega

/-- The physical index `k` below a stack offset, where the linear address does not wrap. -/
theorem State.phys_sub (s : State) (off : Word) (k : Nat) (h : k ≤ (off + s.get .ss * 16#64).toNat) :
    s.phys .ss (off - BitVec.ofNat 64 k) = ((off + s.get .ss * 16#64).toNat - k) % s.memSize := by
  have e : off - BitVec.ofNat 64 k + s.get .ss * 16#64 = off + s.get .ss * 16#64 - BitVec.ofNat 64 k := by
    rw [BitVec.sub_eq_add_neg, BitVec.sub_eq_add_neg, BitVec.add_assoc, BitVec.add_assoc,
      BitVec.add_comm (-BitVec.ofNat 64 k)]
  unfold State.phys physical
  rw [e]
  congr 1
  have := (off + s.get .ss * 16#64).isLt
  rw [BitVec.toNat_sub, BitVec.toNat_ofNat]
  omega

/-- Two slots below a stack offset, 8 apart or more and not wrapping, share no byte. -/
theorem State.slotBytes_disjoint (s : State) (off : Word) {j k : Nat} (hk : k ≤ (off + s.get .ss * 16#64).toNat)
    (h1 : j + 8 ≤ k) (h2 : k - j + 8 ≤ s.memSize) :
    (∀ a ∈ s.slotBytes (off - BitVec.ofNat 64 j) 8, a ∉ s.slotBytes (off - BitVec.ofNat 64 k) 8) := by
  intro a ha hb
  unfold State.slotBytes at ha hb
  rw [s.phys_sub off j (by omega)] at ha
  rw [s.phys_sub off k hk] at hb
  exact slots_disjoint (by omega) (by omega) a hb ha

/-! ## The outputs -/

theorem State.push_observed (s : State) (n : Nat) (v : Word) :
    (s.push n v).observed = s.observed.pushed v (s.get .rsp - BitVec.ofNat 64 n) n := by
  simp [State.observed, Observed.pushed, State.push, State.setHistory, State.memWrite]

theorem State.dropBelow_observed (s : State) (sp : Word) : (s.dropBelow sp).observed = s.observed.dropped sp := by
  unfold State.dropBelow State.setHistory Observed.dropped State.observed
  split
  · next h => simp only [h, if_true]
  · next h => simp only [h, if_false]

theorem State.popMove_observed (s : State) (n : Nat) :
    (s.popMove n).observed = s.observed.popped s.ip0 s.opc n (s.get .rsp) := by
  unfold State.popMove Observed.popped
  rw [State.dropBelow_observed]
  congr 1
  unfold State.checkPop
  cases h : s.history.getLast? with
  | none => simp [State.observed, State.diag, h]
  | some e =>
    by_cases he : e.address = s.get .rsp <;> simp [State.observed, State.diag, h, he]

/-- A pop moves RSP and no other register. -/
theorem State.popMove_slots (s : State) (n : Nat) :
    (s.popMove n).slots = (s.set .rsp (s.get .rsp + BitVec.ofNat 64 n)).slots := by
  have h1 : ∀ (u : State) (sp : Word), (u.dropBelow sp).slots = u.slots := by
    intro u sp
    unfold State.dropBelow State.setHistory
    split <;> rfl
  have h2 : ∀ (u : State) (p : Word), (u.checkPop p).slots = u.slots := by
    intro u p
    unfold State.checkPop
    split
    · split <;> rfl
    · rfl
  unfold State.popMove
  rw [h1, h2]

theorem State.observed_congr {s t : State} (h1 : t.history = s.history) (h2 : t.historyRev = s.historyRev)
    (h3 : t.diags = s.diags) : t.observed = s.observed := by simp [State.observed, h1, h2, h3]

@[simp] theorem State.clearPending_observed (s : State) : s.clearPending.observed = s.observed := rfl
@[simp] theorem State.set_observed (s : State) (r : Reg) (v : Word) : (s.set r v).observed = s.observed := rfl
@[simp] theorem State.jump_observed (s : State) (t : Word) : (s.jump t).observed = s.observed := rfl
@[simp] theorem State.complete_observed (s : State) : s.complete.observed = s.observed :=
  State.observed_congr (by simp) (by simp) (by simp)
@[simp] theorem State.writeOp_observed (p : State) (op : Operand) (v : Word) (s : State) :
    (p.writeOp op v s).observed = s.observed := State.observed_congr (by simp) (by simp) (by simp)

/-- What a completed instruction leaves of the outputs, from what its rule leaves. -/
theorem stackStep_complete {s u : State} {o : Observed} (hc : u.stepCount = s.stepCount)
    (hi : u.interrupted = s.interrupted) (hj : u.intCode = s.intCode) (hd : u.deviceLog = s.deviceLog)
    (hw : u.draws = s.draws) (ho : u.observed = o) : StackStep s u.complete o :=
  ⟨⟨by simp [hc], by simp⟩, ⟨by simp [hi], by simp [hj]⟩, ⟨by simp [hd], by simp [hw]⟩, by simp [ho]⟩

/-! ## The lists of PUSHA and POPA -/

/-- Pushes leave the pending jump and the devices alone. -/
theorem pushAll_rest (rs : List Reg) (s : State) :
    (s.pushAll rs).pending = s.pending ∧ (s.pushAll rs).deviceLog = s.deviceLog ∧
      (s.pushAll rs).draws = s.draws := ⟨by simp, by simp, by simp⟩

/-- Pops leave the pending jump and the devices alone. -/
theorem popAll_rest (rs : List Reg) (s : State) :
    (s.popAll rs).pending = s.pending ∧ (s.popAll rs).deviceLog = s.deviceLog ∧
      (s.popAll rs).draws = s.draws := ⟨by simp, by simp, by simp⟩

theorem pushAll_law (rs : List Reg) (s : State) (h : .rsp ∉ rs) :
    (s.pushAll rs).get .rsp = s.get .rsp - BitVec.ofNat 64 (8 * rs.length) ∧
    (∀ a, Memory.get (s.pushAll rs).mem a = s.slotsStored a
      (rs.zipIdx.map fun (r, i) => (s.get .rsp - BitVec.ofNat 64 (8 * (i + 1)), s.get r)) (Memory.get s.mem a)) ∧
    (s.pushAll rs).observed =
      (rs.zipIdx.map fun (r, i) => (s.get .rsp - BitVec.ofNat 64 (8 * (i + 1)), s.get r)).foldl
        (fun o k => o.pushed k.2 k.1 8) s.observed := by
  induction rs generalizing s with
  | nil => simp [State.pushAll, State.slotsStored]
  | cons r rs ih =>
    have hr : r ≠ .rsp := fun e => h (by simp [e])
    obtain ⟨h1, h2, h3⟩ := ih (s.push 8 (s.get r)) (fun e => h (by simp [e]))
    have hm := s.memSize_pos
    have hsp : (s.push 8 (s.get r)).get .rsp = s.get .rsp - 8 := by simp
    have hshift : ∀ i : Nat, s.get .rsp - 8 - BitVec.ofNat 64 (8 * (i + 1)) =
        s.get .rsp - BitVec.ofNat 64 (8 * (i + 1 + 1)) := by
      intro i
      rw [BitVec.sub_sub]
      congr 1
      apply BitVec.eq_of_toNat_eq
      have h8 : (8 : Word).toNat = 8 := rfl
      simp only [BitVec.toNat_add, BitVec.toNat_ofNat, h8]
      omega
    have hlist : (rs.zipIdx.map fun (q, i) => ((s.push 8 (s.get r)).get .rsp - BitVec.ofNat 64 (8 * (i + 1)),
          (s.push 8 (s.get r)).get q)) =
        (rs.zipIdx.map fun (q, i) => (s.get .rsp - BitVec.ofNat 64 (8 * (i + 1 + 1)), s.get q)) := by
      apply List.map_congr_left
      rintro ⟨q, i⟩ hq
      have hq' : q ≠ .rsp := fun e => h (by
        have := (List.mem_zipIdx hq).2.2
        subst e
        rw [this]
        simp)
      simp only [hsp, hshift, Prod.mk.injEq, true_and]
      simp [hq']
    have hc : ((r :: rs).zipIdx.map fun (q, i) => (s.get .rsp - BitVec.ofNat 64 (8 * (i + 1)), s.get q)) =
        (s.get .rsp - 8, s.get r) ::
          (rs.zipIdx.map fun (q, i) => (s.get .rsp - BitVec.ofNat 64 (8 * (i + 1 + 1)), s.get q)) := by
      rw [List.zipIdx_cons', List.map_cons, List.map_map]
      rfl
    rw [hlist] at h2 h3
    rw [hc]
    refine ⟨?_, fun a => ?_, ?_⟩
    · rw [State.pushAll, h1, hsp, List.length_cons]
      cases hl : rs.length with
      | zero => simp
      | succ k => exact hshift k
    · rw [State.pushAll, h2, State.push_memGet _ _ _ _ (by omega), State.slotsStored_congr (s := s) (by simp) (by simp)]
      rfl
    · rw [State.pushAll, h3, State.push_observed, List.foldl_cons]
      rfl

theorem popAll_get (rs : List Reg) (s : State) (r : Reg) (h1 : r ≠ .rsp) (h2 : r ∉ rs) :
    (s.popAll rs).get r = s.get r := by
  induction rs generalizing s with
  | nil => rfl
  | cons q rs ih =>
    rw [State.popAll, ih _ (fun e => h2 (by simp [e])), State.get_set_of_ne _ _ (fun e => h2 (by simp [e]))]
    simp [h1]

theorem popAll_law (rs : List Reg) (s : State) (h1 : .rsp ∉ rs) (h2 : .ss ∉ rs) (hn : rs.Nodup) :
    (s.popAll rs).get .rsp = s.get .rsp + BitVec.ofNat 64 (8 * rs.length) ∧
    (∀ (i : Nat) (r : Reg), rs[i]? = some r →
      (s.popAll rs).get r = s.memRead (s.phys .ss (s.get .rsp + BitVec.ofNat 64 (8 * i))) 8) ∧
    (s.popAll rs).observed = (List.range rs.length).foldl
      (fun o i => o.popped s.ip0 s.opc 8 (s.get .rsp + BitVec.ofNat 64 (8 * i))) s.observed := by
  induction rs generalizing s with
  | nil => simp [State.popAll]
  | cons r rs ih =>
    have hr : r ≠ .rsp := fun e => h1 (by simp [e])
    have hr2 : r ≠ .ss := fun e => h2 (by simp [e])
    rw [List.nodup_cons] at hn
    obtain ⟨e1, e2, e3⟩ := ih ((s.popMove 8).set r (s.popValue 8)) (fun e => h1 (by simp [e])) (fun e => h2 (by simp [e])) hn.2
    have hsp : ((s.popMove 8).set r (s.popValue 8)).get .rsp = s.get .rsp + 8 := by simp [hr.symm]
    have hshift : ∀ i : Nat, s.get .rsp + 8 + BitVec.ofNat 64 (8 * i) = s.get .rsp + BitVec.ofNat 64 (8 * (i + 1)) := by
      intro i
      rw [BitVec.add_assoc]
      congr 1
      apply BitVec.eq_of_toNat_eq
      have h8 : (8 : Word).toNat = 8 := rfl
      simp only [BitVec.toNat_add, BitVec.toNat_ofNat, h8]
      omega
    rw [hsp] at e1 e2 e3
    refine ⟨?_, fun i q hq => ?_, ?_⟩
    · rw [State.popAll, e1, hshift]; rfl
    · rw [State.popAll]
      cases i with
      | zero =>
        simp only [List.getElem?_cons_zero, Option.some.injEq] at hq
        subst hq
        rw [popAll_get _ _ _ hr hn.1, State.get_set_self]
        simp [State.popValue]
      | succ i =>
        rw [e2 i q (by simpa using hq), hshift]
        have hp : ∀ off, ((s.popMove 8).set r (s.popValue 8)).phys .ss off = s.phys .ss off := by
          intro off; simp [State.phys, State.memSize, hr2.symm]
        rw [hp]
        simp [State.memRead, State.memSize]
    · rw [State.popAll, e3, List.length_cons, List.range_succ_eq_map, List.foldl_cons, List.foldl_map]
      simp only [State.set_observed, State.popMove_observed, hshift]
      simp

end Sys2Proof.Machine
end

