-- ==== Sys2Proof/Laws/Step.lean ====
section
/-! SUPPORT. What a whole step can do, said once: its two cases, what an executed instruction keeps, how the first
violation is the failing check, what a decoded instruction looks like, and regions and memory as numbers. -/

namespace Sys2Proof.Machine

/-! ## Execute -/

theorem completed_complete (s t : State) (h : t.stepCount = s.stepCount) : Completed s t.complete :=
  ⟨by simp [h], by simp⟩

/-- An instruction whose rule did not raise completes: one step counted, no jump left. -/
theorem body_completed {i : Instr} {s t : State} (h : BodyEffect i s t) : InstrCompleted i s t.complete := by
  cases i
  case int c =>
    have h : t = s.clearPending.interrupt (s.readOp c) := h
    obtain ⟨u, hu, hc⟩ := s.interrupt_leave (s.readOp c)
    refine ⟨u, hu, ?_⟩
    have hk : t.stepCount = u.stepCount := by rw [h, State.interrupt_clearPending, ← hc]; rfl
    exact completed_complete u t hk
  all_goals exact completed_complete s t h.1.stepCount

theorem head_filterMap {α β : Type} (f : α → Option β) (l : List α) : (l.filterMap f).head? = l.findSome? f := by
  induction l with
  | nil => rfl
  | cons a l ih => simp only [List.filterMap_cons, List.findSome?_cons]; cases f a <;> simp [ih]

theorem head_append {β : Type} (a b : List β) : (a ++ b).head? = a.head?.or b.head? := by
  cases a <;> simp

theorem violations_head (i : Instr) (s : State) : (s.violations i).head? = s.check (Instr.roles i) (Instr.slots s i) := by
  unfold State.violations State.check
  rw [head_append, head_append, head_append, head_filterMap, head_filterMap, head_filterMap, head_filterMap]
  have h1 : roleViolation = roleError := by
    funext ⟨ro, o⟩
    cases ro <;> cases o <;> simp [roleViolation, roleError, Role.writes, Operand.isImm, Operand.isMem]
  have h2 : regionViolation = regionError := by
    funext ⟨ro, o⟩; rfl
  have h3 : s.boundsViolation = s.boundsError := by
    funext ⟨ro, o⟩
    cases ro <;> cases o <;> simp [State.boundsViolation, State.boundsError, State.reaches]
  have h4 : s.slotViolation = s.slotError := by
    funext ⟨ro, o⟩; rfl
  rw [h1, h2, h3, h4, Option.or_assoc, Option.or_assoc]

theorem next_inj {a b : State} (h : (Host.Outcome.next a : Outcome) = .next b) : a = b := by cases h; rfl

theorem failed_frame (s : State) (e) (r f b) : Frame s (s.failed e) r f b :=
  ⟨fun _ _ _ => rfl, fun _ _ _ _ => rfl, fun _ _ => rfl, rfl, rfl, rfl⟩

theorem complete_frame {i : Instr} {s t : State} {f b} (h : Frame s t (Instr.mayWriteRegs i) f b)
    (hp : t.pending = none ∨ ∃ x, t.pending = some { ip := x, seg := none } ∧ Reg.rip ∈ Instr.implicitRegs i) :
    Frame s t.complete (Instr.mayWriteRegs i) f b := by
  rcases hp with hp | ⟨x, hp, hm⟩
  · refine ⟨fun r h1 h2 => ?_, fun h1 j h2 h3 => ?_, fun a ha => ?_, ?_, ?_, ?_⟩
    · rw [State.complete_get _ hp]; exact h.otherRegs r h1 h2
    · rw [State.complete_get _ hp]; exact h.otherBits h1 j h2 h3
    · simpa using h.otherBytes a ha
    · simpa using h.config
    · simpa using h.ip0
    · simpa using h.opc
  · have hm' : Reg.rip ∈ Instr.mayWriteRegs i := by simp [Instr.mayWriteRegs, hm]
    refine ⟨fun r h1 h2 => ?_, fun h1 j h2 h3 => ?_, fun a ha => ?_, ?_, ?_, ?_⟩
    · rw [State.complete_get_jump _ x hp, if_neg (by rintro rfl; exact h2 hm')]; exact h.otherRegs r h1 h2
    · rw [State.complete_get_jump _ x hp, if_neg (by decide)]; exact h.otherBits h1 j h2 h3
    · simpa using h.otherBytes a ha
    · simpa using h.config
    · simpa using h.ip0
    · simpa using h.opc

theorem body_effect {i : Instr} {s t : State} (hi : ∀ c, i ≠ .int c) (h : BodyEffect i s t) :
    Effect s.clearPending t (Instr.mayWriteRegs i) (Instr.mayWriteFlags i) (s.mayWriteBytes i) ∧
      (t.pending = none ∨ ∃ x, t.pending = some { ip := x, seg := none } ∧ Reg.rip ∈ Instr.implicitRegs i) := by
  cases i
  case int c => exact absurd rfl (hi c)
  all_goals exact h

theorem clearFrame {s t : State} {r f b} (h : Frame s.clearPending t r f b) : Frame s t r f b :=
  ⟨h.otherRegs, h.otherBits, h.otherBytes, h.config, h.ip0, h.opc⟩

/-- What every executed instruction keeps, INT included. -/
structure Kept (i : Instr) (s t : State) : Prop where
  size : t.config.memSize = s.config.memSize
  policy : t.config.policy = s.config.policy
  registries : (∀ c, i ≠ .int c) ∨ s.config.listeners = [] → t.config = s.config
  wf : Memory.wf s.mem = true → Memory.wf t.mem = true
  within : Memory.within s.memSize s.mem = true → Memory.within s.memSize t.mem = true
  history : s.history.all HistoryEntry.wf = true → t.history.all HistoryEntry.wf = true
  pending : t.pending = none
  interrupted : s.interrupted = true → t.interrupted = true ∨ (∃ c, i = .int c) ∧ s.config.listeners ≠ []
  diags : ∃ new, t.diags = s.diags ++ new ∧ (∀ d ∈ new, d.ip0 = s.ip0 ∧ d.opc = s.opc) ∧
    (∀ d ∈ new, (∀ k, d.kind ≠ .info k) → new = [d] ∧ t.stepCount = s.stepCount)

theorem exec_kept (i : Instr) (s t : State) (h : exec i s = .next t) : Kept i s t := by
  rcases exec_law i s with ⟨e, he, _⟩ | ⟨_, _, u, hu, hb⟩
  · rw [he] at h; rw [← next_inj h]
    exact ⟨rfl, rfl, fun _ => rfl, id, id, id, rfl, .inl, [_], rfl, by simp, by simp [State.failed]⟩
  · rw [hu] at h; rw [← next_inj h]
    by_cases hi : ∀ c, i ≠ .int c
    · obtain ⟨h1, h2⟩ := body_effect hi hb
      obtain ⟨new, e1, e2⟩ := h1.diags
      have hc : u.complete.config = s.config := by simpa using h1.frame.config
      refine ⟨by rw [hc], by rw [hc], fun _ => hc, by simpa using h1.wf, by simpa using h1.within, by simpa using h1.history, by simp, ?_, new, by simpa using e1, ?_, ?_⟩
      · intro hh; exact .inl (by simpa using h1.interrupt.interrupted.trans hh)
      · intro d hd; exact ⟨(e2 d hd).1, (e2 d hd).2.1⟩
      · intro d hd hn; obtain ⟨k, hk⟩ := (e2 d hd).2.2; exact absurd hk (hn k)
    · push Not at hi
      obtain ⟨c, rfl⟩ := hi
      have hb : u = s.clearPending.interrupt (s.readOp c) := hb
      have hk := State.interrupt_keeps s.clearPending (s.readOp c)
      rw [← hb] at hk
      refine ⟨by simpa using hk.size, by simpa using hk.policy, ?_, by simpa using hk.wf, by simpa using hk.within, ?_, by simp, ?_, [], ?_, by simp, by simp⟩
      · rintro (hi | hl)
        · exact absurd rfl (hi c)
        · rw [State.complete_config, hb, State.interrupt_no_listeners s.clearPending _ hl]; rfl
      · intro hh; have := hk.history.history; simp at this; simpa [this] using hh
      · intro _
        rw [State.complete_interrupted, hb]
        exact (State.interrupt_interrupted s.clearPending _).imp id fun hl => ⟨⟨c, rfl⟩, hl⟩
      · simpa using hk.diags

theorem step_cases (s t : State) (h : step s = .next t) :
    (∃ e, s.decodeNext = .error e ∧ t = s.snapshot.raiseDecode e) ∨
    (∃ i len, s.decodeNext = .ok (i, len) ∧ exec i (s.beginExecute len) = .next t) := by
  unfold step at h
  split at h
  · next e he => exact .inl ⟨e, he, (next_inj h).symm⟩
  · next i len he => exact .inr ⟨i, len, he, h⟩

/-! ## Fetch -/

theorem memRead_byte (s : State) (p : Nat) : (s.memRead p 1) = (Memory.get s.mem (p % s.memSize)).setWidth 64 := by
  apply BitVec.eq_of_toNat_eq
  have := (Memory.get s.mem (p % s.memSize)).isLt
  simp [State.memRead, Memory.readBytes, leNat]

theorem fetch_opcode (s : State) : s.fetchField 0 .byte = .ok ((Memory.get s.mem (s.fetchAddr 0)).setWidth 64) := by
  have h : s.fetchAddr 0 < s.memSize := s.phys_lt .cs (s.get .rip + BitVec.ofNat 64 0)
  unfold State.fetchField
  have hb : s.inBounds (s.fetchAddr 0) Width.byte.bytes = true := by
    unfold State.inBounds
    split
    · rfl
    · exact decide_eq_true h
  rw [if_pos hb]
  simp only [Width.bytes]
  rw [memRead_byte, Nat.mod_eq_of_lt h]

theorem fetchAddr0 (s : State) : s.fetchAddr 0 = s.phys .cs (s.get .rip) := by
  simp [State.fetchAddr]

theorem fetch_ne (s : State) : ∀ k w, s.fetchField k w ≠ .error .unknownOpcode := by
  intro k w; unfold State.fetchField; split <;> simp

/-! ## Decoded instructions -/

/-- A byte read, and the byte an encoder writes for it: equal, or equal but for the unused bits 5:2 of a tag. -/
def Masked (b c : Byte) : Prop := b = c ∨ b = c &&& 0xC3#8

theorem masked_refl (l : List Byte) : List.Forall₂ Masked l l := by
  induction l with
  | nil => exact .nil
  | cons a l ih => exact .cons (.inl rfl) ih

theorem op_masked {bs : List Byte} {k k' : Nat} {op : Operand}
    (h : decodeOperand (listFetch bs) k = .ok (op, k')) :
    op.wellFormed = true ∧ k' = k + op.encodedLength ∧ k' ≤ bs.length ∧
      List.Forall₂ Masked op.encode ((bs.drop k).take op.encodedLength) := by
  obtain ⟨h1, h2, h3, tag, tl, h4, h5⟩ := decodeOperand_ok h
  exact ⟨h1, h2, h3, by rw [h4, h5]; exact .cons (.inr rfl) (masked_refl _)⟩

theorem body_ok {bs : List Byte} {opc : Nat} {i : Instr} {len : Nat} (h : decodeBody (listFetch bs) opc = .ok (i, len)) 
   (hb : 1 ≤ bs.length) :
    i.wellFormed = true ∧ i.opcode.toNat = opc ∧ len = i.encodedLength ∧ len ≤ bs.length ∧ i.operands.length ≤ 3 ∧
      List.Forall₂ Masked (i.operands.flatMap Operand.encode) ((bs.drop 1).take (len - 1)) := by
  have h1 : ∀ {mk : Operand → Instr}, (∀ a, (mk a).operands = [a]) → (∀ a, (mk a).opcode.toNat = opc) → decode1 (listFetch bs) mk = .ok (i, len) →
      i.wellFormed = true ∧ i.opcode.toNat = opc ∧ len = i.encodedLength ∧ len ≤ bs.length ∧ i.operands.length ≤ 3 ∧
      List.Forall₂ Masked (i.operands.flatMap Operand.encode) ((bs.drop 1).take (len - 1)) := by
    intro mk hm ho h
    obtain ⟨⟨a, k⟩, ha, h⟩ := bind_ok h
    cases h
    obtain ⟨a1, a2, a3, a4⟩ := op_masked ha
    refine ⟨by simp [Instr.wellFormed, hm, a1], ho a, by simp [Instr.encodedLength, hm, a2], a3, by simp [hm], ?_⟩
    simp only [hm, a2]; simpa using a4
  have h2 : ∀ {mk : Operand → Operand → Instr}, (∀ a b, (mk a b).operands = [a, b]) → (∀ a b, (mk a b).opcode.toNat = opc) → decode2 (listFetch bs) mk = .ok (i, len) →
      i.wellFormed = true ∧ i.opcode.toNat = opc ∧ len = i.encodedLength ∧ len ≤ bs.length ∧ i.operands.length ≤ 3 ∧
      List.Forall₂ Masked (i.operands.flatMap Operand.encode) ((bs.drop 1).take (len - 1)) := by
    intro mk hm ho h
    obtain ⟨⟨a, k⟩, ha, h⟩ := bind_ok h
    obtain ⟨⟨b, k2⟩, hb, h⟩ := bind_ok h
    cases h
    obtain ⟨a1, a2, a3, a4⟩ := op_masked ha
    obtain ⟨b1, b2, b3, b4⟩ := op_masked hb
    subst a2 b2
    refine ⟨by simp [Instr.wellFormed, hm, a1, b1], ho a b, by simp [Instr.encodedLength, hm]; omega, b3, by simp [hm], ?_⟩
    simp only [hm, List.flatMap_cons, List.flatMap_nil, List.append_nil]
    rw [show 1 + a.encodedLength + b.encodedLength - 1 = a.encodedLength + b.encodedLength by omega, take_drop_add]
    exact List.rel_append a4 b4
  have h3 : ∀ {mk : Operand → Operand → Operand → Instr}, (∀ a b c, (mk a b c).operands = [a, b, c]) → (∀ a b c, (mk a b c).opcode.toNat = opc) → decode3 (listFetch bs) mk = .ok (i, len) →
      i.wellFormed = true ∧ i.opcode.toNat = opc ∧ len = i.encodedLength ∧ len ≤ bs.length ∧ i.operands.length ≤ 3 ∧
      List.Forall₂ Masked (i.operands.flatMap Operand.encode) ((bs.drop 1).take (len - 1)) := by
    intro mk hm ho h
    obtain ⟨⟨a, k⟩, ha, h⟩ := bind_ok h
    obtain ⟨⟨b, k2⟩, hb, h⟩ := bind_ok h
    obtain ⟨⟨c, k3⟩, hc, h⟩ := bind_ok h
    cases h
    obtain ⟨a1, a2, a3, a4⟩ := op_masked ha
    obtain ⟨b1, b2, b3, b4⟩ := op_masked hb
    obtain ⟨c1, c2, c3, c4⟩ := op_masked hc
    subst a2 b2 c2
    refine ⟨by simp [Instr.wellFormed, hm, a1, b1, c1], ho a b c, by simp [Instr.encodedLength, hm]; omega, c3, by simp [hm], ?_⟩
    simp only [hm, List.flatMap_cons, List.flatMap_nil, List.append_nil]
    rw [show 1 + a.encodedLength + b.encodedLength + c.encodedLength - 1 = a.encodedLength + (b.encodedLength + c.encodedLength) by omega, take_drop_add, take_drop_add]
    exact List.rel_append a4 (List.rel_append b4 c4)
  have h0 : ∀ {j : Instr}, j.operands = [] → j.opcode.toNat = opc → (Except.ok (j, 1) : Except DecodeError _) = .ok (i, len) →
      i.wellFormed = true ∧ i.opcode.toNat = opc ∧ len = i.encodedLength ∧ len ≤ bs.length ∧ i.operands.length ≤ 3 ∧
      List.Forall₂ Masked (i.operands.flatMap Operand.encode) ((bs.drop 1).take (len - 1)) := by
    intro j hj ho h
    cases h
    exact ⟨by simp [Instr.wellFormed, hj], ho, by simp [Instr.encodedLength, hj], hb, by simp [hj], by simp [hj]⟩
  unfold decodeBody at h
  split at h
  all_goals first
    | exact h0 rfl rfl h
    | exact h1 (fun _ => rfl) (fun _ => rfl) h
    | exact h2 (fun _ _ => rfl) (fun _ _ => rfl) h
    | exact h3 (fun _ _ _ => rfl) (fun _ _ _ => rfl) h
    | cases h

/-! ## Regions and memory as numbers -/

theorem read_toNat (g : Region) (x : Word) : (Region.read g x).toNat = x.toNat / 2 ^ g.lo % 2 ^ g.width.bits := by
  apply Nat.eq_of_testBit_eq
  intro i
  rw [BitVec.testBit_toNat, Region.read_getLsbD, Nat.testBit_mod_two_pow, Nat.testBit_div_two_pow, BitVec.testBit_toNat, Nat.add_comm]

theorem write_toNat (g : Region) (x v : Word) : (Region.write g x v).toNat =
    x.toNat % 2 ^ g.lo + v.toNat % 2 ^ g.width.bits * 2 ^ g.lo + x.toNat / 2 ^ (g.lo + g.width.bits) * 2 ^ (g.lo + g.width.bits) := by
  have hle := Region.width_le g
  have h1 : x.toNat % 2 ^ g.lo < 2 ^ g.lo := Nat.mod_lt _ (by positivity)
  have h2 : v.toNat % 2 ^ g.width.bits < 2 ^ g.width.bits := Nat.mod_lt _ (by positivity)
  have e : x.toNat % 2 ^ g.lo + v.toNat % 2 ^ g.width.bits * 2 ^ g.lo + x.toNat / 2 ^ (g.lo + g.width.bits) * 2 ^ (g.lo + g.width.bits)
      = 2 ^ g.lo * (2 ^ g.width.bits * (x.toNat / 2 ^ (g.lo + g.width.bits)) + v.toNat % 2 ^ g.width.bits) + x.toNat % 2 ^ g.lo := by
    rw [pow_add]; ring
  rw [e]
  apply Nat.eq_of_testBit_eq
  intro i
  rw [BitVec.testBit_toNat, Nat.testBit_two_pow_mul_add _ h1]
  by_cases hi : i < 64
  · rw [Region.write_getLsbD _ _ _ _ hi]
    split
    · next h =>
      rw [if_neg (by omega), Nat.testBit_two_pow_mul_add _ h2, if_pos (by omega), Nat.testBit_mod_two_pow, BitVec.testBit_toNat]
      simp; omega
    · next h =>
      split
      · next hl => rw [Nat.testBit_mod_two_pow, BitVec.testBit_toNat]; simp [hl]
      · next hl =>
        rw [Nat.testBit_two_pow_mul_add _ h2, if_neg (by omega), Nat.testBit_div_two_pow, BitVec.testBit_toNat]
        congr 1; omega
  · rw [BitVec.getLsbD_of_ge _ _ (by omega), if_neg (by omega), Nat.testBit_two_pow_mul_add _ h2, if_neg (by omega), Nat.testBit_div_two_pow, BitVec.testBit_toNat, BitVec.getLsbD_of_ge _ _ (by omega)]

theorem leNat_sum (size : Nat) (m : Memory) (p n : Nat) : leNat (Memory.readBytes size m p n) =
    ((List.range n).map fun i => (Memory.get m ((p + i) % size)).toNat * 256 ^ i).sum := by
  induction n generalizing p with
  | zero => rfl
  | succ n ih =>
    rw [Memory.readBytes, leNat, ih, List.range_succ_eq_map, List.map_cons, List.sum_cons, List.map_map]
    congr 1
    · simp
    · rw [← List.sum_map_mul_left]
      congr 1
      apply List.map_congr_left
      intro i _
      simp only [Function.comp, Nat.succ_eq_add_one, pow_succ]
      rw [show p + 1 + i = p + (i + 1) by omega]; ring

end Sys2Proof.Machine
end

