-- ==== Sys2Proof/Tests/Slice0.lean ====
section
/-! SUPPORT. Own tests: the well-formedness smoke, one decoded word per constructor written out from 30_encoding.md and
the examples of the family files, at most two effects per instruction taken from those examples, and for each statement
with hypotheses a witness that meets them. Expected values are the spec's. -/

namespace Sys2Proof.Tests

open Sys2Proof Sys2Proof.Machine

/-! ## Builders -/

/-- `rax`, `eax`, `ax`, `al`, `rbx`, `rsp` as register operands. -/
def rax : Operand := .reg ⟨.rax, .qword⟩
def eax : Operand := .reg ⟨.rax, .dword⟩
def ax : Operand := .reg ⟨.rax, .word⟩
def al : Operand := .reg ⟨.rax, .lowByte⟩
def rbx : Operand := .reg ⟨.rbx, .qword⟩
def rsp : Operand := .reg ⟨.rsp, .qword⟩

/-- A byte and a qword immediate. -/
def imm8 (n : Nat) : Operand := .imm .byte (BitVec.ofNat 64 n)
def imm64 (n : Nat) : Operand := .imm .qword (BitVec.ofNat 64 n)

/-- A memory operand at a direct address of DS. -/
def at64 (a : Nat) : Operand := .mem .qword .noOverride (.direct (BitVec.ofNat 64 a))

/-- The machine after reset with some registers set, and a program stored at and run from offset `ip`. -/
def start (regs : List (Reg × Word)) (code : List Byte) (ip : Nat := 0) : State :=
  let s := (regs.foldl (fun s r => s.set r.1 r.2) State.reset).set .rip (BitVec.ofNat 64 ip)
  { s with mem := Memory.writeBytes s.memSize s.mem ip code }

/-- The same machine under another boundary policy, with other devices. -/
def State.withConfig (s : State) (p : BoundaryPolicy) (ds : List Device) : State :=
  { s with config := { s.config with policy := p, devices := ds } }

/-- A field of the state after one step. -/
def after {α : Type} (s : State) (f : State → α) : Option α :=
  match step s with
  | .next t => some (f t)
  | _ => none

/-- RFLAGS with the five named flags as given, every other bit 0 (R30). -/
def flagsWord (cf pf zf sf of : Nat) : Word := BitVec.ofNat 64 (cf + 4 * pf + 64 * zf + 128 * sf + 2048 * of)

/-! ## Well-formedness -/

theorem test_wf_byte_literal_256 : Instr.wellFormed (.mov al (imm8 256)) = false := by decide
theorem test_wf_byte_literal_255 : Instr.wellFormed (.mov al (imm8 255)) = true := by decide
theorem test_wf_word_literal : Operand.wellFormed (.imm .word 0x10000) = false := by decide
theorem test_wf_dword_literal : Operand.wellFormed (.imm .dword 0x100000000) = false := by decide

/-! ## Decoding: one word per constructor -/

theorem test_decode_nop : decodeBytes [0x01] = .ok (.nop, 1) := by decide
theorem test_decode_mov :
    decodeBytes [0x02, 0x02, 0x03, 0x83, 5, 0, 0, 0, 0, 0, 0, 0] =
      .ok (.mov eax (imm64 5), 12) := by decide
theorem test_decode_xchg : decodeBytes [0x03, 0x03, 0x04, 0x03, 0x0C] = .ok (.xchg rax rbx, 5) := by decide
theorem test_decode_lea :
    decodeBytes [0x04, 0x03, 0x04, 0x43, 0x47, 4, 0, 0, 0, 0, 0, 0, 0, 8, 0, 0x0C, 0x14] =
      .ok (.lea rax (.mem .qword .noOverride (.baseScaledDisp 4 8 ⟨.rbx, .qword⟩ ⟨.rcx, .qword⟩)), 17) := by decide
theorem test_decode_inc : decodeBytes [0x10, 0x00, 0x00] = .ok (.inc al, 3) := by decide
theorem test_decode_dec : decodeBytes [0x11, 0x00, 0x00] = .ok (.dec al, 3) := by decide
theorem test_decode_add : decodeBytes [0x12, 0x00, 0x00, 0x80, 1] = .ok (.add al (imm8 1), 5) := by decide
theorem test_decode_adc : decodeBytes [0x13, 0x00, 0x00, 0x80, 1] = .ok (.adc al (imm8 1), 5) := by decide
theorem test_decode_sub : decodeBytes [0x14, 0x00, 0x00, 0x80, 1] = .ok (.sub al (imm8 1), 5) := by decide
theorem test_decode_sbb : decodeBytes [0x15, 0x00, 0x00, 0x80, 1] = .ok (.sbb al (imm8 1), 5) := by decide
theorem test_decode_neg : decodeBytes [0x16, 0x00, 0x00] = .ok (.neg al, 3) := by decide
theorem test_decode_mul : decodeBytes [0x17, 0x00, 0x00, 0x80, 16] = .ok (.mul al (imm8 16), 5) := by decide
theorem test_decode_imul : decodeBytes [0x18, 0x00, 0x00, 0x80, 16] = .ok (.imul al (imm8 16), 5) := by decide
theorem test_decode_div : decodeBytes [0x19, 0x00, 0x00, 0x80, 16] = .ok (.div al (imm8 16), 5) := by decide
theorem test_decode_idiv : decodeBytes [0x1A, 0x00, 0x00, 0x80, 16] = .ok (.idiv al (imm8 16), 5) := by decide
theorem test_decode_mod : decodeBytes [0x1B, 0x00, 0x00, 0x80, 16] = .ok (.mod al (imm8 16), 5) := by decide
theorem test_decode_imod : decodeBytes [0x1C, 0x00, 0x00, 0x80, 16] = .ok (.imod al (imm8 16), 5) := by decide
theorem test_decode_and : decodeBytes [0x20, 0x00, 0x00, 0x80, 0x3C] = .ok (.and al (imm8 0x3C), 5) := by decide
theorem test_decode_or : decodeBytes [0x21, 0x00, 0x00, 0x80, 0x3C] = .ok (.or al (imm8 0x3C), 5) := by decide
theorem test_decode_xor : decodeBytes [0x22, 0x00, 0x00, 0x80, 0x3C] = .ok (.xor al (imm8 0x3C), 5) := by decide
theorem test_decode_not : decodeBytes [0x23, 0x00, 0x00] = .ok (.not al, 3) := by decide
theorem test_decode_shl : decodeBytes [0x28, 0x00, 0x00, 0x80, 1] = .ok (.shl al (imm8 1), 5) := by decide
theorem test_decode_shr : decodeBytes [0x29, 0x00, 0x00, 0x80, 1] = .ok (.shr al (imm8 1), 5) := by decide
theorem test_decode_sal : decodeBytes [0x2A, 0x00, 0x00, 0x80, 1] = .ok (.sal al (imm8 1), 5) := by decide
theorem test_decode_sar : decodeBytes [0x2B, 0x00, 0x00, 0x80, 1] = .ok (.sar al (imm8 1), 5) := by decide
theorem test_decode_rol : decodeBytes [0x2C, 0x00, 0x00, 0x80, 1] = .ok (.rol al (imm8 1), 5) := by decide
theorem test_decode_ror : decodeBytes [0x2D, 0x00, 0x00, 0x80, 1] = .ok (.ror al (imm8 1), 5) := by decide
theorem test_decode_rcl : decodeBytes [0x2E, 0x00, 0x00, 0x80, 1] = .ok (.rcl al (imm8 1), 5) := by decide
theorem test_decode_rcr : decodeBytes [0x2F, 0x00, 0x00, 0x80, 1] = .ok (.rcr al (imm8 1), 5) := by decide
theorem test_decode_cmp : decodeBytes [0x30, 0x00, 0x00, 0x80, 2] = .ok (.cmp al (imm8 2), 5) := by decide
theorem test_decode_test : decodeBytes [0x31, 0x03, 0x04, 0x03, 0x04] = .ok (.test rax rax, 5) := by decide
theorem test_decode_jmp : decodeBytes [0x40, 0x83, 64, 0, 0, 0, 0, 0, 0, 0] = .ok (.jmp (imm64 0x40), 10) := by decide
theorem test_decode_jz : decodeBytes [0x41, 0x83, 64, 0, 0, 0, 0, 0, 0, 0] = .ok (.jz (imm64 0x40), 10) := by decide
theorem test_decode_jnz : decodeBytes [0x42, 0x83, 64, 0, 0, 0, 0, 0, 0, 0] = .ok (.jnz (imm64 0x40), 10) := by decide
theorem test_decode_jc : decodeBytes [0x43, 0x83, 64, 0, 0, 0, 0, 0, 0, 0] = .ok (.jc (imm64 0x40), 10) := by decide
theorem test_decode_jnc : decodeBytes [0x44, 0x83, 64, 0, 0, 0, 0, 0, 0, 0] = .ok (.jnc (imm64 0x40), 10) := by decide
theorem test_decode_js : decodeBytes [0x45, 0x83, 64, 0, 0, 0, 0, 0, 0, 0] = .ok (.js (imm64 0x40), 10) := by decide
theorem test_decode_jns : decodeBytes [0x46, 0x83, 64, 0, 0, 0, 0, 0, 0, 0] = .ok (.jns (imm64 0x40), 10) := by decide
theorem test_decode_jo : decodeBytes [0x47, 0x83, 64, 0, 0, 0, 0, 0, 0, 0] = .ok (.jo (imm64 0x40), 10) := by decide
theorem test_decode_jno : decodeBytes [0x48, 0x83, 64, 0, 0, 0, 0, 0, 0, 0] = .ok (.jno (imm64 0x40), 10) := by decide
theorem test_decode_jp : decodeBytes [0x49, 0x83, 64, 0, 0, 0, 0, 0, 0, 0] = .ok (.jp (imm64 0x40), 10) := by decide
theorem test_decode_jnp : decodeBytes [0x4A, 0x83, 64, 0, 0, 0, 0, 0, 0, 0] = .ok (.jnp (imm64 0x40), 10) := by decide
theorem test_decode_jl : decodeBytes [0x4B, 0x83, 64, 0, 0, 0, 0, 0, 0, 0] = .ok (.jl (imm64 0x40), 10) := by decide
theorem test_decode_jge : decodeBytes [0x4C, 0x83, 64, 0, 0, 0, 0, 0, 0, 0] = .ok (.jge (imm64 0x40), 10) := by decide
theorem test_decode_jle : decodeBytes [0x4D, 0x83, 64, 0, 0, 0, 0, 0, 0, 0] = .ok (.jle (imm64 0x40), 10) := by decide
theorem test_decode_jg : decodeBytes [0x4E, 0x83, 64, 0, 0, 0, 0, 0, 0, 0] = .ok (.jg (imm64 0x40), 10) := by decide
theorem test_decode_call : decodeBytes [0x50, 0x83, 35, 0, 0, 0, 0, 0, 0, 0] = .ok (.call (imm64 35), 10) := by decide
theorem test_decode_ret : decodeBytes [0x51, 0x83, 8, 0, 0, 0, 0, 0, 0, 0] = .ok (.ret (imm64 8), 10) := by decide
theorem test_decode_push : decodeBytes [0x60, 0x03, 0x04] = .ok (.push rax, 3) := by decide
theorem test_decode_pop : decodeBytes [0x61, 0x03, 0x0C] = .ok (.pop rbx, 3) := by decide
theorem test_decode_pushf : decodeBytes [0x62] = .ok (.pushf, 1) := by decide
theorem test_decode_popf : decodeBytes [0x63] = .ok (.popf, 1) := by decide
theorem test_decode_pusha : decodeBytes [0x64] = .ok (.pusha, 1) := by decide
theorem test_decode_popa : decodeBytes [0x65] = .ok (.popa, 1) := by decide
theorem test_decode_inp :
    decodeBytes [0x70, 0x83, 5, 0, 0, 0, 0, 0, 0, 0, 0x83, 0, 0, 0, 0, 0, 0, 0, 0, 0x03, 0x04] =
      .ok (.inp (imm64 5) (imm64 0) rax, 21) := by decide
theorem test_decode_out :
    decodeBytes [0x71, 0x83, 1, 0, 0, 0, 0, 0, 0, 0, 0x83, 0, 0, 0, 0, 0, 0, 0, 0, 0x00, 0x00] =
      .ok (.out (imm64 1) (imm64 0) al, 21) := by decide
theorem test_decode_int : decodeBytes [0x80, 0x83, 0, 0, 0, 0, 0, 0, 0, 0] = .ok (.int (imm64 0), 10) := by decide

/-- The nine addressing modes with their segments, in R106's order, as sources of a MOV. -/
theorem test_decode_mode_0 :
    decodeBytes [0x02, 0x03, 0x04, 0x41, 0x07, 1, 0, 0, 0, 0, 0, 0, 0] =
      .ok (.mov rax (.mem .word .noOverride (.direct 1)), 13) := by decide
theorem test_decode_mode_1 :
    decodeBytes [0x02, 0x03, 0x04, 0x41, 0x08, 0x0C] =
      .ok (.mov rax (.mem .word .cs (.indirect ⟨.rbx, .qword⟩)), 6) := by decide
theorem test_decode_mode_2 :
    decodeBytes [0x02, 0x03, 0x04, 0x41, 0x11, 0xFE, 0xFF, 0xFF, 0xFF, 0xFF, 0xFF, 0xFF, 0xFF, 0x0B] =
      .ok (.mov rax (.mem .word .ds (.disp (-2) ⟨.rbx, .dword⟩)), 14) := by decide
theorem test_decode_mode_3 :
    decodeBytes [0x02, 0x03, 0x04, 0x41, 0x1A, 0x0C, 0x14] =
      .ok (.mov rax (.mem .word .ss (.indexed ⟨.rbx, .qword⟩ ⟨.rcx, .qword⟩)), 7) := by decide
theorem test_decode_mode_4 :
    decodeBytes [0x02, 0x03, 0x04, 0x41, 0x23, 2, 0, 0, 0, 0, 0, 0, 0, 0x0C, 0x14] =
      .ok (.mov rax (.mem .word .es (.indexedDisp 2 ⟨.rbx, .qword⟩ ⟨.rcx, .qword⟩)), 15) := by decide
theorem test_decode_mode_5 :
    decodeBytes [0x02, 0x03, 0x04, 0x41, 0x2C, 0xFF, 0xFF, 0x01] =
      .ok (.mov rax (.mem .word .fs (.scaled 0xFFFF ⟨.rax, .highByte⟩)), 8) := by decide
theorem test_decode_mode_6 :
    decodeBytes [0x02, 0x03, 0x04, 0x41, 0x35, 3, 0, 0, 0, 0, 0, 0, 0, 4, 1, 0x14] =
      .ok (.mov rax (.mem .word .gs (.scaledDisp 3 0x104 ⟨.rcx, .qword⟩)), 16) := by decide
theorem test_decode_mode_7 :
    decodeBytes [0x02, 0x03, 0x04, 0x41, 0x3F, 8, 0, 0x0C, 0x14] =
      .ok (.mov rax (.mem .word .noOverride (.baseScaled 8 ⟨.rbx, .qword⟩ ⟨.rcx, .qword⟩)), 9) := by decide

theorem test_decode_unused_tag_bits : decodeBytes [0x10, 0x3C, 0x00] = .ok (.inc al, 3) := by decide
theorem test_decode_zero_byte : decodeBytes [0x00] = .error .unknownOpcode := by decide
theorem test_decode_bad_type : decodeBytes [0x10, 0xC0, 0x00] = .error .badType := by decide
theorem test_decode_table_word : decodeTableWord 8 0x10 = some (.inc al) := by decide
theorem test_encode_lea_length :
    (encode (.lea rax (.mem .qword .cs (.baseScaledDisp 4 8 ⟨.rbx, .qword⟩ ⟨.rcx, .qword⟩)))).length = 17 := by decide

/-! ## Effects -/

theorem test_nop :
    after (start [] [0x01] 16) (fun t => (t.get .rip, t.stepCount)) =
      some (0x11, 1) := by decide
theorem test_mov_keeps_high_half :
    after (start [(.rax, 0xFFFFFFFFFFFFFFFF)] [0x02, 0x02, 0x03, 0x83, 5, 0, 0, 0, 0, 0, 0, 0]) (fun t => (t.get .rax, t.get .rip)) =
      some (0xFFFFFFFF00000005, 12) := by decide
theorem test_mov_loads_through_old_rax :
    after (start [(.rax, 0)] [0x02, 0x03, 0x04, 0x43, 0x0F, 0x04]) (fun t => (t.get .rax, t.get .rip)) =
      some (0x040F43040302, 6) := by decide
theorem test_xchg :
    after (start [(.rax, 1), (.rbx, 2)] [0x03, 0x03, 0x04, 0x03, 0x0C]) (fun t => (t.get .rax, t.get .rbx)) =
      some (2, 1) := by decide
theorem test_xchg_overlap :
    after (start [(.rax, 0x1234)] [0x03, 0x01, 0x02, 0x00, 0x00]) (fun t => t.get .rax) =
      some (0x0034) := by decide
theorem test_lea :
    after (start [(.rbx, 0x100), (.rcx, 3)] [0x04, 0x03, 0x04, 0x43, 0x47, 4, 0, 0, 0, 0, 0, 0, 0, 8, 0, 0x0C, 0x14]) (fun t => t.get .rax) =
      some (0x11C) := by decide
theorem test_lea_register_source :
    after (start [(.rax, 7)] [0x04, 0x03, 0x04, 0x03, 0x0C]) (fun t => (t.get .rax, t.get .rip, t.stepCount, t.diags.map fun d => DiagKind.code d.kind)) =
      some (7, 5, 0, [0x13]) := by decide
theorem test_inc_wraps :
    after (start [(.rax, 0xFF)] [0x10, 0x00, 0x00]) (fun t => (t.get .rax, t.get .rflags)) =
      some (0, flagsWord 0 1 1 0 0) := by decide
theorem test_dec_overflows :
    after (start [(.rax, 0x80)] [0x11, 0x00, 0x00]) (fun t => (t.get .rax, t.get .rflags)) =
      some (0x7F, flagsWord 0 0 0 0 1) := by decide
theorem test_dec_keeps_carry :
    after (start [(.rax, 0), (.rflags, 1)] [0x11, 0x00, 0x00]) (fun t => (t.get .rax, t.get .rflags)) =
      some (0xFF, flagsWord 1 1 0 1 0) := by decide
theorem test_add_wraps :
    after (start [(.rax, 0xFF)] [0x12, 0x00, 0x00, 0x80, 1]) (fun t => (t.get .rax, t.get .rflags)) =
      some (0, flagsWord 1 1 1 0 0) := by decide
theorem test_adc_full :
    after (start [(.rax, 0xFF), (.rflags, 1)] [0x13, 0x00, 0x00, 0x80, 0xFF]) (fun t => (t.get .rax, t.get .rflags)) =
      some (0xFF, flagsWord 1 1 0 1 0) := by decide
theorem test_sub_borrows :
    after (start [(.rax, 0)] [0x14, 0x00, 0x00, 0x80, 1]) (fun t => (t.get .rax, t.get .rflags)) =
      some (0xFF, flagsWord 1 1 0 1 0) := by decide
theorem test_sbb_borrows :
    after (start [(.rax, 0), (.rflags, 1)] [0x15, 0x00, 0x00, 0x80, 0]) (fun t => (t.get .rax, t.get .rflags)) =
      some (0xFF, flagsWord 1 1 0 1 0) := by decide
theorem test_neg_of_minimum :
    after (start [(.rax, 0x80)] [0x16, 0x00, 0x00]) (fun t => (t.get .rax, t.get .rflags)) =
      some (0x80, flagsWord 1 0 0 1 1) := by decide
theorem test_mul_truncates :
    after (start [(.rax, 0x10)] [0x17, 0x00, 0x00, 0x80, 0x10]) (fun t => (t.get .rax, t.get .rflags)) =
      some (0, flagsWord 1 1 1 0 1) := by decide
theorem test_imul_signed :
    after (start [(.rax, 0xFF)] [0x18, 0x00, 0x00, 0x80, 2]) (fun t => (t.get .rax, t.get .rflags)) =
      some (0xFE, flagsWord 0 0 0 1 0) := by decide
theorem test_div :
    after (start [(.rax, 0xFE)] [0x19, 0x00, 0x00, 0x80, 0x10]) (fun t => (t.get .rax, t.get .rflags)) =
      some (0x0F, flagsWord 0 1 0 0 0) := by decide
theorem test_div_by_zero :
    after (start [(.rax, 0xFE)] [0x19, 0x00, 0x00, 0x80, 0]) (fun t => (t.get .rax, t.get .rip, t.stepCount, t.diags.map fun d => DiagKind.code d.kind)) =
      some (0xFE, 5, 0, [0x15]) := by decide
theorem test_idiv_truncates :
    after (start [(.rax, 0xF9)] [0x1A, 0x00, 0x00, 0x80, 2]) (fun t => (t.get .rax, t.get .rflags)) =
      some (0xFD, flagsWord 0 0 0 1 0) := by decide
theorem test_idiv_minimum_by_minus_one :
    after (start [(.rax, 0x80)] [0x1A, 0x00, 0x00, 0x80, 0xFF]) (fun t => t.get .rax) =
      some (0x80) := by decide
theorem test_mod :
    after (start [(.rax, 0xFE)] [0x1B, 0x00, 0x00, 0x80, 0x10]) (fun t => (t.get .rax, t.get .rflags)) =
      some (0x0E, flagsWord 0 0 0 0 0) := by decide
theorem test_imod :
    after (start [(.rax, 0xF9)] [0x1C, 0x00, 0x00, 0x80, 2]) (fun t => (t.get .rax, t.get .rflags)) =
      some (0xFF, flagsWord 0 1 0 1 0) := by decide
theorem test_and :
    after (start [(.rax, 0xF0)] [0x20, 0x00, 0x00, 0x80, 0x3C]) (fun t => (t.get .rax, t.get .rflags)) =
      some (0x30, flagsWord 0 1 0 0 0) := by decide
theorem test_or :
    after (start [(.rax, 0x80)] [0x21, 0x00, 0x00, 0x80, 1]) (fun t => (t.get .rax, t.get .rflags)) =
      some (0x81, flagsWord 0 1 0 1 0) := by decide
theorem test_xor_self :
    after (start [(.rax, 0x1234)] [0x22, 0x03, 0x04, 0x03, 0x04]) (fun t => (t.get .rax, t.get .rflags)) =
      some (0, flagsWord 0 1 1 0 0) := by decide
theorem test_not :
    after (start [(.rax, 0x0F)] [0x23, 0x00, 0x00]) (fun t => (t.get .rax, t.get .rflags)) =
      some (0xF0, flagsWord 0 1 0 1 0) := by decide
theorem test_shl :
    after (start [(.rax, 0x81)] [0x28, 0x00, 0x00, 0x80, 1]) (fun t => (t.get .rax, t.get .rflags)) =
      some (0x02, flagsWord 1 0 0 0 0) := by decide
theorem test_shl_by_width :
    after (start [(.rax, 0x81)] [0x28, 0x00, 0x00, 0x80, 8]) (fun t => (t.get .rax, t.get .rflags)) =
      some (0, flagsWord 1 1 1 0 0) := by decide
theorem test_shr :
    after (start [(.rax, 0x81)] [0x29, 0x00, 0x00, 0x80, 1]) (fun t => (t.get .rax, t.get .rflags)) =
      some (0x40, flagsWord 1 0 0 0 0) := by decide
theorem test_sal :
    after (start [(.rax, 0x81)] [0x2A, 0x00, 0x00, 0x80, 1]) (fun t => (t.get .rax, t.get .rflags)) =
      some (0x02, flagsWord 1 0 0 0 0) := by decide
theorem test_sar :
    after (start [(.rax, 0x81)] [0x2B, 0x00, 0x00, 0x80, 1]) (fun t => (t.get .rax, t.get .rflags)) =
      some (0xC0, flagsWord 1 1 0 1 0) := by decide
theorem test_sar_past_width :
    after (start [(.rax, 0x81)] [0x2B, 0x00, 0x00, 0x80, 9]) (fun t => (t.get .rax, t.get .rflags)) =
      some (0xFF, flagsWord 1 1 0 1 0) := by decide
theorem test_rol :
    after (start [(.rax, 0x81)] [0x2C, 0x00, 0x00, 0x80, 1]) (fun t => (t.get .rax, t.get .rflags)) =
      some (0x03, flagsWord 1 1 0 0 0) := by decide
theorem test_ror :
    after (start [(.rax, 0x81)] [0x2D, 0x00, 0x00, 0x80, 1]) (fun t => (t.get .rax, t.get .rflags)) =
      some (0xC0, flagsWord 1 1 0 1 0) := by decide
theorem test_rcl :
    after (start [(.rax, 0x81)] [0x2E, 0x00, 0x00, 0x80, 1]) (fun t => (t.get .rax, t.get .rflags)) =
      some (0x02, flagsWord 1 0 0 0 0) := by decide
theorem test_rcr :
    after (start [(.rax, 0x81)] [0x2F, 0x00, 0x00, 0x80, 1]) (fun t => (t.get .rax, t.get .rflags)) =
      some (0x40, flagsWord 1 0 0 0 0) := by decide
theorem test_rcr_zero_count :
    after (start [(.rax, 0x81), (.rflags, 1)] [0x2F, 0x00, 0x00, 0x80, 0]) (fun t => (t.get .rax, t.get .rflags)) =
      some (0x81, flagsWord 1 0 0 0 0) := by decide
theorem test_cmp :
    after (start [(.rax, 1)] [0x30, 0x00, 0x00, 0x80, 2]) (fun t => (t.get .rax, t.get .rflags)) =
      some (1, flagsWord 1 1 0 1 0) := by decide
theorem test_test :
    after (start [(.rax, 0x8000000000000000)] [0x31, 0x03, 0x04, 0x03, 0x04]) (fun t => t.get .rflags) =
      some (flagsWord 0 0 0 1 0) := by decide
theorem test_jmp :
    after (start [] [0x40, 0x83, 64, 0, 0, 0, 0, 0, 0, 0]) (fun t => t.get .rip) =
      some (0x40) := by decide
/-- A target above 2^8: a qword label is read whole (R98, R150, R314). -/
theorem test_jmp_reads_whole_label :
    after (start [] [0x40, 0x83, 0x00, 0x02, 0, 0, 0, 0, 0, 0]) (fun t => t.get .rip) = some 0x200 := by decide
theorem test_jz_taken :
    after (start [(.rflags, flagsWord 0 0 1 0 0)] [0x41, 0x83, 64, 0, 0, 0, 0, 0, 0, 0]) (fun t => t.get .rip) =
      some (0x40) := by decide
theorem test_jz_not_taken :
    after (start [(.rflags, flagsWord 0 0 0 0 0)] [0x41, 0x83, 64, 0, 0, 0, 0, 0, 0, 0]) (fun t => t.get .rip) =
      some (10) := by decide
theorem test_jnz_taken :
    after (start [(.rflags, flagsWord 0 0 0 0 0)] [0x42, 0x83, 64, 0, 0, 0, 0, 0, 0, 0]) (fun t => t.get .rip) =
      some (0x40) := by decide
theorem test_jnz_not_taken :
    after (start [(.rflags, flagsWord 0 0 1 0 0)] [0x42, 0x83, 64, 0, 0, 0, 0, 0, 0, 0]) (fun t => t.get .rip) =
      some (10) := by decide
theorem test_jc_taken :
    after (start [(.rflags, flagsWord 1 0 0 0 0)] [0x43, 0x83, 64, 0, 0, 0, 0, 0, 0, 0]) (fun t => t.get .rip) =
      some (0x40) := by decide
theorem test_jc_not_taken :
    after (start [(.rflags, flagsWord 0 0 0 0 0)] [0x43, 0x83, 64, 0, 0, 0, 0, 0, 0, 0]) (fun t => t.get .rip) =
      some (10) := by decide
theorem test_jnc_taken :
    after (start [(.rflags, flagsWord 0 0 0 0 0)] [0x44, 0x83, 64, 0, 0, 0, 0, 0, 0, 0]) (fun t => t.get .rip) =
      some (0x40) := by decide
theorem test_jnc_not_taken :
    after (start [(.rflags, flagsWord 1 0 0 0 0)] [0x44, 0x83, 64, 0, 0, 0, 0, 0, 0, 0]) (fun t => t.get .rip) =
      some (10) := by decide
theorem test_js_taken :
    after (start [(.rflags, flagsWord 0 0 0 1 0)] [0x45, 0x83, 64, 0, 0, 0, 0, 0, 0, 0]) (fun t => t.get .rip) =
      some (0x40) := by decide
theorem test_js_not_taken :
    after (start [(.rflags, flagsWord 0 0 0 0 0)] [0x45, 0x83, 64, 0, 0, 0, 0, 0, 0, 0]) (fun t => t.get .rip) =
      some (10) := by decide
theorem test_jns_taken :
    after (start [(.rflags, flagsWord 0 0 0 0 0)] [0x46, 0x83, 64, 0, 0, 0, 0, 0, 0, 0]) (fun t => t.get .rip) =
      some (0x40) := by decide
theorem test_jns_not_taken :
    after (start [(.rflags, flagsWord 0 0 0 1 0)] [0x46, 0x83, 64, 0, 0, 0, 0, 0, 0, 0]) (fun t => t.get .rip) =
      some (10) := by decide
theorem test_jo_taken :
    after (start [(.rflags, flagsWord 0 0 0 0 1)] [0x47, 0x83, 64, 0, 0, 0, 0, 0, 0, 0]) (fun t => t.get .rip) =
      some (0x40) := by decide
theorem test_jo_not_taken :
    after (start [(.rflags, flagsWord 0 0 0 0 0)] [0x47, 0x83, 64, 0, 0, 0, 0, 0, 0, 0]) (fun t => t.get .rip) =
      some (10) := by decide
theorem test_jno_taken :
    after (start [(.rflags, flagsWord 0 0 0 0 0)] [0x48, 0x83, 64, 0, 0, 0, 0, 0, 0, 0]) (fun t => t.get .rip) =
      some (0x40) := by decide
theorem test_jno_not_taken :
    after (start [(.rflags, flagsWord 0 0 0 0 1)] [0x48, 0x83, 64, 0, 0, 0, 0, 0, 0, 0]) (fun t => t.get .rip) =
      some (10) := by decide
theorem test_jp_taken :
    after (start [(.rflags, flagsWord 0 1 0 0 0)] [0x49, 0x83, 64, 0, 0, 0, 0, 0, 0, 0]) (fun t => t.get .rip) =
      some (0x40) := by decide
theorem test_jp_not_taken :
    after (start [(.rflags, flagsWord 0 0 0 0 0)] [0x49, 0x83, 64, 0, 0, 0, 0, 0, 0, 0]) (fun t => t.get .rip) =
      some (10) := by decide
theorem test_jnp_taken :
    after (start [(.rflags, flagsWord 0 0 0 0 0)] [0x4A, 0x83, 64, 0, 0, 0, 0, 0, 0, 0]) (fun t => t.get .rip) =
      some (0x40) := by decide
theorem test_jnp_not_taken :
    after (start [(.rflags, flagsWord 0 1 0 0 0)] [0x4A, 0x83, 64, 0, 0, 0, 0, 0, 0, 0]) (fun t => t.get .rip) =
      some (10) := by decide
theorem test_jl_taken :
    after (start [(.rflags, flagsWord 0 0 0 1 0)] [0x4B, 0x83, 64, 0, 0, 0, 0, 0, 0, 0]) (fun t => t.get .rip) =
      some (0x40) := by decide
theorem test_jl_not_taken :
    after (start [(.rflags, flagsWord 0 0 0 1 1)] [0x4B, 0x83, 64, 0, 0, 0, 0, 0, 0, 0]) (fun t => t.get .rip) =
      some (10) := by decide
theorem test_jge_taken :
    after (start [(.rflags, flagsWord 0 0 0 1 1)] [0x4C, 0x83, 64, 0, 0, 0, 0, 0, 0, 0]) (fun t => t.get .rip) =
      some (0x40) := by decide
theorem test_jge_not_taken :
    after (start [(.rflags, flagsWord 0 0 0 0 1)] [0x4C, 0x83, 64, 0, 0, 0, 0, 0, 0, 0]) (fun t => t.get .rip) =
      some (10) := by decide
theorem test_jle_taken :
    after (start [(.rflags, flagsWord 0 0 1 0 0)] [0x4D, 0x83, 64, 0, 0, 0, 0, 0, 0, 0]) (fun t => t.get .rip) =
      some (0x40) := by decide
theorem test_jle_not_taken :
    after (start [(.rflags, flagsWord 0 0 0 0 0)] [0x4D, 0x83, 64, 0, 0, 0, 0, 0, 0, 0]) (fun t => t.get .rip) =
      some (10) := by decide
theorem test_jg_taken :
    after (start [(.rflags, flagsWord 0 0 0 1 1)] [0x4E, 0x83, 64, 0, 0, 0, 0, 0, 0, 0]) (fun t => t.get .rip) =
      some (0x40) := by decide
theorem test_jg_not_taken :
    after (start [(.rflags, flagsWord 0 0 1 0 0)] [0x4E, 0x83, 64, 0, 0, 0, 0, 0, 0, 0]) (fun t => t.get .rip) =
      some (10) := by decide
theorem test_call :
    after (start [(.rsp, 0xFFF7)] [0x50, 0x83, 35, 0, 0, 0, 0, 0, 0, 0] 15) (fun t => (t.get .rip, t.get .rsp, t.get .rbp, t.memRead 0xFFEF 8, t.memRead 0xFFE7 8)) =
      some (35, 0xFFE7, 0xFFE7, 25, 0xFFFF) := by decide
theorem test_ret :
    after { start [(.rsp, 0xFFE7), (.rbp, 0xFFE7)] [0x51, 0x83, 8, 0, 0, 0, 0, 0, 0, 0] with
        mem := Memory.writeBytes 65536 (start [] [0x51, 0x83, 8, 0, 0, 0, 0, 0, 0, 0]).mem 0xFFE7
          [0xFF, 0xFF, 0, 0, 0, 0, 0, 0, 25, 0, 0, 0, 0, 0, 0, 0] }
      (fun t => (t.get .rip, t.get .rsp, t.get .rbp)) = some (25, 0xFFFF, 0xFFFF) := by decide
theorem test_push :
    after (start [(.rax, 0x1122334455667788)] [0x60, 0x03, 0x04]) (fun t => (t.get .rsp, Memory.get t.mem 0xFFF7, Memory.get t.mem 0xFFFE, t.history.length)) =
      some (0xFFF7, 0x88, 0x11, 1) := by decide
theorem test_push_rsp_pushes_old_value :
    after (start [] [0x60, 0x03, 0x3C]) (fun t => t.memRead 0xFFF7 8) =
      some (0xFFFF) := by decide
theorem test_pop :
    after (start [(.rsp, 0)] [0x61, 0x03, 0x0C]) (fun t => (t.get .rbx, t.get .rsp)) =
      some (0x0C0361, 8) := by decide
theorem test_pop_rsp_keeps_popped_value :
    after (start [(.rsp, 0)] [0x61, 0x03, 0x3C]) (fun t => t.get .rsp) =
      some (0x3C0361) := by decide
theorem test_pushf :
    after (start [(.rflags, 0x41)] [0x62]) (fun t => (t.get .rsp, t.memRead 0xFFF7 8)) =
      some (0xFFF7, 0x41) := by decide
theorem test_popf :
    after { start [(.rsp, 0x100)] [0x63] with
        mem := Memory.writeBytes 65536 (start [] [0x63]).mem 0x100 (List.replicate 8 0xFF) }
      (fun t => (t.get .rflags, t.get .rsp)) = some (0xFFFFFFFFFFFFFFFF, 0x108) := by decide
theorem test_pusha_moves_rsp :
    after (start [(.rax, 1)] [0x64]) (fun t => t.get .rsp) =
      some (0xFF8F) := by decide
theorem test_pusha_pushes_rax_first :
    after (start [(.rax, 1)] [0x64]) (fun t => t.history.head?) =
      some (some ⟨1, 0xFFF7, 8⟩) := by decide
theorem test_popa :
    after { start [(.rsp, 0x100)] [0x65] with
        mem := Memory.writeBytes 65536 (start [] [0x65]).mem 0x100 [15] }
      (fun t => (t.get .r15, t.get .rax, t.get .rsp)) = some (15, 0, 0x170) := by decide
theorem test_in_without_device :
    after (start [(.rax, 7)] [0x70, 0x83, 5, 0, 0, 0, 0, 0, 0, 0, 0x83, 0, 0, 0, 0, 0, 0, 0, 0, 0x03, 0x04]) (fun t => (t.get .rax, t.stepCount, t.diags.map fun d => DiagKind.code d.kind)) =
      some (0, 1, [0x21]) := by decide
theorem test_out_to_device :
    after (State.withConfig (start [(.rax, 0x41)] [0x71, 0x83, 1, 0, 0, 0, 0, 0, 0, 0, 0x83, 0, 0, 0, 0, 0, 0, 0, 0, 0x00, 0x00]) .wrap [⟨1, "port"⟩])
      (fun t => (t.deviceLog, t.diags)) = some ([.write 1 0 0x41], []) := by decide
theorem test_int_zero_exits :
    after (start [] [0x80, 0x83, 0, 0, 0, 0, 0, 0, 0, 0] 24) (fun t => (t.get .rip, t.intCode, t.isExiting)) =
      some (34, 0, true) := by decide
theorem test_int_unhandled_code :
    after (start [] [0x80, 0x83, 5, 0, 0, 0, 0, 0, 0, 0]) (fun t => (t.interrupted, t.intCode, t.isExiting)) =
      some (true, 5, false) := by decide

/-! ## Errors and the fetch -/

theorem test_decode_error_skips_one_byte :
    after (start [] [0x10, 0xC0, 0x00] 7) (fun t => (t.get .rip, t.stepCount, t.diags)) =
      some (8, 0, [{ kind := .decode .badType, ip0 := 7, opc := 0x10 }]) := by decide
theorem test_region_unsupported :
    after (start [] [0x10, 0x00, 0x90]) (fun t => (t.get .cs, t.stepCount, t.diags.map fun d => DiagKind.code d.kind)) =
      some (0, 0, [0x11]) := by decide
theorem test_table_word_runs : after (State.reset.withFetchWord 8 0x10) (fun t => (t.get .rax, t.stepCount)) =
    some (1, 1) := by decide
theorem test_reset_invariant : State.reset.Inv := by decide
/-! ## Witnesses: the hypotheses of each statement can be met, clause by clause, at the ends of their ranges -/

/-- A plain machine, the same under `fault`, and one with a device at port 1. -/
def plain : State := start [(.rax, 0x80), (.rsp, 0x100)] [0x01]
def faulty : State := State.withConfig plain .fault []
def wired : State := State.withConfig plain .wrap [⟨1, "port"⟩]

theorem witness_EncodingRoundTrip :
    Instr.wellFormed (.inp (imm8 255) (at64 0) rax) = true ∧ Operand.wellFormed (imm8 255) = true ∧
      decodeOperand (listFetch [0xBC, 0xFF]) 0 = .ok (imm8 255, 2) := by decide

theorem witness_DecodedBytesReencode :
    decodeBytes [0x12, 0x3C, 0x00, 0xBC, 0xFF] = .ok (.add al (imm8 255), 5) ∧
      Instr.tagOffsets (.add al (imm8 255)) = [1, 3] ∧
      clearTagBits [1, 3] [0x12, 0x3C, 0x00, 0xBC, 0xFF] = [0x12, 0x00, 0x00, 0x80, 0xFF] := by decide

theorem witness_UnassignedOpcodesAreSkipped :
    (Memory.get State.reset.mem (State.reset.phys .cs (State.reset.get .rip))).toNat ∉ assignedOpcodes ∧
      (Memory.get plain.mem (plain.phys .cs (plain.get .rip))).toNat ∈ assignedOpcodes := by decide

theorem witness_MalformedOperandsAreRejected_type :
    listFetch [0xC0, 0] 0 .byte = .ok 0xC0 ∧ listFetch [0xC0, 0] 1 .byte = .ok 0 ∧ (0xC0 : Word).toNat / 64 = 3 := by
  decide

theorem witness_MalformedOperandsAreRejected_register :
    listFetch [0, 0xC0] 0 .byte = .ok 0 ∧ listFetch [0, 0xC0] 1 .byte = .ok 0xC0 ∧ (0xC0 : Word).toNat / 8 = 24 := by
  decide

theorem witness_MalformedOperandsAreRejected_region :
    listFetch [0, 0xBD] 1 .byte = .ok 0xBD ∧ (0xBD : Word).toNat / 8 = 23 ∧ (0xBD : Word).toNat % 8 = 5 := by decide

theorem witness_MalformedOperandsAreRejected_width :
    listFetch [2, 0xBA] 0 .byte = .ok 2 ∧ listFetch [2, 0xBA] 1 .byte = .ok 0xBA ∧
      Region.ofId ((0xBA : Word).toNat % 8) = some .word ∧ Region.word.width.code ≠ (2 : Word).toNat % 4 := by decide

theorem witness_MalformedOperandsAreRejected_mode :
    listFetch [0x40, 0x48] 0 .byte = .ok 0x40 ∧ listFetch [0x40, 0x48] 1 .byte = .ok 0x48 ∧
      (0x40 : Word).toNat / 64 = 1 ∧ (0x48 : Word).toNat / 8 = 9 := by decide

theorem witness_MalformedOperandsAreRejected_segment :
    listFetch [0x40, 0x46] 1 .byte = .ok 0x46 ∧ (0x46 : Word).toNat / 8 = 8 ∧ (0x46 : Word).toNat % 8 = 6 := by decide

/-- The base byte of V169 (id 24); a base byte of id 23 with region 5; an index byte of id 24 after a base byte of id 23
with region 4; an index byte of mode 8 with region 5; a list that ends before the base byte. -/
theorem witness_MalformedOperandsAreRejected_field :
    (memFields ((0x0F : Word).toNat / 8)).findSome? (MemField.error (listFetch [0x43, 0x0F, 0xC4]) 0) =
      some .badRegister ∧
    (memFields 1).findSome? (MemField.error (listFetch [0x43, 0x0F, 0xBD]) 0) = some .badRegion ∧
    (memFields 3).findSome? (MemField.error (listFetch [0x43, 0x1F, 0xBC, 0xC0]) 0) = some .badRegister ∧
    (memFields ((0x47 : Word).toNat / 8)).findSome?
      (MemField.error (listFetch [0x43, 0x47, 0, 0, 0, 0, 0, 0, 0, 0, 0, 0, 0x04, 0x05]) 0) = some .badRegion ∧
    (memFields 1).findSome? (MemField.error (listFetch [0x43, 0x0F]) 0) = some .bounds ∧
    (0x43 : Word).toNat / 64 = 1 ∧ (0x47 : Word).toNat / 8 = 8 ∧ (0x0F : Word).toNat % 8 ≠ 6 := by decide

theorem witness_StepRunsDecodedInstruction :
    plain.decodeNext = .ok (.nop, 1) ∧ Instr.wellFormed .nop = true := by decide

/-- The clause of an execute error: INC of an immediate. -/
theorem witness_StepRunsDecodedInstruction_error :
    step (start [] [0x10, 0x80, 0x00]) =
      .next (State.failed (State.set { start [] [0x10, 0x80, 0x00] with ip0 := 0, opc := 0x10 } .rip 3)
        .writeImmediate) := rfl

theorem witness_EncodedBytesAtIpRun :
    Instr.wellFormed .nop = true ∧
    (∀ (k : Nat) (b : Byte), (encode .nop)[k]? = some b → Memory.get plain.mem (plain.fetchAddr k) = b) ∧
    (plain.get .rip + plain.get .cs * 16#64).toNat + (encode .nop).length ≤ 2 ^ 64 ∧ plain.config.policy = .wrap := by
  refine ⟨rfl, fun k b h => ?_, by decide, rfl⟩
  cases k with
  | zero => cases h; decide
  | succ k => simp [encode, Instr.operands] at h

/-- At the last byte of the buffer, under `fault`. -/
theorem witness_EncodedBytesAtIpRun_fault :
    let s := State.withConfig (start [] [0x01] 65535) .fault []
    (∀ (k : Nat) (b : Byte), (encode .nop)[k]? = some b → Memory.get s.mem (s.fetchAddr k) = b) ∧
    (s.get .rip + s.get .cs * 16#64).toNat + (encode .nop).length ≤ 2 ^ 64 ∧
    s.fetchAddr 0 + (encode .nop).length = s.memSize := by
  refine ⟨fun k b h => ?_, by decide, by decide⟩
  cases k with
  | zero => cases h; decide
  | succ k => simp [encode, Instr.operands] at h

theorem witness_DecodeFailureSkipsOneByte : State.reset.decodeNext = .error .unknownOpcode := by decide

theorem witness_ChecksAreReportedInOrder :
    plain.violations (.xchg (imm8 0) (.reg ⟨.cs, .lowByte⟩)) = [.writeImmediate, .regionUnsupported] ∧
    plain.violations (.div al (imm64 0x100)) = [] ∧ (plain.readOp (imm64 0x100)).toNat % 2 ^ al.width.bits = 0 ∧
    plain.violations (.mov rax (at64 65535)) = [] ∧ faulty.violations (.mov rax (at64 65535)) = [.bounds] := by decide

theorem witness_ChecksAreReportedInOrder_zero : plain.dividesByZero (.div al (imm64 0x100)) := by
  show (plain.readOp (imm64 0x100)).toNat % 2 ^ al.width.bits = 0
  decide

theorem witness_EveryInstructionFrame : (∀ c, Instr.nop ≠ .int c) ∧ exec .nop plain = .next plain.counted :=
  ⟨by simp, rfl⟩

theorem witness_StepKeepsInvariant : plain.Inv ∧ ∃ t, step plain = .next t ∧ t.stepCount = 1 :=
  ⟨by decide, _, rfl, rfl⟩

theorem witness_ConfigurationNeverChanges :
    (∃ t, step plain = .next t) ∧ plain.config.listeners = [] ∧ (∀ c, Instr.nop ≠ .int c) ∧
      ∃ t, exec .nop plain = .next t := ⟨⟨_, rfl⟩, rfl, by simp, _, rfl⟩

theorem witness_SegmentRegistersStayWords :
    plain.config.listeners = [] ∧ (∃ t, step plain = .next t) ∧
      ∀ r ∈ [Reg.cs, .ds, .ss, .es, .fs, .gs], (plain.get r).toNat < 2 ^ 16 := ⟨rfl, ⟨_, rfl⟩, by decide⟩

/-- The clause of an error: the step at a zero byte. -/
theorem witness_DiagnosticsOnlyGrow :
    (∃ t, step plain = .next t) ∧
      (after State.reset fun t => t.diags.map DiagEvent.kind) = some [.decode .unknownOpcode] := ⟨⟨_, rfl⟩, by decide⟩

theorem witness_InterruptStatePersists :
    exec .nop plain = .next plain.counted ∧
      ({ plain with interrupted := true } : State).interrupted = true ∧
      ∃ t, step { plain with interrupted := true } = .next t := ⟨rfl, rfl, _, rfl⟩

theorem witness_ResetLeavesSpecValues :
    ∃ s t : State, t = s.hostReset ∧ s.stepCount = 1 := ⟨{ plain with stepCount := 1 }, _, rfl, rfl⟩

theorem witness_RegionViewReadWrite :
    (Region.highByte, 8, 8) ∈
      [(Region.lowByte, 0, 8), (.highByte, 8, 8), (.word, 0, 16), (.dword, 0, 32), (.qword, 0, 64)] := by decide

theorem witness_FlagReadWrite :
    (Flag.of, 11) ∈ [(Flag.cf, 0), (.pf, 2), (.zf, 6), (.sf, 7), (.of, 11)] ∧ Flag.bit .of = 11 := by decide

/-- The clause of an instruction: INC keeps CF. -/
theorem witness_FlagReadWrite_instruction :
    Reg.rflags ∉ Instr.mayWriteRegs (.inc al) ∧ Flag.cf ∉ Instr.mayWriteFlags (.inc al) ∧
      ∃ t, exec (.inc al) plain = .next t := ⟨by decide, by decide, _, rfl⟩

theorem witness_PhysicalIndexFormula :
    (SegSel.noOverride, Reg.ds) ∈
      [(SegSel.cs, Reg.cs), (.ds, .ds), (.ss, .ss), (.es, .es), (.fs, .fs), (.gs, .gs), (.noOverride, .ds)] := by decide

theorem witness_OperandValueRead : Operand.wellFormed (imm8 255) = true := by decide

theorem witness_MemoryReadAfterWrite : 8 ∈ [1, 2, 4, 8] ∧ 65535 < plain.memSize ∧ 1 ∈ [1, 2, 4, 8] := by decide

theorem witness_BoundaryPolicyOnAccess :
    RegRef.allowed ⟨.rax, .qword⟩ = true ∧ ((AddrMode.direct 65529).regs.all RegRef.allowed) = true ∧
    faulty.config.policy = .fault ∧ faulty.memAddr .noOverride (.direct 65529) + Width.qword.bytes = faulty.memSize + 1 ∧
    faulty.memAddr .noOverride (.direct 65528) + Width.qword.bytes = faulty.memSize ∧ plain.config.policy = .wrap := by
  decide

/-- The clauses of the fetch and of the host's access. -/
theorem witness_BoundaryPolicyOnAccess_fetch :
    faulty.fetchAddr 65529 + Width.qword.bytes = faulty.memSize + 1 ∧
    faulty.fetchAddr 65528 + Width.qword.bytes = faulty.memSize ∧
    faulty.config.policy = .fault ∧
    ((65529 : Word).toNat + (0 : Word).toNat * 16) % 2 ^ 64 % faulty.memSize + Width.qword.bytes = faulty.memSize + 1 ∧
    ((65528 : Word).toNat + (0 : Word).toNat * 16) % 2 ^ 64 % faulty.memSize + Width.qword.bytes = faulty.memSize := by
  decide

theorem witness_HostBulkTransfersTruncate :
    ([7, 8] : List Byte)[0]? = some 7 ∧ (65535 + (0 : Word).toNat * 16) % 2 ^ 64 % plain.memSize + 0 < plain.memSize ∧
      65534 < (65535 + (0 : Word).toNat * 16) % 2 ^ 64 % plain.memSize := by decide

/-- A register and a memory destination, under either policy, and every type of source: what the statements about one
instruction ask of their operands. -/
theorem witness_operands :
    plain.writable rax = true ∧ plain.writable (at64 65535) = true ∧ faulty.writable (at64 65528) = true ∧
      faulty.writable (at64 65529) = false ∧ plain.readable (imm8 255) = true ∧ plain.readable (at64 65535) = true ∧
      plain.writable (imm8 0) = false := by decide

theorem witness_MovCopies : plain.writable eax = true ∧ plain.readable (imm64 5) = true := by decide

theorem witness_XchgExchanges : plain.writable ax = true ∧ plain.writable al = true := by decide

theorem witness_LeaLoadsOffset :
    faulty.writable rax = true ∧ ((AddrMode.direct 65535).regs.all RegRef.allowed) = true ∧
      Operand.isImm rax = false ∧ Operand.isMem rbx = false := by decide

theorem witness_IncDecNegResult : plain.writable al = true ∧ (plain.readOp al).toNat = 2 ^ (al.width.bits - 1) := by
  decide

theorem witness_AddAdcResult :
    plain.writable al = true ∧ plain.readable (imm8 255) = true ∧
      plain.violations (.add (imm8 0) al) = [.writeImmediate] := by decide

theorem witness_SubSbbResult :
    plain.writable al = true ∧ plain.readable (imm8 255) = true ∧
      faulty.violations (.sbb (at64 65529) al) = [.bounds] := by decide

theorem witness_MulImulResult : plain.writable al = true ∧ plain.readable (imm8 255) = true := by decide

theorem witness_DivModResult :
    plain.writable al = true ∧ plain.readable (imm64 0x100) = true ∧
      (plain.readOp (imm64 0x100)).toNat % 2 ^ al.width.bits = 0 ∧
      plain.readable (imm64 0x101) = true ∧ (plain.readOp (imm64 0x101)).toNat % 2 ^ al.width.bits = 1 := by decide

/-- -128 by 0 and by -1. -/
theorem witness_IdivImodResult :
    plain.writable al = true ∧ (plain.readOp al).toNat = 0x80 ∧ plain.readable (imm8 0) = true ∧
      (plain.readOp (imm8 0)).toNat % 2 ^ al.width.bits = 0 ∧ plain.readable (imm8 255) = true ∧
      (plain.readOp (imm8 255)).toNat % 2 ^ al.width.bits = 255 := by decide

theorem witness_LogicResult : plain.writable al = true ∧ plain.readable rbx = true := by decide

theorem witness_CompareTestFlags : plain.readable (imm8 1) = true ∧ plain.readable al = true := by decide

theorem witness_CompareThenJump :
    plain.readable al = true ∧ plain.readable (imm8 2) = true ∧
      ∃ t, exec (.cmp al (imm8 2)) plain = .next t ∧ t.readable (imm64 0x40) = true := by
  refine ⟨by decide, by decide, _, rfl, ?_⟩
  rfl

/-- Counts 1, the width, and above it. -/
theorem witness_ShiftResult :
    plain.writable al = true ∧ plain.readable (imm8 1) = true ∧ (plain.readOp (imm8 1)).toNat = 1 ∧
      (plain.readOp (imm8 8)).toNat = al.width.bits ∧ (plain.readOp (imm64 0x100)).toNat = 256 := by decide

theorem witness_RotateResult :
    plain.writable al = true ∧ plain.readable (imm8 8) = true ∧ (plain.readOp (imm8 8)).toNat = al.width.bits := by decide

theorem witness_RotateThroughCarryResult :
    plain.writable al = true ∧ plain.readable (imm8 9) = true ∧ (plain.readOp (imm8 9)).toNat = al.width.bits + 1 := by
  decide

theorem witness_ZeroCountWritesNothing :
    plain.writable al = true ∧ plain.readable (imm8 0) = true ∧ plain.readOp (imm8 0) = 0 := by decide

theorem witness_JmpGoesToTarget : plain.readable (at64 65535) = true ∧ faulty.readable rax = true := by decide

theorem witness_ConditionalJumpsFollowFlags :
    plain.readable (imm64 0x40) = true ∧ ∃ p ∈ conditionalJumps, ¬ p.2 plain ∧ ∃ q ∈ conditionalJumps, q.2 plain := by
  refine ⟨by decide, (.jz, fun s => s.flag .zf = true), ?_, by decide, (.jnz, fun s => s.flag .zf = false), ?_, ?_⟩
  · simp [conditionalJumps]
  · simp [conditionalJumps]
  · decide

theorem witness_CallOpensFrame :
    faulty.readable (imm64 35) = true ∧ faulty.slotOk (faulty.get .rsp - 8) 8 = true ∧
      faulty.slotOk (faulty.get .rsp - 16) 8 = true := by decide

theorem witness_RetClosesFrame :
    faulty.readable (imm64 8) = true ∧ faulty.slotOk (faulty.get .rsp) 8 = true ∧
      faulty.slotOk (faulty.get .rsp + 8) 8 = true := by decide

theorem witness_CallThenRetRestores :
    ∃ t, exec (.call (imm64 35)) plain = .next t ∧ plain.readable (imm64 35) = true ∧
      plain.slotOk (plain.get .rsp - 8) 8 = true ∧ plain.slotOk (plain.get .rsp - 16) 8 = true ∧
      16 ≤ (plain.get .rsp + plain.get .ss * 16#64).toNat ∧
      t.config = plain.config ∧ t.get .ss = plain.get .ss ∧ t.get .rsp = t.get .rbp ∧ t.readable (imm64 8) = true :=
  ⟨_, rfl, by decide, by decide, by decide, by decide, rfl, by decide, by decide, rfl⟩

theorem witness_PushStores :
    faulty.readable al = true ∧ faulty.slotOk (faulty.get .rsp - 1) al.width.bytes = true := by decide

theorem witness_PopLoads : faulty.writable rsp = true ∧ faulty.slotOk (faulty.get .rsp) rsp.width.bytes = true := by decide

theorem witness_PushThenPopReturnsValue :
    ∃ t, exec (.push rax) plain = .next t ∧ plain.readable rax = true ∧ rax.width = rbx.width ∧
      plain.slotOk (plain.get .rsp - BitVec.ofNat 64 rax.width.bytes) rax.width.bytes = true ∧
      t.writable rbx = true ∧ .rsp ∉ Operand.destRegs rbx ∧
      (∀ e ∈ plain.history, (plain.get .rsp).toNat ≤ e.address.toNat) ∧ rax.width.bytes ≤ (plain.get .rsp).toNat :=
  ⟨_, rfl, by decide, by decide, by decide, rfl, by decide, by decide, by decide⟩

theorem witness_PushfPopfMoveFlags :
    faulty.slotOk (faulty.get .rsp - 8) 8 = true ∧ faulty.slotOk (faulty.get .rsp) 8 = true := by decide

theorem witness_PushaStores :
    ∀ i, i < 14 → faulty.slotOk (faulty.get .rsp - BitVec.ofNat 64 (8 * (i + 1))) 8 = true := by decide

theorem witness_PopaLoads :
    ∀ i, i < 14 → faulty.slotOk (faulty.get .rsp + BitVec.ofNat 64 (8 * i)) 8 = true := by decide

theorem witness_PushaThenPopaRestores :
    ∃ t, exec .pusha plain = .next t ∧
      (∀ i, i < 14 → plain.slotOk (plain.get .rsp - BitVec.ofNat 64 (8 * (i + 1))) 8 = true) ∧
      112 ≤ plain.memSize ∧ 112 ≤ (plain.get .rsp + plain.get .ss * 16#64).toNat ∧
      t.config = plain.config ∧ t.get .ss = plain.get .ss :=
  ⟨_, rfl, by decide, by decide, by decide, rfl, rfl⟩

/-- With and without a device. -/
theorem witness_InReadsDevice :
    wired.readable (imm8 1) = true ∧ wired.readable (imm8 0) = true ∧ wired.writable rax = true ∧
      (∃ x ∈ wired.config.devices, x.port = wired.readOp (imm8 1)) ∧
      ¬ ∃ x ∈ wired.config.devices, x.port = wired.readOp (imm8 2) := by decide

theorem witness_OutWritesDevice :
    wired.readable (imm8 1) = true ∧ wired.readable al = true ∧
      (∃ x ∈ wired.config.devices, x.port = wired.readOp (imm8 1)) ∧
      ¬ ∃ x ∈ wired.config.devices, x.port = wired.readOp (imm8 2) := by decide

theorem witness_IntDeliversCode :
    plain.readable (imm8 0) = true ∧ plain.readOp (imm8 0) = 0 ∧ plain.readable (imm8 1) = true ∧
      plain.readOp (imm8 1) ≠ 0 := by decide

/-- Code 0, and a code that is offered to a listener. -/
theorem witness_HostInterruptIsNotAStep :
    let heard : State := { plain with config := { plain.config with listeners := [0] } }
    plain.readable (imm8 0) = true ∧ plain.readOp (imm8 0) = 0 ∧
      heard.readable (imm8 1) = true ∧ heard.readOp (imm8 1) = 1 ∧ (1 : Word) ≠ 0 ∧ heard.config.listeners = [0] := by
  decide

end Sys2Proof.Tests
end

/-! Registers and flags (10_state.md): a region is read and merged as numbers (R24), a flag access touches its bit only,
and an instruction keeps every flag it does not name (R31). -/

namespace Sys2Proof.Machine

/-! ## Regions -/

/-- The bit range of R22 by which a region is named is the one the model computes with. -/
theorem Region.lo_bits_of_mem_ranges {g : Region} {lo width : Nat}
    (h : (g, lo, width) ∈
      [(Region.lowByte, 0, 8), (.highByte, 8, 8), (.word, 0, 16), (.dword, 0, 32), (.qword, 0, 64)]) :
    lo = g.lo ∧ width = g.width.bits := by
  cases g <;> simpa [Region.lo, Region.width, Width.bits, Width.bytes] using h

/-- A region view is the slot's bits of the region as a number (R24). -/
theorem State.getRef_toNat (s : State) (r : RegRef) :
    (s.getRef r).toNat = (s.get r.reg).toNat / 2 ^ r.region.lo % 2 ^ r.region.width.bits :=
  read_toNat _ _

/-- The register file after a region write: the named slot is merged, every other slot is kept (R24). -/
theorem State.setRef_get (s : State) (r : RegRef) (v : Word) (q : Reg) :
    (s.setRef r v).get q = if q = r.reg then Region.write r.region (s.get r.reg) v else s.get q :=
  State.get_set s r.reg q _

/-- Settles O19: the model's range of each region is the one of R22, and the view and the merge are known as numbers. -/
theorem regionViewReadWrite : Obligations.RegionViewReadWrite := by
  intro s r g lo width v hmem
  obtain ⟨rfl, rfl⟩ := Region.lo_bits_of_mem_ranges hmem
  refine ⟨s.getRef_toNat ⟨r, g⟩, ?_, fun q hq => ?_⟩
  · rw [State.setRef_get, if_pos rfl]
    exact write_toNat g _ v
  · rw [State.setRef_get, if_neg hq]

/-! ## Flags -/

/-- The bit of RFLAGS by which a flag is named (R30, D16) is the one the model computes with. -/
theorem Flag.bit_of_mem_places {f : Flag} {n : Nat}
    (h : (f, n) ∈ [(Flag.cf, 0), (.pf, 2), (.zf, 6), (.sf, 7), (.of, 11)]) : n = f.bit := by
  cases f <;> simpa [Flag.bit] using h

/-- The bit of a flag outside a list of flags belongs to none of them: no two flags share a bit. -/
theorem not_isFlagBit_of_notMem {f : Flag} {flags : List Flag} (h : f ∉ flags) : ¬ isFlagBit flags f.bit := by
  rintro ⟨g, hg, hbit⟩
  exact h (Flag.bit_inj hbit ▸ hg)

/-- A frame that names neither a flag nor RFLAGS keeps the flag. -/
theorem Frame.flag {s t : State} {regs : List Reg} {flags : List Flag} {bytes : List Nat}
    (h : Frame s t regs flags bytes) {f : Flag} (hregs : Reg.rflags ∉ regs) (hflags : f ∉ flags) :
    t.flag f = s.flag f :=
  h.otherBits hregs f.bit (Flag.bit_lt f) (not_isFlagBit_of_notMem hflags)

/-- What any instruction but INT may change, whether it completes or raises an error (R27, R31, R146). -/
theorem exec_frame {i : Instr} {s t : State} (hi : ∀ c, i ≠ .int c) (h : exec i s = .next t) :
    Frame s t (Instr.mayWriteRegs i) (Instr.mayWriteFlags i) (s.mayWriteBytes i) := by
  rcases exec_law i s with ⟨e, hfail, _⟩ | ⟨_, _, u, hdone, hbody⟩
  · obtain rfl := next_inj (hfail.symm.trans h)
    exact failed_frame s e _ _ _
  · obtain rfl := next_inj (hdone.symm.trans h)
    obtain ⟨heffect, hpending⟩ := body_effect hi hbody
    exact complete_frame (clearFrame heffect.frame) hpending

/-- Settles O21: the host's accesses are the model's accesses of one bit of RFLAGS, and an instruction's frame keeps every
flag the instruction does not name. -/
theorem flagReadWrite : Obligations.FlagReadWrite := by
  intro s f n b hmem
  obtain rfl := Flag.bit_of_mem_places hmem
  refine ⟨rfl, fun j hj => State.writeFlag_bit s f b j hj, fun r hr => State.writeFlag_get s f b r hr,
    State.writeFlag_mem s f b, fun i t hi hregs hflags h => ?_⟩
  exact (exec_frame hi h).flag hregs hflags

end Sys2Proof.Machine

/-! Memory (20_memory.md): the read and the write primitive are inverse little-endian transfers that touch their own bytes
only (R62, R63), and the host's bulk transfers stop at the end of the buffer (R66, R67). -/

namespace Sys2Proof.Machine

/-! ## The read and the write primitive -/

/-- The value read is the little-endian sum of its bytes: eight bytes or fewer fit the word (R62). -/
theorem State.memRead_toNat (s : State) (p n : Nat) (hn : n ≤ 8) :
    (s.memRead p n).toNat =
      ((List.range n).map fun i => (Memory.get s.mem ((p + i) % s.memSize)).toNat * 256 ^ i).sum := by
  have hlt : leNat (Memory.readBytes s.memSize s.mem p n) < 2 ^ 64 := by
    calc leNat (Memory.readBytes s.memSize s.mem p n)
        < 256 ^ n := by simpa using leNat_lt (Memory.readBytes s.memSize s.mem p n)
      _ ≤ 256 ^ 8 := Nat.pow_le_pow_right (by decide) hn
      _ = 2 ^ 64 := by decide
  rw [← leNat_sum, State.memRead, BitVec.toNat_ofNat, Nat.mod_eq_of_lt hlt]

/-- After a write no longer than the buffer, memory holds the value where it was written (R63). -/
theorem State.memWrite_memHolds (s : State) (p n : Nat) (v : Word) (hn : n ≤ s.memSize) :
    (s.memWrite p n v).memHolds p n v := by
  intro i hi
  rw [State.memWrite_memSize, State.memWrite_memGet s p n v _ hn, storedByte_of_mem v _ hn hi]

/-- A write changes no byte outside the ones it names (R63). -/
theorem State.memWrite_memGet_of_notMem (s : State) (p n : Nat) (v : Word) {a : Nat} (hn : n ≤ s.memSize)
    (ha : a ∉ byteRange s.memSize p n) : Memory.get (s.memWrite p n v).mem a = Memory.get s.mem a := by
  rw [State.memWrite_memGet s p n v a hn, storedByte_of_notMem v _ ha]

/-- Memory that holds a value at a width holds it at every narrower width (R69). -/
theorem State.memHolds_of_le {t : State} {p m n : Nat} {v : Word} (h : t.memHolds p n v) (hmn : m ≤ n) :
    t.memHolds p m v :=
  fun i hi => h i (hi.trans_le hmn)

/-- Settles O25: the write leaves memory holding the value at its width, hence at every narrower one, and a read of held
bytes gives the value's low part. -/
theorem memoryReadAfterWrite : Obligations.MemoryReadAfterWrite := by
  intro s p n v hwidth _
  have hn8 : n ≤ 8 := (by decide : ∀ k ∈ [1, 2, 4, 8], k ≤ 8) n hwidth
  have hn : n ≤ s.memSize := hn8.trans (by have := s.memSize_pos; omega)
  have hholds := s.memWrite_memHolds p n v hn
  refine ⟨s.memRead_toNat p n hn8, State.memRead_of_holds _ p n v hholds, fun i hi => ?_,
    fun a ha => s.memWrite_memGet_of_notMem p n v hn ha,
    fun m _ hm => State.memRead_of_holds _ p m v (State.memHolds_of_le hholds hm)⟩
  have hbyte := hholds i hi
  rw [State.memWrite_memSize] at hbyte
  rw [hbyte, BitVec.toNat_ofNat]

/-! ## The host's bulk transfers -/

/-- The physical index as a number (R60, D4). -/
theorem physical_eq (size : Nat) (seg off : Word) :
    physical size seg off = (off.toNat + seg.toNat * 16) % 2 ^ 64 % size := by
  simp [physical, BitVec.toNat_add, BitVec.toNat_mul]

/-- Bytes read from a range inside the buffer stand at consecutive indices. -/
theorem Memory.readBytes_of_le {size p n : Nat} (m : Memory) (h : p + n ≤ size) :
    Memory.readBytes size m p n = (List.range n).map fun i => Memory.get m (p + i) := by
  apply List.ext_getElem (by simp)
  intro i hi _
  have hin : i < n := by simpa using hi
  rw [Memory.readBytes_getElem, Nat.mod_eq_of_lt (by omega), List.getElem_map, List.getElem_range]

/-- A byte stored in a range inside the buffer stands at its own index. -/
theorem Memory.get_writeBytes_of_le {size p i : Nat} {b : Byte} {bs : List Byte} (m : Memory)
    (h : p + bs.length ≤ size) (hb : bs[i]? = some b) :
    Memory.get (Memory.writeBytes size m p bs) (p + i) = b := by
  obtain ⟨hi, rfl⟩ := List.getElem?_eq_some_iff.1 hb
  have hget := Memory.get_writeBytes size m p i bs (by omega) hi
  rwa [Nat.mod_eq_of_lt (by omega)] at hget

/-- Storing a range inside the buffer changes no byte before or after it. -/
theorem Memory.get_writeBytes_outside {size p a : Nat} {bs : List Byte} (m : Memory)
    (h : p + bs.length ≤ size) (ha : a < p ∨ p + bs.length ≤ a) :
    Memory.get (Memory.writeBytes size m p bs) a = Memory.get m a := by
  apply Memory.get_writeBytes_of_notMem
  intro i hi
  rw [Nat.mod_eq_of_lt (by omega)]
  omega

/-- Settles O27: both transfers go over a range that ends inside the buffer, where no index is reduced. -/
theorem hostBulkTransfersTruncate : Obligations.HostBulkTransfersTruncate := by
  intro s address segment length bytes p
  have hphys : physical s.memSize segment address = p := physical_eq ..
  have hp : p < s.memSize := Nat.mod_lt _ (by have := s.memSize_pos; omega)
  have hfit : p + (bytes.take (s.memSize - p)).length ≤ s.memSize := by
    rw [List.length_take]; omega
  have hmem : (s.hostWriteBulk address segment bytes).mem =
      Memory.writeBytes s.memSize s.mem p (bytes.take (s.memSize - p)) := by
    rw [← hphys]; rfl
  refine ⟨?_, fun i b hb hi => ?_, fun a ha => ?_⟩
  · rw [State.hostReadBulk, hphys]
    exact Memory.readBytes_of_le s.mem (by omega)
  · rw [hmem]
    refine Memory.get_writeBytes_of_le s.mem hfit ?_
    rwa [List.getElem?_take_of_lt (by omega)]
  · rw [hmem]
    refine Memory.get_writeBytes_outside s.mem hfit ?_
    rw [List.length_take]
    omega

end Sys2Proof.Machine

/-! Encoding (30_encoding.md): what the encoder writes reads back from a list that begins with it (R121), and an operand
that decodes re-encodes to the bytes read with the unused bits of its tag byte cleared (R94, R120). -/

namespace Sys2Proof.Machine

/-- The bytes at the head of a list are held from cursor position 0 on. -/
theorem listFetch_append_hasAt (bs rest : List Byte) : Fetch.HasAt (listFetch (bs ++ rest)) 0 bs :=
  listFetch_hasAt [] bs rest

/-- An instruction reads back from its own bytes, whatever follows them (R121). -/
theorem decodeBytes_encode_append {i : Instr} (hw : i.wellFormed = true) (rest : List Byte) :
    decodeBytes (encode i ++ rest) = .ok (i, i.encodedLength) :=
  decode_hasAt i hw (listFetch_append_hasAt (encode i) rest)

/-- An operand reads back from its own bytes, whatever follows them (R121). -/
theorem decodeOperand_encode_append {op : Operand} (hw : op.wellFormed = true) (rest : List Byte) :
    decodeOperand (listFetch (op.encode ++ rest)) 0 = .ok (op, op.encodedLength) := by
  have h := decodeOperand_hasAt op hw (listFetch_append_hasAt op.encode rest)
  rwa [Nat.zero_add] at h

/-- An operand that decodes at the head of a list re-encodes to the bytes read: the tag byte with bits 5:2 cleared, the
bytes after it unchanged (R94, R120). -/
theorem encode_of_decodeOperand_cons {op : Operand} {n : Nat} {tag : Byte} {bs : List Byte}
    (h : decodeOperand (listFetch (tag :: bs)) 0 = .ok (op, n)) :
    op.encode = (tag &&& 0xC3#8) :: bs.take (n - 1) := by
  obtain ⟨-, hn, -, tag', tl, hread, henc⟩ := decodeOperand_ok h
  rw [Nat.zero_add] at hn
  subst hn
  have hpos : 0 < op.encodedLength := by have := op.encodedLength_bounds; omega
  rw [List.drop_zero, List.take_cons hpos] at hread
  obtain ⟨rfl, rfl⟩ := List.cons.inj hread
  exact henc

/-- Settles O1: each round trip reads the encoder's bytes at the head of a list, and the last clause reads them back. -/
theorem encodingRoundTrip : Obligations.EncodingRoundTrip :=
  ⟨fun i rest hw => ⟨decodeBytes_encode_append hw rest, encode_length i⟩,
    fun op rest hw => ⟨decodeOperand_encode_append hw rest, op.encode_length⟩,
    fun _ _ _ _ h => encode_of_decodeOperand_cons h⟩

end Sys2Proof.Machine

/-! The execution cycle (40_execution_cycle.md): a step whose fetch decodes runs the instruction with IP advanced (R144),
and a step whose fetch fails reports it and moves IP by one byte (R143). -/

namespace Sys2Proof.Machine

/-! ## The two ways a step goes -/

/-- A step whose fetch decodes is the instruction's execution (R144). -/
theorem step_of_decodeNext_ok {s : State} {i : Instr} {len : Nat} (h : s.decodeNext = .ok (i, len)) :
    step s = exec i (s.beginExecute len) := by
  rw [step, h]

/-- A step whose fetch fails reports the decode error (R143). -/
theorem step_of_decodeNext_error {s : State} {e : DecodeError} (h : s.decodeNext = .error e) :
    step s = .next (s.snapshot.raiseDecode e) := by
  rw [step, h]

/-- The snapshot is IP and the byte at the physical index of CS:IP (R141, R285). -/
theorem State.snapshot_eq (s : State) :
    s.snapshot = { s with ip0 := s.get .rip, opc := Memory.get s.mem (s.phys .cs (s.get .rip)) } := by
  rw [State.snapshot, fetchAddr0]

/-! ## IP -/

/-- Execution starts with IP advanced by the encoded length (R144). -/
theorem State.beginExecute_rip (s : State) (len : Nat) :
    (s.beginExecute len).get .rip = s.get .rip + BitVec.ofNat 64 len :=
  State.get_set_self ..

/-- An execute error keeps every register (R146). -/
@[simp] theorem State.failed_get (s : State) (e : ExecError) (r : Reg) : (s.failed e).get r = s.get r := rfl

/-! ## The statements -/

/-- Settles O6: the step is `exec` from `beginExecute`, and a failed execution keeps the registers, IP among them, of the
state it started from. -/
theorem stepRunsDecodedInstruction : Obligations.StepRunsDecodedInstruction := by
  intro s i len hdecode _ u
  have hstart : s.beginExecute len = u := by
    rw [State.beginExecute, State.snapshot_eq]
  refine ⟨by rw [step_of_decodeNext_ok hdecode, hstart], fun t e _ ht => ?_⟩
  rw [ht, State.failed_get, ← hstart, State.beginExecute_rip, BitVec.toNat_add, BitVec.toNat_ofNat, Nat.add_mod_mod]

/-- Settles O8: the step raises the decode error on the snapshot, whose `ip0` is IP. -/
theorem decodeFailureSkipsOneByte : Obligations.DecodeFailureSkipsOneByte := by
  intro s e herror
  rw [step_of_decodeNext_error herror, State.snapshot_eq]
  rfl

end Sys2Proof.Machine

/-! Arithmetic (42_arithmetic.md): ADD, ADC, SUB and SBB are one ALU rule over `AddCore` and `SubCore` (R156, R157), which
differ only in the carry they are given; the common errors of an instruction are its first violation (R146, R153). -/

namespace Sys2Proof.Machine

/-! ## What the four instructions are -/

/-- ADD is `AddCore` without a carry (R192). -/
theorem exec_add_eq (dst src : Operand) (s : State) :
    exec (.add dst src) s = aluRule2 (fun W a b _ => .ok (addCore W a b false)) dst src s := rfl

/-- ADC is `AddCore` with the carry before the instruction (R193). -/
theorem exec_adc_eq (dst src : Operand) (s : State) :
    exec (.adc dst src) s = aluRule2 (fun W a b cf => .ok (addCore W a b cf)) dst src s := rfl

/-- SUB is `SubCore` without a borrow (R194). -/
theorem exec_sub_eq (dst src : Operand) (s : State) :
    exec (.sub dst src) s = aluRule2 (fun W a b _ => .ok (subCore W a b false)) dst src s := rfl

/-- SBB is `SubCore` with the carry before the instruction as borrow (R195). -/
theorem exec_sbb_eq (dst src : Operand) (s : State) :
    exec (.sbb dst src) s = aluRule2 (fun W a b cf => .ok (subCore W a b cf)) dst src s := rfl

/-- The bytes of a two-operand instruction: the opcode, then the operands (R90, R120). -/
theorem encode_of_operands_pair {i : Instr} {x y : Operand} (h : i.operands = [x, y]) :
    encode i = i.opcode :: (x.encode ++ y.encode) := by
  simp [encode, h]

/-! ## Errors and completion -/

/-- An instruction with a violation reports the first one and leaves nothing else (R146, R153). -/
theorem exec_of_violations {i : Instr} {s : State} {e : ExecError} {es : List ExecError}
    (h : s.violations i = e :: es) : exec i s = .next (s.failed e) := by
  apply exec_of_check
  rw [← violations_head, h, List.head?_cons]

section Completion

variable {s : State} {dst src : Operand} {op : Nat → Nat → Nat → Bool → Except ExecError AluOut} {c : Bool}

/-- A two-operand rule that is `AddCore` with carry `c` on the operands' values writes their sum (R156). -/
theorem aluRule2_sumWritten (hd : s.writable dst = true) (hs : s.readable src = true)
    (hop : ∀ W a b, op W a b (s.flag .cf) = .ok (addCore W a b c)) :
    ∃ t, aluRule2 op dst src s = .next t ∧
      SumWritten s t dst (s.readOp dst).toNat ((s.readOp src).toNat % 2 ^ dst.width.bits) c.toNat := by
  have hW : 0 < dst.width.bits := Nat.lt_of_lt_of_le (by decide) (Width.bits_pos dst.width)
  have hcore := (hop _ _ _).trans
    (congrArg Except.ok (addCore_eq _ _ _ c hW (s.readOp_lt dst) (trunc_lt dst.width.bits (s.readOp src))))
  obtain ⟨t, hexec, hwrote, hflags⟩ := aluRule2_ok s dst src hd hs op _ _ _ hcore
  exact ⟨t, hexec, hwrote, hflags⟩

/-- A two-operand rule that is `SubCore` with borrow `c` on the operands' values writes their difference (R157). -/
theorem aluRule2_differenceWritten (hd : s.writable dst = true) (hs : s.readable src = true)
    (hop : ∀ W a b, op W a b (s.flag .cf) = .ok (subCore W a b c)) :
    ∃ t, aluRule2 op dst src s = .next t ∧
      DifferenceWritten s t dst (s.readOp dst).toNat ((s.readOp src).toNat % 2 ^ dst.width.bits) c.toNat := by
  have hW : 0 < dst.width.bits := Nat.lt_of_lt_of_le (by decide) (Width.bits_pos dst.width)
  have hcore := (hop _ _ _).trans
    (congrArg Except.ok (subCore_eq _ _ _ c hW (s.readOp_lt dst) (trunc_lt dst.width.bits (s.readOp src))))
  obtain ⟨t, hexec, hwrote, hflags⟩ := aluRule2_ok s dst src hd hs op _ _ _ hcore
  exact ⟨t, hexec, hwrote, hflags⟩

end Completion

/-! ## The statements -/

/-- Settles O32: both instructions are the `AddCore` rule, ADD with carry 0 and ADC with CF. -/
theorem addAdcResult : Obligations.AddAdcResult := by
  intro s dst src a b
  refine ⟨fun hd hs => ⟨?_, ?_⟩, fun i _ e es h => exec_of_violations h, encode_of_operands_pair rfl,
    encode_of_operands_pair rfl⟩
  · rw [exec_add_eq]
    exact aluRule2_sumWritten (c := false) hd hs fun _ _ _ => rfl
  · rw [exec_adc_eq]
    exact aluRule2_sumWritten hd hs fun _ _ _ => rfl

/-- Settles O33: both instructions are the `SubCore` rule, SUB with borrow 0 and SBB with CF. -/
theorem subSbbResult : Obligations.SubSbbResult := by
  intro s dst src a b
  refine ⟨fun hd hs => ⟨?_, ?_⟩, fun i _ e es h => exec_of_violations h, encode_of_operands_pair rfl,
    encode_of_operands_pair rfl⟩
  · rw [exec_sub_eq]
    exact aluRule2_differenceWritten (c := false) hd hs fun _ _ _ => rfl
  · rw [exec_sbb_eq]
    exact aluRule2_differenceWritten hd hs fun _ _ _ => rfl

end Sys2Proof.Machine

/-! The step (40_execution_cycle.md): it is a decode failure, which keeps everything but IP and one record, or the execution
of one instruction, which keeps what `exec_kept` says (R143 to R149); so the invariants hold of every step. -/

namespace Sys2Proof.Machine

/-! ## The invariant of a step -/

/-- Settles O12: a decode failure touches neither memory nor history nor PENDING, and an executed instruction keeps their
form, INT's listeners included. -/
theorem stepKeepsInvariant : Obligations.StepKeepsInvariant := by
  rintro s t ⟨hwf, hwithin, hpending, hhistory⟩ h
  rcases step_cases s t h with ⟨e, -, rfl⟩ | ⟨i, len, -, hexec⟩
  · exact ⟨hwf, hwithin, hpending, hhistory⟩
  · have kept := exec_kept i _ t hexec
    have hsize : t.memSize = s.memSize := congrArg Subtype.val kept.size
    refine ⟨kept.wf hwf, ?_, kept.pending, kept.history hhistory⟩
    rw [hsize]
    exact kept.within hwithin

/-- Settles O13: memory and history are empty after reset and no jump is pending. -/
theorem resetMeetsInvariant : Obligations.ResetMeetsInvariant :=
  ⟨⟨rfl, rfl, rfl, rfl⟩, fun _ => ⟨rfl, rfl, rfl, rfl⟩⟩

/-! ## Completion and the order of the checks -/

/-- Settles O9: the law of every instruction leaves these two outcomes. -/
theorem execCompletesOrReports : Obligations.ExecCompletesOrReports := by
  intro i s
  rcases exec_law i s with ⟨e, hexec, -⟩ | ⟨-, -, u, hexec, hbody⟩
  · exact ⟨_, hexec, .inr ⟨e, rfl⟩⟩
  · exact ⟨_, hexec, .inl (body_completed hbody)⟩

/-- Without a violation every check passes. -/
theorem check_eq_none_of_violations {i : Instr} {s : State} (h : s.violations i = []) :
    s.check (Instr.roles i) (Instr.slots s i) = none := by
  rw [← violations_head, h, List.head?_nil]

/-- An instruction without a violation reports a zero divisor, or divides by none and completes (R153 item 4). -/
theorem exec_of_no_violations {i : Instr} {s : State} (h : s.violations i = []) :
    (s.dividesByZero i ∧ exec i s = .next (s.failed .divideByZero)) ∨
      (¬ s.dividesByZero i ∧ ∃ t, exec i s = .next t ∧ InstrCompleted i s t) := by
  have hcheck := check_eq_none_of_violations h
  rcases exec_law i s with ⟨e, hexec, hfail | ⟨-, hzero, rfl⟩⟩ | ⟨-, hzero, u, hexec, hbody⟩
  · rw [hcheck] at hfail
    cases hfail
  · exact .inl ⟨hzero, hexec⟩
  · exact .inr ⟨hzero, _, hexec, body_completed hbody⟩

/-- Settles O10: the first violation is the failing check, and without one a zero divisor alone stands in the way. -/
theorem checksAreReportedInOrder : Obligations.ChecksAreReportedInOrder := by
  refine fun i s => ⟨fun e es h => exec_of_violations h, fun h hzero => ?_, fun h hzero => ?_⟩
  · rcases exec_of_no_violations h with ⟨-, hexec⟩ | ⟨hnz, -⟩
    · exact hexec
    · exact absurd hzero hnz
  · rcases exec_of_no_violations h with ⟨hz, -⟩ | ⟨-, hdone⟩
    · exact absurd hz hzero
    · exact hdone

/-! ## What an instruction and a step keep -/

/-- Settles O11: the frame holds of an error and of a completed rule alike. -/
theorem everyInstructionFrame : Obligations.EveryInstructionFrame :=
  fun _ _ _ hi h => exec_frame hi h

/-- A host reset keeps the parameters and the registries (R312). -/
theorem State.hostReset_config (s : State) : s.hostReset.config = s.config :=
  State.setHistory_config ..

/-- Settles O14: only `BodyEffect` of an INT reaches the registries. -/
theorem configurationNeverChanges : Obligations.ConfigurationNeverChanges := by
  refine ⟨fun s t h => ?_, fun i s t hi h => (exec_kept i s t h).registries (.inl hi), State.hostReset_config⟩
  rcases step_cases s t h with ⟨e, -, rfl⟩ | ⟨i, len, -, hexec⟩
  · exact ⟨rfl, rfl, fun _ => rfl⟩
  · have kept := exec_kept i _ t hexec
    exact ⟨kept.size, kept.policy, fun hl => kept.registries (.inr hl)⟩

/-- A completed rule keeps the segment registers: the jump it may apply targets no segment (R45, R149). -/
theorem complete_get_segment {t : State} {r : Reg} (hr : Reg.isSegment r = true)
    (hp : t.pending = none ∨ ∃ x, t.pending = some { ip := x, seg := none }) : t.complete.get r = t.get r := by
  have hrip : r ≠ .rip := by rintro rfl; cases hr
  rcases hp with hp | ⟨x, hp⟩
  · exact State.complete_get t hp r
  · rw [State.complete_get_jump t x hp, if_neg hrip]

/-- Without listeners an instruction keeps each segment register a word (R41). -/
theorem exec_words {i : Instr} {s t : State} (hl : s.config.listeners = []) (h : exec i s = .next t) {r : Reg}
    (hr : Reg.isSegment r = true) (hw : s.wordReg r) : t.wordReg r := by
  unfold State.wordReg at *
  rcases exec_law i s with ⟨e, hfail, -⟩ | ⟨-, -, u, hdone, hbody⟩
  · obtain rfl := next_inj (hfail.symm.trans h)
    exact hw
  obtain rfl := next_inj (hdone.symm.trans h)
  by_cases hi : ∀ c, i ≠ .int c
  · obtain ⟨heffect, hpending⟩ := body_effect hi hbody
    rw [complete_get_segment hr (hpending.imp_right fun ⟨x, hx, _⟩ => ⟨x, hx⟩)]
    exact heffect.words r hr hw
  · push Not at hi
    obtain ⟨c, rfl⟩ := hi
    have hu : u = s.clearPending.recordInterrupt (s.readOp c) :=
      hbody.trans (State.interrupt_no_listeners s.clearPending _ hl)
    subst hu
    rw [complete_get_segment hr (.inl rfl)]
    exact hw

/-- Settles O15: a decode failure writes only IP, and the instruction keeps segment registers words. -/
theorem segmentRegistersStayWords : Obligations.SegmentRegistersStayWords := by
  intro s t hl h hs r hmem
  have hr : Reg.isSegment r = true := by fin_cases hmem <;> rfl
  have hrip : r ≠ .rip := by rintro rfl; cases hr
  rcases step_cases s t h with ⟨e, -, rfl⟩ | ⟨i, len, -, hexec⟩
  · rw [State.raiseDecode, State.get_set_of_ne _ _ hrip]
    exact hs r hmem
  · refine exec_words (s := s.beginExecute len) hl hexec hr ?_
    rw [State.wordReg, State.beginExecute, State.get_set_of_ne _ _ hrip]
    exact hs r hmem

/-- Settles O16: a decode failure appends its one record uncounted, and for an instruction `exec_kept` says it from the
snapshot's `ip0` and opcode byte. -/
theorem diagnosticsOnlyGrow : Obligations.DiagnosticsOnlyGrow := by
  intro s t h
  rw [← fetchAddr0]
  rcases step_cases s t h with ⟨e, -, rfl⟩ | ⟨i, len, -, hexec⟩
  · refine ⟨[⟨.decode e, s.get .rip, Memory.get s.mem (s.fetchAddr 0)⟩], rfl, ?_, ?_⟩
    · intro d hd
      rw [List.mem_singleton.1 hd]
      exact ⟨rfl, rfl⟩
    · intro d hd _
      rw [List.mem_singleton.1 hd]
      exact ⟨rfl, rfl⟩
  · exact (exec_kept i _ t hexec).diags

/-- An instruction other than INT leaves the interrupt state (R44, R293). -/
theorem exec_sameInterrupt {i : Instr} {s t : State} (hi : ∀ c, i ≠ .int c) (h : exec i s = .next t) :
    SameInterrupt s t := by
  rcases exec_law i s with ⟨e, hfail, -⟩ | ⟨-, -, u, hdone, hbody⟩
  · obtain rfl := next_inj (hfail.symm.trans h)
    exact ⟨rfl, rfl⟩
  · obtain rfl := next_inj (hdone.symm.trans h)
    obtain ⟨heffect, -⟩ := body_effect hi hbody
    exact ⟨(State.complete_interrupted u).trans heffect.interrupt.interrupted,
      (State.complete_intCode u).trans heffect.interrupt.intCode⟩

/-- Settles O17: a decode failure keeps the interrupt state, and an instruction that clears INTERRUPTED is an INT with a
listener. -/
theorem interruptStatePersists : Obligations.InterruptStatePersists := by
  refine ⟨fun i s t hi h => exec_sameInterrupt hi h, fun s t h hset => ?_⟩
  rcases step_cases s t h with ⟨e, -, rfl⟩ | ⟨i, len, hdecode, hexec⟩
  · exact .inl hset
  · refine ((exec_kept i _ t hexec).interrupted hset).imp_right ?_
    rintro ⟨⟨c, rfl⟩, hl⟩
    exact ⟨⟨c, len, hdecode⟩, hl⟩

/-! ## Reset -/

/-- The register file after reset (R50): 0 but for RIP, RSP and RBP. -/
theorem State.get_of_resetSlots {t : State} {n : Nat} (h : t.slots = resetSlots n) (r : Reg) :
    t.get r = match r with
      | .rip => BitVec.ofNat 64 (n / 3)
      | .rsp | .rbp => BitVec.ofNat 64 (n - 1)
      | _ => 0 := by
  rw [State.get, h]
  cases r <;> rfl

/-- A number below the largest memory size is a word with that value. -/
theorem State.toNat_ofNat_of_le_memSize (s : State) {n : Nat} (h : n ≤ s.memSize) : (BitVec.ofNat 64 n).toNat = n := by
  have hmax : s.memSize ≤ 2147483647 := s.config.memSize.property.2
  rw [BitVec.toNat_ofNat, Nat.mod_eq_of_lt (by omega)]

theorem State.hostReset_slots (s : State) : s.hostReset.slots = resetSlots s.memSize :=
  State.setHistory_slots ..

/-- Settles O18: both ways of reset put the register file of `resetSlots` over an empty memory. -/
theorem resetLeavesSpecValues : Obligations.ResetLeavesSpecValues := by
  intro s t ht
  have hslots : t.slots = resetSlots s.memSize := by
    rcases ht with rfl | rfl
    · exact s.hostReset_slots
    · rfl
  have hget := State.get_of_resetSlots hslots
  obtain ⟨hint, hcode, hcount, hhistory, hpending, hmem, hconfig⟩ :
      t.interrupted = false ∧ t.intCode = 0 ∧ t.stepCount = 0 ∧ t.history = [] ∧ t.pending = none ∧ t.mem = [] ∧
        t.config = s.config := by
    rcases ht with rfl | rfl
    · simp [State.hostReset]
    · exact ⟨rfl, rfl, rfl, rfl, rfl, rfl, rfl⟩
  refine ⟨fun r hr => ?_, ?_, ?_, ?_, hint, hcode, hcount, hhistory, hpending, fun a => by rw [hmem]; rfl, hconfig,
    fun hhost => ?_⟩
  · rw [hget]
    fin_cases hr <;> rfl
  · rw [hget]
    exact s.toNat_ofNat_of_le_memSize (Nat.div_le_self ..)
  · rw [hget]
    exact s.toNat_ofNat_of_le_memSize (Nat.sub_le ..)
  · rw [hget]
    exact s.toNat_ofNat_of_le_memSize (Nat.sub_le ..)
  · rw [hhost]
    exact ⟨State.setHistory_diags .., State.setHistory_deviceLog ..⟩

end Sys2Proof.Machine

/-! Fetch and decode (30_encoding.md): a source of bytes that never fails with an unknown opcode makes the decoder do so only
at an unassigned byte (R116, R117); memory that holds an encoding at CS:IP is a source that holds it (R93); and what decodes
from a list re-encodes to the bytes read (R94, R120). -/

namespace Sys2Proof.Machine

/-! ## The unknown opcode -/

/-- A computation that does not fail with DECODE_UNKNOWN_OPCODE. -/
def KnownOpcode {α : Type} (x : Except DecodeError α) : Prop := x ≠ .error .unknownOpcode

@[simp] theorem KnownOpcode.ok {α : Type} (a : α) : KnownOpcode (.ok a : Except DecodeError α) := nofun

theorem KnownOpcode.bind {α β : Type} {x : Except DecodeError α} {f : α → Except DecodeError β}
    (hx : KnownOpcode x) (hf : ∀ a, KnownOpcode (f a)) : KnownOpcode (x >>= f) := by
  cases x with
  | ok a => exact hf a
  | error e => exact fun h => hx (congrArg Except.error (Except.error.inj h))

section Source

variable {rd : Fetch} (hrd : ∀ k w, KnownOpcode (rd k w))

include hrd

theorem fetchRegRef_known (k : Nat) : KnownOpcode (fetchRegRef rd k) := by
  refine (hrd k .byte).bind fun b => ?_
  unfold decodeRegRef
  split
  · nofun
  · split <;> nofun

theorem fetchScale_known (k : Nat) : KnownOpcode (fetchScale rd k) :=
  (hrd k .word).bind fun _ => .ok _

theorem decodeMode_known (mode k : Nat) : KnownOpcode (decodeMode rd mode k) := by
  have hreg := fetchRegRef_known hrd
  have hscale := fetchScale_known hrd
  unfold decodeMode
  split
  · exact (hrd _ _).bind fun _ => .ok _
  · exact (hreg _).bind fun _ => .ok _
  · exact (hrd _ _).bind fun _ => (hreg _).bind fun _ => .ok _
  · exact (hreg _).bind fun _ => (hreg _).bind fun _ => .ok _
  · exact (hrd _ _).bind fun _ => (hreg _).bind fun _ => (hreg _).bind fun _ => .ok _
  · exact (hscale _).bind fun _ => (hreg _).bind fun _ => .ok _
  · exact (hrd _ _).bind fun _ => (hscale _).bind fun _ => (hreg _).bind fun _ => .ok _
  · exact (hscale _).bind fun _ => (hreg _).bind fun _ => (hreg _).bind fun _ => .ok _
  · exact (hrd _ _).bind fun _ => (hscale _).bind fun _ => (hreg _).bind fun _ => (hreg _).bind fun _ => .ok _
  · nofun

theorem decodeMem_known (w : Width) (k : Nat) : KnownOpcode (decodeMem rd w k) := by
  refine (hrd k .byte).bind fun payload => ?_
  split
  · split
    · nofun
    · exact (decodeMode_known hrd _ _).bind fun _ => .ok _
  · nofun

theorem decodeOperand_known (k : Nat) : KnownOpcode (decodeOperand rd k) := by
  refine (hrd k .byte).bind fun tag => ?_
  dsimp only
  split
  · refine (fetchRegRef_known hrd _).bind fun r => ?_
    split
    · exact .ok _
    · nofun
  · exact decodeMem_known hrd _ _
  · exact (hrd _ _).bind fun _ => .ok _
  · nofun

theorem decode1_known (mk : Operand → Instr) : KnownOpcode (decode1 rd mk) :=
  (decodeOperand_known hrd _).bind fun _ => .ok _

theorem decode2_known (mk : Operand → Operand → Instr) : KnownOpcode (decode2 rd mk) :=
  (decodeOperand_known hrd _).bind fun _ => (decodeOperand_known hrd _).bind fun _ => .ok _

theorem decode3_known (mk : Operand → Operand → Operand → Instr) : KnownOpcode (decode3 rd mk) :=
  (decodeOperand_known hrd _).bind fun _ =>
    (decodeOperand_known hrd _).bind fun _ => (decodeOperand_known hrd _).bind fun _ => .ok _

end Source

/-- An unassigned opcode byte has no loader (R117). -/
theorem decodeBody_of_unassigned {opc : Nat} (rd : Fetch) (h : opc ∉ assignedOpcodes) :
    decodeBody rd opc = .error .unknownOpcode := by
  unfold decodeBody
  split
  case h_58 => rfl
  all_goals exact absurd (by decide) h

/-- An assigned opcode byte has a loader, which fails with the errors of its operands only (R116). -/
theorem decodeBody_of_assigned {rd : Fetch} (hrd : ∀ k w, KnownOpcode (rd k w)) {opc : Nat}
    (h : opc ∈ assignedOpcodes) : KnownOpcode (decodeBody rd opc) := by
  have h1 := decode1_known hrd
  have h2 := decode2_known hrd
  have h3 := decode3_known hrd
  fin_cases h
  all_goals first
    | exact .ok _
    | exact h1 _
    | exact h2 _
    | exact h3 _

/-- The fetched opcode byte chooses the loader (R142). -/
theorem State.decodeNext_eq (s : State) :
    s.decodeNext = decodeBody s.fetchField (Memory.get s.mem (s.phys .cs (s.get .rip))).toNat := by
  have hbyte := (Memory.get s.mem (s.fetchAddr 0)).isLt
  rw [State.decodeNext, decode, fetch_opcode]
  show decodeBody _ ((Memory.get s.mem (s.fetchAddr 0)).setWidth 64).toNat = _
  rw [BitVec.toNat_setWidth, Nat.mod_eq_of_lt (by omega), fetchAddr0]

/-- Settles O4: the loader of the opcode byte is chosen before any operand is read. -/
theorem unassignedOpcodesAreSkipped : Obligations.UnassignedOpcodesAreSkipped := by
  refine ⟨rfl, fun s => ?_⟩
  intro opc
  refine ⟨fun hun => ?_, fun has => ?_, rfl⟩
  · exact decodeFailureSkipsOneByte s _ (s.decodeNext_eq.trans (decodeBody_of_unassigned _ hun))
  · rw [s.decodeNext_eq]
    exact decodeBody_of_assigned (fetch_ne s) has

/-! ## Encoded bytes in memory -/

/-- Where the linear address of the instruction does not pass 2^64, its bytes stand at consecutive indices (R60, R93). -/
theorem State.fetchAddr_eq (s : State) {k : Nat} (h : (s.get .rip + s.get .cs * 16#64).toNat + k < 2 ^ 64) :
    s.fetchAddr k = ((s.get .rip + s.get .cs * 16#64).toNat + k) % s.memSize := by
  have hsum : s.get .rip + BitVec.ofNat 64 k + s.get .cs * 16#64 =
      s.get .rip + s.get .cs * 16#64 + BitVec.ofNat 64 k := by ac_rfl
  rw [State.fetchAddr, State.phys, physical, hsum, BitVec.toNat_add, BitVec.toNat_ofNat]
  congr 1
  omega

/-- A field inside the instruction is not refused: the policy wraps it, or the instruction ends inside the buffer (R64). -/
theorem State.fetch_inBounds {s : State} {j n len : Nat}
    (hlinear : (s.get .rip + s.get .cs * 16#64).toNat + len ≤ 2 ^ 64)
    (hpolicy : s.config.policy = .wrap ∨ s.fetchAddr 0 + len ≤ s.memSize) (hj : j + n ≤ len) (hn : 0 < n) :
    s.inBounds (s.fetchAddr j) n = true := by
  unfold State.inBounds
  rcases hpolicy with hwrap | hend
  · rw [hwrap]
  · split
    · rfl
    · rw [decide_eq_true_eq]
      rw [s.fetchAddr_eq (k := 0) (by omega), Nat.add_zero] at hend
      rw [s.fetchAddr_eq (by omega), ← Nat.mod_add_mod, Nat.mod_eq_of_lt (by omega)]
      omega

/-- Memory that holds bytes at the addresses the fetch reads is a source that holds them. -/
theorem State.fetchField_hasAt {s : State} {bs : List Byte}
    (hbytes : ∀ (k : Nat) (b : Byte), bs[k]? = some b → Memory.get s.mem (s.fetchAddr k) = b)
    (hlinear : (s.get .rip + s.get .cs * 16#64).toNat + bs.length ≤ 2 ^ 64)
    (hpolicy : s.config.policy = .wrap ∨ s.fetchAddr 0 + bs.length ≤ s.memSize) :
    Fetch.HasAt s.fetchField 0 bs := by
  intro j w hj
  have hn := Width.bytes_pos w
  rw [Nat.zero_add, State.fetchField, if_pos (State.fetch_inBounds hlinear hpolicy hj hn), State.memRead]
  congr 3
  apply List.ext_getElem (by simp; omega)
  intro i hi _
  have hi : i < w.bytes := by simpa using hi
  have haddr : (s.fetchAddr j + i) % s.memSize = s.fetchAddr (j + i) := by
    rw [s.fetchAddr_eq (by omega), s.fetchAddr_eq (by omega), Nat.mod_add_mod, Nat.add_assoc]
  rw [Memory.readBytes_getElem, haddr, List.getElem_take, List.getElem_drop]
  exact hbytes _ _ (List.getElem?_eq_getElem _)

/-- Settles O7: the fetch is a source that holds the encoding, so it decodes to the instruction. -/
theorem encodedBytesAtIpRun : Obligations.EncodedBytesAtIpRun := by
  intro s i hw hbytes hlinear hpolicy
  have hdecode : s.decodeNext = .ok (i, (encode i).length) := by
    rw [encode_length]
    exact decode_hasAt i hw (State.fetchField_hasAt hbytes hlinear hpolicy)
  have hopcode : Memory.get s.mem (s.fetchAddr 0) = i.opcode := hbytes 0 i.opcode rfl
  rw [step_of_decodeNext_ok hdecode, State.beginExecute, State.snapshot, hopcode]

/-! ## Re-encoding what was read -/

/-- The operands `ops` decode one after another from cursor position `k` on, the last one ending at `k'` (R90). -/
def OperandsAt (bs : List Byte) : Nat → List Operand → Nat → Prop
  | k, [], k' => k = k'
  | k, op :: ops, k' => ∃ k1, decodeOperand (listFetch bs) k = .ok (op, k1) ∧ OperandsAt bs k1 ops k'

section Loaders

variable {bs : List Byte} {i : Instr} {len : Nat}

theorem OperandsAt.of_decode1 {mk : Operand → Instr} (hmk : ∀ a, (mk a).operands = [a])
    (h : decode1 (listFetch bs) mk = .ok (i, len)) : OperandsAt bs 1 i.operands len := by
  obtain ⟨⟨a, k⟩, ha, h⟩ := bind_ok h
  cases h
  rw [hmk]
  exact ⟨_, ha, rfl⟩

theorem OperandsAt.of_decode2 {mk : Operand → Operand → Instr} (hmk : ∀ a b, (mk a b).operands = [a, b])
    (h : decode2 (listFetch bs) mk = .ok (i, len)) : OperandsAt bs 1 i.operands len := by
  obtain ⟨⟨a, k⟩, ha, h⟩ := bind_ok h
  obtain ⟨⟨b, k'⟩, hb, h⟩ := bind_ok h
  cases h
  rw [hmk]
  exact ⟨_, ha, _, hb, rfl⟩

theorem OperandsAt.of_decode3 {mk : Operand → Operand → Operand → Instr}
    (hmk : ∀ a b c, (mk a b c).operands = [a, b, c])
    (h : decode3 (listFetch bs) mk = .ok (i, len)) : OperandsAt bs 1 i.operands len := by
  obtain ⟨⟨a, k⟩, ha, h⟩ := bind_ok h
  obtain ⟨⟨b, k'⟩, hb, h⟩ := bind_ok h
  obtain ⟨⟨c, k''⟩, hc, h⟩ := bind_ok h
  cases h
  rw [hmk]
  exact ⟨_, ha, _, hb, _, hc, rfl⟩

/-- Every loader reads the instruction's operands one after another from position 1 on (R90, R116). -/
theorem OperandsAt.of_decodeBody {opc : Nat} (h : decodeBody (listFetch bs) opc = .ok (i, len)) :
    OperandsAt bs 1 i.operands len := by
  unfold decodeBody at h
  split at h
  all_goals first
    | (cases h; rfl)
    | exact .of_decode1 (fun _ => rfl) h
    | exact .of_decode2 (fun _ _ => rfl) h
    | exact .of_decode3 (fun _ _ _ => rfl) h
    | cases h

end Loaders

/-- Bytes that stand from position `k` on, with the unused bits 5:2 cleared at the positions listed (R94). -/
def clearTagBitsFrom (k : Nat) (tags : List Nat) (bs : List Byte) : List Byte :=
  bs.mapIdx fun j b => if k + j ∈ tags then b &&& 0xC3#8 else b

/-- Clearing depends on which positions are listed only where bytes stand. -/
theorem clearTagBitsFrom_congr {k m : Nat} {T U : List Nat} {bs : List Byte}
    (h : ∀ j, j < bs.length → (k + j ∈ T ↔ m + j ∈ U)) : clearTagBitsFrom k T bs = clearTagBitsFrom m U bs := by
  apply List.ext_getElem (by simp [clearTagBitsFrom])
  intro j hj _
  simp only [clearTagBitsFrom, List.getElem_mapIdx]
  simp only [h j (by simpa [clearTagBitsFrom] using hj)]

theorem clearTagBitsFrom_append (k : Nat) (T : List Nat) (as bs : List Byte) :
    clearTagBitsFrom k T (as ++ bs) = clearTagBitsFrom k T as ++ clearTagBitsFrom (k + as.length) T bs := by
  simp only [clearTagBitsFrom, List.mapIdx_append, Nat.add_assoc, Nat.add_comm as.length]

/-- Operands that decode one after another re-encode to the bytes read with the unused bits of their tags cleared. -/
theorem OperandsAt.flatMap_encode {bs : List Byte} {ops : List Operand} {k k' : Nat} (h : OperandsAt bs k ops k') :
    k ≤ k' ∧ ops.flatMap Operand.encode = clearTagBitsFrom k (tagOffsetsFrom k ops) ((bs.drop k).take (k' - k)) := by
  induction ops generalizing k with
  | nil =>
    obtain rfl := h
    simp [clearTagBitsFrom]
  | cons op ops ih =>
    obtain ⟨k1, hop, hrest⟩ := h
    obtain ⟨-, rfl, hend, -⟩ := decodeOperand_ok hop
    obtain ⟨hle, htail⟩ := ih hrest
    have hlen := op.encodedLength_bounds.1
    have hread : ((bs.drop k).take op.encodedLength).length = op.encodedLength := by simp; omega
    have hhead : op.encode = clearTagBitsFrom k (tagOffsetsFrom k (op :: ops)) ((bs.drop k).take op.encodedLength) := by
      rw [decodeOperand_clearTagBits hop]
      have hzero : clearTagBits [0] ((bs.drop k).take op.encodedLength) =
          clearTagBitsFrom 0 [0] ((bs.drop k).take op.encodedLength) := by
        simp [clearTagBits, clearTagBitsFrom]
      rw [hzero]
      refine clearTagBitsFrom_congr fun j hj => ?_
      rw [tagOffsetsFrom_cons, List.mem_singleton, List.mem_cons]
      refine ⟨fun h => .inl (by omega), ?_⟩
      rintro (h | h)
      · omega
      · have := le_of_mem_tagOffsetsFrom h
        omega
    have hlater : clearTagBitsFrom (k + op.encodedLength) (tagOffsetsFrom (k + op.encodedLength) ops)
          ((bs.drop (k + op.encodedLength)).take (k' - (k + op.encodedLength))) =
        clearTagBitsFrom (k + op.encodedLength) (tagOffsetsFrom k (op :: ops))
          ((bs.drop (k + op.encodedLength)).take (k' - (k + op.encodedLength))) := by
      refine clearTagBitsFrom_congr fun j _ => ?_
      rw [tagOffsetsFrom_cons, List.mem_cons]
      exact (or_iff_right (by omega)).symm
    refine ⟨by omega, ?_⟩
    rw [List.flatMap_cons, htail, hlater, hhead,
      show k' - k = op.encodedLength + (k' - (k + op.encodedLength)) by omega, take_drop_add,
      clearTagBitsFrom_append, hread]

/-- Settles O2: the opcode byte is kept, and the operands re-encode one after another. -/
theorem decodedBytesReencode : Obligations.DecodedBytesReencode := by
  intro bs i len h
  obtain ⟨v, hv, hbody⟩ := bind_ok h
  obtain ⟨hbs, hbyte, -⟩ := listFetch_byte hv
  obtain ⟨hwf, hopc, hlen, hle, hops, -⟩ := body_ok hbody hbs
  obtain ⟨-, -, hmin, hmax⟩ := Laws.EncodedSize.of_operands i hops
  obtain ⟨hpos, hflat⟩ := (OperandsAt.of_decodeBody hbody).flatMap_encode
  refine ⟨hwf, by rw [encode_length, hlen], hlen ▸ hmin, hlen ▸ hmax, hle, ?_⟩
  have hopcode : i.opcode = BitVec.ofNat 8 v.toNat := by
    rw [← hopc, BitVec.ofNat_toNat, BitVec.setWidth_eq]
  have htake : bs.take len = [i.opcode] ++ (bs.drop 1).take (len - 1) := by
    have hsplit := take_drop_add bs 0 1 (len - 1)
    rw [List.drop_zero, Nat.add_sub_cancel' hpos] at hsplit
    rw [hsplit, hopcode, hbyte, List.drop_zero]
  have hzero : ∀ l, clearTagBits (Instr.tagOffsets i) l = clearTagBitsFrom 0 (Instr.tagOffsets i) l := fun l => by
    simp [clearTagBits, clearTagBitsFrom]
  have hfirst : clearTagBitsFrom 0 (Instr.tagOffsets i) [i.opcode] = [i.opcode] := by
    have hnot : 0 ∉ Instr.tagOffsets i := fun hmem => by
      have := le_of_mem_tagOffsetsFrom hmem
      omega
    simp [clearTagBitsFrom, hnot]
  rw [hzero, htake, clearTagBitsFrom_append, hfirst, encode, hflat]
  rfl

/-! ## Malformed operands -/

section Fields

variable {rd : Fetch} {k off p : Nat} {Fs : List MemField} {e : DecodeError} {β : Type}

/-- A data field in a chain of fields: its error, or the first error after it. -/
theorem data_bind {w : Width} {f : Word → Except DecodeError β}
    (h : (MemField.data off w :: Fs).findSome? (MemField.error rd k) = some e)
    (hf : Fs.findSome? (MemField.error rd k) = some e → ∀ v, f v = .error e) (hp : p = k + off := by rfl) :
    rd p w >>= f = .error e := by
  subst hp
  rw [List.findSome?_cons] at h
  cases herr : MemField.error rd k (.data off w) with
  | some e' =>
    rw [herr] at h
    cases h
    rw [data_error_of herr]
    rfl
  | none =>
    rw [herr] at h
    obtain ⟨v, hv⟩ := data_ok_of herr
    rw [hv]
    exact hf h v

/-- A scale field in a chain of fields. -/
theorem scale_bind {f : BitVec 16 → Except DecodeError β}
    (h : (MemField.data off .word :: Fs).findSome? (MemField.error rd k) = some e)
    (hf : Fs.findSome? (MemField.error rd k) = some e → ∀ c, f c = .error e) (hp : p = k + off := by rfl) :
    fetchScale rd p >>= f = .error e := by
  have hassoc : fetchScale rd p >>= f = rd p .word >>= fun v => f (v.setWidth 16) := by
    unfold fetchScale
    cases rd p .word <;> rfl
  rw [hassoc]
  exact data_bind h (fun h v => hf h _) hp

/-- A base or index register byte in a chain of fields. -/
theorem regByte_bind {f : RegRef → Except DecodeError β}
    (h : (MemField.regByte off :: Fs).findSome? (MemField.error rd k) = some e)
    (hf : Fs.findSome? (MemField.error rd k) = some e → ∀ r, f r = .error e) (hp : p = k + off := by rfl) :
    fetchRegRef rd p >>= f = .error e := by
  subst hp
  rw [List.findSome?_cons] at h
  cases herr : MemField.error rd k (.regByte off) with
  | some e' =>
    rw [herr] at h
    cases h
    rw [fetchRegRef_error_of herr]
    rfl
  | none =>
    rw [herr] at h
    obtain ⟨r, hr⟩ := fetchRegRef_ok_of herr
    rw [hr]
    exact hf h r

end Fields

/-- A mode's first bad field is the error of its decoding (R106, R113). -/
theorem decodeMode_error_of {rd : Fetch} {mode k : Nat} {e : DecodeError} (hmode : mode < 9)
    (h : (memFields mode).findSome? (MemField.error rd k) = some e) : decodeMode rd mode (k + 2) = .error e := by
  interval_cases mode
  · exact data_bind h nofun
  · exact regByte_bind h nofun
  · exact data_bind h fun h _ => regByte_bind h nofun
  · exact regByte_bind h fun h _ => regByte_bind h nofun
  · exact data_bind h fun h _ => regByte_bind h fun h _ => regByte_bind h nofun
  · exact scale_bind h fun h _ => regByte_bind h nofun
  · exact data_bind h fun h _ => scale_bind h fun h _ => regByte_bind h nofun
  · exact scale_bind h fun h _ => regByte_bind h fun h _ => regByte_bind h nofun
  · exact data_bind h fun h _ => scale_bind h fun h _ => regByte_bind h fun h _ => regByte_bind h nofun

section Operand

variable {rd : Fetch} {k : Nat} {tag payload : Word}

/-- The operand type of a tag byte chooses how the operand is read (R94, R95). -/
theorem decodeOperand_of_type3 (htag : rd k .byte = .ok tag) (htype : tag.toNat / 64 = 3) :
    decodeOperand rd k = .error .badType := by
  simp only [decodeOperand, htag, bind, Except.bind, htype]

/-- A register operand is its register byte at the tag's width (R101 to R104). -/
theorem decodeOperand_of_type0 (htag : rd k .byte = .ok tag) (hpay : rd (k + 1) .byte = .ok payload)
    (htype : tag.toNat / 64 = 0) :
    decodeOperand rd k = decodeRegRef payload.toNat >>= fun r =>
      if r.region.width = Width.ofCode (tag.toNat % 4) then .ok (.reg r, k + 2) else .error .widthMismatch := by
  simp only [decodeOperand, fetchRegRef, htag, hpay, bind, Except.bind, htype]
  rfl

/-- A memory operand is read from its payload byte on (R105). -/
theorem decodeOperand_of_type1 (htag : rd k .byte = .ok tag) (hpay : rd (k + 1) .byte = .ok payload)
    (htype : tag.toNat / 64 = 1) :
    decodeOperand rd k =
      if modeIdValid (payload.toNat / 8) then
        match SegSel.ofId (payload.toNat % 8) with
        | none => .error .badSegment
        | some seg => decodeMode rd (payload.toNat / 8) (k + 2) >>= fun m =>
            .ok (.mem (Width.ofCode (tag.toNat % 4)) seg m.1, m.2)
      else .error .badMode := by
  simp only [decodeOperand, decodeMem, htag, hpay, bind, Except.bind, htype]
  rfl

end Operand

/-- A register byte with a register id and a region id names that region (R103). -/
theorem decodeRegRef_of_region {b : Nat} {g : Region} (hid : b / 8 < 24) (hg : Region.ofId (b % 8) = some g) :
    ∃ r, decodeRegRef b = .ok ⟨r, g⟩ := by
  obtain ⟨r, hr⟩ : ∃ r, Reg.ofId (b / 8) = some r := by
    interval_cases b / 8 <;> exact ⟨_, rfl⟩
  exact ⟨r, by rw [decodeRegRef, hr, hg]⟩

/-- A width is known by its code (R94). -/
theorem Width.code_ofCode {n : Nat} (h : n < 4) : (Width.ofCode n).code = n := by
  interval_cases n <;> rfl

/-- The segment ids but 6 name a segment (R108). -/
theorem SegSel.ofId_of_ne_six {n : Nat} (h : n < 8) (h6 : n ≠ 6) : ∃ seg, SegSel.ofId n = some seg := by
  interval_cases n <;> first | exact ⟨_, rfl⟩ | exact absurd rfl h6

/-- Settles O5: the tag's type chooses the loader, whose checks come in the order of R104 and R113. -/
theorem malformedOperandsAreRejected : Obligations.MalformedOperandsAreRejected := by
  intro rd k tag payload htag hpay
  have hmodeValid : payload.toNat / 8 < 9 → modeIdValid (payload.toNat / 8) = true :=
    fun h => decide_eq_true (Nat.le_of_lt_succ h)
  refine ⟨decodeOperand_of_type3 htag, fun ht hid => ?_, fun ht hid hregion => ?_, fun ht hid g hg hcode => ?_,
    fun ht hmode => ?_, fun ht hmode hseg => ?_, fun ht hmode hseg e he => ?_⟩
  · have herr : registerByteError payload.toNat = some .badRegister := if_pos hid
    rw [decodeOperand_of_type0 htag hpay ht, decodeRegRef_error_of herr]
    rfl
  · have herr : registerByteError payload.toNat = some .badRegion :=
      (if_neg (by omega)).trans (if_pos hregion)
    rw [decodeOperand_of_type0 htag hpay ht, decodeRegRef_error_of herr]
    rfl
  · obtain ⟨r, hr⟩ := decodeRegRef_of_region hid hg
    have hwidth : g.width ≠ Width.ofCode (tag.toNat % 4) := fun h =>
      hcode (h ▸ Width.code_ofCode (Nat.mod_lt _ (by decide)))
    rw [decodeOperand_of_type0 htag hpay ht, hr]
    exact if_neg hwidth
  · have hinvalid : ¬ modeIdValid (payload.toNat / 8) = true := by simp [modeIdValid]; omega
    rw [decodeOperand_of_type1 htag hpay ht, if_neg hinvalid]
  · rw [decodeOperand_of_type1 htag hpay ht, if_pos (hmodeValid hmode), hseg]
    rfl
  · obtain ⟨seg, hid⟩ := SegSel.ofId_of_ne_six (Nat.mod_lt _ (by decide)) hseg
    rw [decodeOperand_of_type1 htag hpay ht, if_pos (hmodeValid hmode), hid, decodeMode_error_of hmode he]
    rfl

/-! ## Examples -/

/-- Settles O3: each word is read by the decoder as a computation. -/
theorem specWordsDecode : Obligations.SpecWordsDecode := by
  unfold Obligations.SpecWordsDecode
  refine ⟨?_, ?_, ?_, ?_, ?_, ?_⟩ <;> decide

end Sys2Proof.Machine

/-! Registers, addresses and operands (10_state.md, 20_memory.md, 30_encoding.md): the tables and sums of R23, R60, R110 and
R150; and the instructions that move data (41_data_movement.md), each a write of its destination. -/

namespace Sys2Proof.Machine

/-! ## Registers and addresses -/

/-- Settles O20: the table of R23, register by register. -/
theorem allowedRegionTable : Obligations.AllowedRegionTable := by
  intro r g
  rw [RegRef.allowed]
  cases r
  case rax | rbx | rcx | rdx => simp [Reg.allows]
  all_goals cases g <;> simp [Reg.allows]

/-- The scale is an unsigned 16-bit factor (R109). -/
theorem toNat_scale (c : BitVec 16) : (c.setWidth 64).toNat = c.toNat :=
  (BitVec.toNat_setWidth 64 c).trans (Nat.mod_eq_of_lt (c.isLt.trans (by decide)))

/-- Settles O22: each mode's sum in numbers. -/
theorem effectiveOffsetModes : Obligations.EffectiveOffsetModes := by
  intro s d c b i
  simp only [State.ea, BitVec.toNat_add, BitVec.toNat_mul, toNat_scale, Nat.mod_add_mod, Nat.add_mod_mod, and_self]

/-- Settles O23: the segment field names its register, and the index is `Phys` of it. -/
theorem physicalIndexFormula : Obligations.PhysicalIndexFormula := by
  intro s m seg r hmem
  have hreg : seg.reg = r := by
    fin_cases hmem <;> rfl
  refine ⟨?_, s.phys_lt _ _⟩
  rw [State.memAddr, State.phys, hreg, physical_eq]

/-! ## Operand values -/

/-- A literal that has an encoding reads as itself (R98, R150). -/
theorem State.readOp_imm (s : State) {w : Width} {lit : Word} (h : Operand.wellFormed (.imm w lit) = true) :
    s.readOp (.imm w lit) = lit := by
  have hlt : lit.toNat < 2 ^ w.bits := of_decide_eq_true h
  rw [State.readOp, truncNat, Nat.mod_eq_of_lt hlt, BitVec.ofNat_toNat, BitVec.setWidth_eq]

/-- Settles O24: the three operand types. -/
theorem operandValueRead : Obligations.OperandValueRead :=
  fun s => ⟨fun r => s.getRef_toNat r, fun w _ _ => s.memRead_toNat _ _ (Width.bytes_le w), fun _ _ h => s.readOp_imm h⟩

/-! ## Completed rules -/

/-- An instruction whose checks pass and whose rule answers a state commits it, counted and with its jump applied. -/
theorem exec_of_rule {i : Instr} {s t : State} {ops : List (Role × Operand)} {slots : List StackSlot}
    {rule : State → Except ExecError State} (he : exec i s = runRule s ops slots rule)
    (hc : s.check ops slots = none) (h : rule s.clearPending = .ok t) : exec i s = .next t.complete :=
  he.trans (runRule_ok hc h)

/-- A completed rule without a jump counts one step and changes nothing else (R145). -/
theorem complete_clearPending (s : State) : s.clearPending.complete = s.counted := rfl

/-- An operand write neither reads nor changes the pending jump. -/
theorem State.clearPending_writeOp (s t : State) (op : Operand) (v : Word) :
    s.clearPending.writeOp op v t.clearPending = (s.writeOp op v t).clearPending := by
  cases op <;> rfl

/-! ## MOV, XCHG, LEA -/

/-- MOV's rule: the source's value to the destination (R180). -/
theorem exec_mov_eq (dst src : Operand) (s : State) :
    exec (.mov dst src) s = runRule s [(.w, dst), (.r, src)] [] fun s => .ok (s.writeOp dst (s.readOp src) s) := rfl

/-- XCHG's rule: both values read, then written, `b` last (R181). -/
theorem exec_xchg_eq (a b : Operand) (s : State) :
    exec (.xchg a b) s = runRule s [(.rw, a), (.rw, b)] [] fun s =>
      .ok (s.writeOp b (s.readOp a) (s.writeOp a (s.readOp b) s)) := rfl

/-- LEA's rule for a memory source: its effective offset to the destination (R182). -/
theorem exec_lea_eq (dst : Operand) (w : Width) (seg : SegSel) (m : AddrMode) (s : State) :
    exec (.lea dst (.mem w seg m)) s = runRule s [(.w, dst), (.m, .mem w seg m)] [] fun s =>
      .ok (s.writeOp dst (s.ea m) s) := rfl

/-- Settles O28: the one write is the commit of the source's value without flags. -/
theorem movCopies : Obligations.MovCopies := by
  intro s dst src hd hs
  have hcheck : s.check [(.w, dst), (.r, src)] [] = none :=
    s.check_of_access _ _ (by simp [Role.writes, hd, hs]) (by simp)
  refine ⟨_, exec_of_rule (exec_mov_eq ..) hcheck rfl, ?_⟩
  rw [State.clearPending_readOp]
  exact commit_wrote s dst _ [] (isImm_of_writable hd)

/-- Settles O30: the address is no access, so it is not checked for bounds; a source without one fails its role check. -/
theorem leaLoadsOffset : Obligations.LeaLoadsOffset := by
  refine ⟨fun s dst w seg m hd hregs => ?_, fun s dst src hd hsrc => ?_⟩
  · have hcheck : s.check [(.w, dst), (.m, .mem w seg m)] [] = none := by
      rw [State.check_eq_none]
      refine ⟨?_, by simp⟩
      rintro o ho
      rcases List.mem_pair.1 ho with rfl | rfl
      · exact s.checks_of_writable _ _ rfl hd
      · exact ⟨rfl, if_pos hregs, rfl⟩
    refine ⟨_, exec_of_rule (exec_lea_eq ..) hcheck rfl, ?_⟩
    rw [State.clearPending_ea]
    exact commit_wrote s dst _ [] (isImm_of_writable hd)
  · apply exec_of_check
    have hdst : roleError (.w, dst) = none := by
      cases dst with
      | imm w l => cases hd
      | reg r => rfl
      | mem w seg m => rfl
    have hkind : roleError (.m, src) = some .operandKind := by
      cases src with
      | mem w seg m => cases hsrc
      | reg r => rfl
      | imm w l => rfl
    simp [State.check, Instr.roles, hdst, hkind]

/-- Settles O29: both writes are operand writes at the addresses of the state before, one after the other. -/
theorem xchgExchanges : Obligations.XchgExchanges := by
  intro s a b ha hb
  have hcheck : s.check [(.rw, a), (.rw, b)] [] = none :=
    s.check_of_access _ _ (by simp [Role.writes, ha, hb]) (by simp)
  have hia := isImm_of_writable ha
  have hib := isImm_of_writable hb
  set u := s.writeOp a (s.readOp b) s with hu
  have hc : u.config = s.config := s.writeOp_config a _ s
  have hexec : exec (.xchg a b) s = .next (s.writeOp b (s.readOp a) u).counted := by
    rw [← complete_clearPending, ← State.clearPending_writeOp, hu, ← State.clearPending_writeOp]
    refine exec_of_rule (exec_xchg_eq ..) hcheck ?_
    simp only [State.clearPending_readOp]
  refine ⟨u, _, hexec, s.writeOp_holds a _ s [] rfl hia, s.writeOp_frame a _ s [] rfl, ?_, ?_, ?_⟩
  · exact (s.writeOp_holds b (s.readOp a) u [] hc hib).of_eq rfl rfl rfl rfl rfl rfl
  · exact (s.writeOp_frame b (s.readOp a) u [] hc).of_slots rfl rfl rfl rfl rfl
  · refine ⟨⟨?_, rfl⟩, ⟨?_, ?_⟩, ⟨?_, ?_⟩, ⟨?_, ?_⟩, ?_⟩ <;> simp [State.counted, hu]

/-! ## The boundary policy -/

/-- Under `fault` an access past the end of the buffer is refused (R64). -/
theorem State.inBounds_eq_false {s : State} {p n : Nat} (hp : s.config.policy = .fault) (h : s.memSize < p + n) :
    s.inBounds p n = false := by
  rw [State.inBounds, hp]
  exact decide_eq_false (by omega)

/-- Under `wrap`, or inside the buffer, an access goes on (R64). -/
theorem State.inBounds_eq_true {s : State} {p n : Nat} (h : s.config.policy = .wrap ∨ p + n ≤ s.memSize) :
    s.inBounds p n = true := by
  rw [State.inBounds]
  rcases h with hp | hle
  · rw [hp]
  · split
    · rfl
    · exact decide_eq_true hle

/-- A register and a memory operand whose one access is refused report it (R153). -/
theorem exec_mov_refused {s : State} {r : RegRef} {w : Width} {seg : SegSel} {m : AddrMode}
    (hr : RegRef.allowed r = true) (hm : m.regs.all RegRef.allowed = true)
    (hb : s.inBounds (s.memAddr seg m) w.bytes = false) :
    exec (.mov (.reg r) (.mem w seg m)) s = .next (s.failed .bounds) ∧
      exec (.mov (.mem w seg m) (.reg r)) s = .next (s.failed .bounds) := by
  have hregR : ∀ ro, regionError (ro, .reg r) = none := fun _ => if_pos hr
  have hregM : ∀ ro, regionError (ro, .mem w seg m) = none := fun _ => if_pos hm
  constructor <;> apply exec_of_check <;>
    simp [State.check, Instr.roles, Instr.slots, List.findSome?_cons, roleError, hregR, hregM, State.boundsError, hb]

/-- Settles O26: every access asks the one policy test. -/
theorem boundaryPolicyOnAccess : Obligations.BoundaryPolicyOnAccess := by
  refine ⟨fun s r w seg m hr hm => ⟨fun hp h => ?_, fun h => ?_⟩, fun s k w => ⟨fun hp h => ?_, fun h => ?_⟩,
    fun s address segment v w => ?_⟩
  · exact exec_mov_refused hr hm (State.inBounds_eq_false hp h)
  · have hreach := State.inBounds_eq_true h
    have hreg : s.readable (.reg r) = true := by simp [State.readable, State.reaches, Operand.regionsAllowed, hr]
    have hmem : s.readable (.mem w seg m) = true := by
      simp only [State.readable, State.reaches, Operand.regionsAllowed, hm, hreach, Bool.and_self]
    exact ⟨movCopies s _ _ hreg hmem, movCopies s _ _ hmem hreg⟩
  · rw [State.fetchField, State.inBounds_eq_false hp h]
    rfl
  · rw [State.fetchField, State.inBounds_eq_true h]
    rfl
  · intro p
    have hphys : physical s.memSize segment address = p := physical_eq ..
    simp only [State.hostReadCell, State.hostWriteCell, hphys]
    refine ⟨fun hp h => ?_, fun h => ?_, trivial, trivial⟩
    · rw [State.inBounds_eq_false hp h]
      exact ⟨rfl, rfl⟩
    · rw [State.inBounds_eq_true h]
      exact ⟨rfl, rfl⟩

end Sys2Proof.Machine

/-! The arithmetic, logic, comparison, shift and jump families (42 to 46): each is one shared rule over an operation, which is
brought into the spec's own numbers (R154 to R158, R230, R246). -/

namespace Sys2Proof.Machine

/-! ## The ALU rules -/

theorem Width.zero_lt_bits (w : Width) : 0 < w.bits := Nat.lt_of_lt_of_le (by decide) (Width.bits_pos w)

section Alu

variable {i : Instr} {s : State} {dst src : Operand}

/-- A two-operand ALU rule whose operation writes all five flags. -/
theorem exec_aluWrote2 {op : Nat → Nat → Nat → Bool → Except ExecError AluOut} {r : Nat} {cf of : Bool}
    (he : exec i s = aluRule2 op dst src s) (hd : s.writable dst = true) (hs : s.readable src = true)
    (h : op dst.width.bits (s.readOp dst).toNat ((s.readOp src).toNat % 2 ^ dst.width.bits) (s.flag .cf) =
      .ok { result := r, flags := [(.cf, cf), (.of, of)] ++ setZSP dst.width.bits r }) :
    ∃ t, exec i s = .next t ∧ AluWrote s t dst r cf of := by
  rw [he]
  obtain ⟨t, hexec, hwrote, hflags⟩ := aluRule2_ok s dst src hd hs op r cf of h
  exact ⟨t, hexec, hwrote, hflags⟩

/-- A one-operand ALU rule whose operation writes all five flags. -/
theorem exec_aluWrote1 {op : Nat → Nat → AluOut} {r : Nat} {cf of : Bool}
    (he : exec i s = aluRule1 op dst s) (hd : s.writable dst = true)
    (h : op dst.width.bits (s.readOp dst).toNat =
      { result := r, flags := [(.cf, cf), (.of, of)] ++ setZSP dst.width.bits r }) :
    ∃ t, exec i s = .next t ∧ AluWrote s t dst r cf of := by
  rw [he]
  obtain ⟨t, hexec, hwrote, hflags⟩ := aluRule1_ok s dst hd op _ h
  exact ⟨t, hexec, hwrote.congr (aluFlags_names _ _ _ _), (writeFlags_alu _ _ r cf of).congr hflags⟩

/-- A one-operand ALU rule that keeps CF. -/
theorem exec_keepsCarry {op : Nat → Nat → AluOut} {r : Nat} {of : Bool}
    (he : exec i s = aluRule1 op dst s) (hd : s.writable dst = true)
    (h : op dst.width.bits (s.readOp dst).toNat = { result := r, flags := (.of, of) :: setZSP dst.width.bits r }) :
    ∃ t, exec i s = .next t ∧ Wrote s t dst (BitVec.ofNat 64 r) [.of, .zf, .sf, .pf] ∧
      t.flag .of = of ∧ ZspFlags t dst.width.bits r := by
  rw [he]
  obtain ⟨t, hexec, hwrote, hflags⟩ := aluRule1_ok s dst hd op _ h
  refine ⟨t, hexec, hwrote, ?_, (writeFlags_setZSP _ _ r).congr hflags⟩
  rw [hflags, State.writeFlags_cons, writeFlags_setZSP_flag _ _ _ _ (.inr rfl), State.writeFlag_flag, if_pos rfl]

end Alu

/-! ## Arithmetic -/

/-- Settles O31: INC and DEC are one rule that keeps CF, NEG is `SubCore` from 0. -/
theorem incDecNegResult : Obligations.IncDecNegResult := by
  intro s dst hd W a
  refine ⟨exec_keepsCarry (op := incOp) rfl hd ?_, exec_keepsCarry (op := decOp) rfl hd ?_,
    exec_aluWrote1 (op := fun W a => subCore W 0 a false) rfl hd
      (subCore_eq W 0 a false (Width.zero_lt_bits dst.width) (by positivity) (s.readOp_lt dst))⟩
  · simp only [incOp, Bool.beq_eq_decide_eq, W, a]
  · simp only [decOp, Bool.beq_eq_decide_eq, wrapInt_eq, W, a]

/-- The signed product of R198 in the spec's words. -/
theorem imulOp_eq {W a b : Nat} (hW : 0 < W) (ha : a < 2 ^ W) (hb : b < 2 ^ W) :
    imulOp W a b =
      { result := truncInt W (signedOf W a * signedOf W b)
        flags := [(.cf, overflows W (signedOf W a * signedOf W b)), (.of, overflows W (signedOf W a * signedOf W b))] ++
          setZSP W (truncInt W (signedOf W a * signedOf W b)) } := by
  simp only [imulOp, signed_eq W a hW ha, signed_eq W b hW hb, fitsSigned_not, wrapInt_eq]

/-- Settles O34: MUL's operation already writes the flags of R197, IMUL's is `imulOp_eq`. -/
theorem mulImulResult : Obligations.MulImulResult := by
  intro s dst src hd hs W a b p
  have hb : b < 2 ^ W := Nat.mod_lt _ (by positivity)
  refine ⟨exec_aluWrote2 (op := fun W a b _ => .ok (mulOp W a b)) rfl hd hs rfl,
    exec_aluWrote2 (op := fun W a b _ => .ok (imulOp W a b)) rfl hd hs ?_⟩
  exact congrArg Except.ok (imulOp_eq (Width.zero_lt_bits dst.width) (s.readOp_lt dst) hb)

/-- A division whose operands can be accessed and whose divisor is 0 reports it and leaves nothing (R199 to R202). -/
theorem exec_divideByZero {i : Instr} {s : State} {dst src : Operand} (hd : s.writable dst = true)
    (hs : s.readable src = true) (hroles : Instr.roles i = [(.rw, dst), (.r, src)]) (hslots : Instr.slots s i = [])
    (hzero : s.dividesByZero i) : exec i s = .next (s.failed .divideByZero) := by
  have hcheck : s.check (Instr.roles i) (Instr.slots s i) = none := by
    rw [hroles, hslots]
    exact s.check_of_access _ _ (by simp [Role.writes, hd, hs]) (by simp)
  have hnone : s.violations i = [] := by
    rw [← List.head?_eq_none_iff, violations_head, hcheck]
  obtain ⟨-, hreports, -⟩ := checksAreReportedInOrder i s
  exact hreports hnone hzero

/-- Settles O35: past the zero divisor both operations give their result with CF = OF = 0. -/
theorem divModResult : Obligations.DivModResult := by
  intro s dst src hd hs a b
  refine ⟨fun hb => ⟨exec_divideByZero hd hs rfl rfl hb, exec_divideByZero hd hs rfl rfl hb⟩,
    fun hb => ⟨exec_aluWrote2 (op := fun W a b _ => divOp W a b) rfl hd hs ?_,
      exec_aluWrote2 (op := fun W a b _ => modOp W a b) rfl hd hs ?_⟩⟩
  · exact if_neg hb
  · refine (if_neg hb).trans ?_
    rw [← Nat.mod_eq_sub_mul_div]
    rfl

/-- A number below `2^W` is 0 exactly when its signed value is. -/
theorem signedOf_ne_zero {W b : Nat} (hb : b < 2 ^ W) (h : b ≠ 0) : signedOf W b ≠ 0 := by
  have hz : signedOf W 0 = 0 := by simp [signedOf]
  rw [← hz, Ne, signedOf_inj hb (by positivity)]
  exact h

/-- The remainder of a division truncated toward zero is 0 or has the sign of the dividend (R202). -/
theorem tmod_mul_self_nonneg (x y : Int) : 0 ≤ x.tmod y * x := by
  rcases Int.le_total 0 x with hx | hx
  · exact mul_nonneg (Int.tmod_nonneg y hx) hx
  · have hneg : x.tmod y ≤ 0 := by
      have := Int.tmod_nonneg y (a := -x) (by omega)
      rw [Int.neg_tmod] at this
      omega
    exact mul_nonneg_of_nonpos_of_nonpos hneg hx

/-- Settles O36: the quotient and remainder of division truncated toward zero. -/
theorem idivImodResult : Obligations.IdivImodResult := by
  intro s dst src hd hs W b x y
  refine ⟨fun hb => ⟨exec_divideByZero hd hs rfl rfl hb, exec_divideByZero hd hs rfl rfl hb⟩, fun hb => ?_⟩
  have hbW : b < 2 ^ W := Nat.mod_lt _ (by positivity)
  have hW : 0 < W := (Width.zero_lt_bits dst.width)
  have hx : signed W (s.readOp dst).toNat = x := signed_eq W _ hW (s.readOp_lt dst)
  have hy : signed W b = y := signed_eq W b hW hbW
  have hy0 : y ≠ 0 := signedOf_ne_zero hbW hb
  refine ⟨x.tdiv y, x.tmod y, (Int.mul_tdiv_add_tmod x y).symm, ?_, tmod_mul_self_nonneg x y,
    exec_aluWrote2 (op := fun W a b _ => idivOp W a b) rfl hd hs ?_,
    exec_aluWrote2 (op := fun W a b _ => imodOp W a b) rfl hd hs ?_⟩
  · rw [Int.abs_eq_natAbs, Int.abs_eq_natAbs, Int.natAbs_tmod]
    exact_mod_cast Nat.mod_lt _ (Int.natAbs_pos.2 hy0)
  · refine (if_neg hb).trans ?_
    rw [hx, hy]
    rfl
  · refine (if_neg hb).trans ?_
    rw [hx, hy, ← Int.tmod_def]
    rfl

end Sys2Proof.Machine

/-! Logic, comparison, shifts, rotates and jumps (43 to 46): the ALU, shift and jump rules over their operations in the
spec's own numbers (R158, R230 to R260). -/

namespace Sys2Proof.Machine

/-! ## Logic -/

/-- The complement at width W (R223): every bit below W flipped. -/
theorem xor_ones {W a : Nat} (h : a < 2 ^ W) : a ^^^ (2 ^ W - 1) = 2 ^ W - 1 - a := by
  apply Nat.eq_of_testBit_eq
  intro i
  rw [show 2 ^ W - 1 - a = 2 ^ W - (a + 1) by omega, Nat.testBit_two_pow_sub_succ h, Nat.testBit_xor,
    Nat.testBit_two_pow_sub_one]
  by_cases hi : i < W
  · simp [hi]
  · have hzero : a.testBit i = false :=
      Nat.testBit_lt_two_pow (lt_of_lt_of_le h (Nat.pow_le_pow_right (by decide) (by omega)))
    simp [hi, hzero]

/-- Settles O37: the four operations write their bitwise result with `LogicFlags`. -/
theorem logicResult : Obligations.LogicResult := by
  intro s dst src hd hs W a b
  refine ⟨exec_aluWrote2 (op := fun W a b _ => .ok (logicOut W (a &&& b))) rfl hd hs rfl,
    exec_aluWrote2 (op := fun W a b _ => .ok (logicOut W (a ||| b))) rfl hd hs rfl,
    exec_aluWrote2 (op := fun W a b _ => .ok (logicOut W (a ^^^ b))) rfl hd hs rfl,
    exec_aluWrote1 (op := fun W a => logicOut W (a ^^^ (2 ^ W - 1))) rfl hd ?_⟩
  simp only [xor_ones (s.readOp_lt dst)]
  rfl

/-! ## Comparison -/

/-- CMP leaves the flags of the subtraction, and nothing else (R240). -/
theorem exec_cmp_flags {s : State} {a b : Operand} (ha : s.readable a = true) (hb : s.readable b = true) :
    let W := a.width.bits
    let x := (s.readOp a).toNat
    let y := (s.readOp b).toNat % 2 ^ W
    ∃ t, exec (.cmp a b) s = .next t ∧ FlagsOnly s t allFlags ∧
      AluFlags t W (truncInt W ((x : Int) - y)) (decide (x < y)) (overflows W (signedOf W x - signedOf W y)) := by
  intro W x y
  have hcore := congrArg AluOut.flags (subCore_eq W x y false (Width.zero_lt_bits a.width) (s.readOp_lt a)
    (Nat.mod_lt _ (by positivity)))
  simp only [Bool.toNat_false, Nat.cast_zero, sub_zero, Nat.add_zero] at hcore
  obtain ⟨t, hexec, honly, hflags, -⟩ := flags_ok s a b ha hb (fun W x y => (subCore W x y false).flags) W _ _ _ hcore
  exact ⟨t, hexec, honly, hflags⟩

/-- Settles O38: both are the flag-only rule. -/
theorem compareTestFlags : Obligations.CompareTestFlags := by
  intro s a b ha hb W x y
  refine ⟨exec_cmp_flags ha hb, ?_⟩
  obtain ⟨t, hexec, honly, hflags, -⟩ :=
    flags_ok s a b ha hb (fun W x y => logicFlags W (x &&& y)) W (x &&& y) false false rfl
  exact ⟨t, hexec, honly, hflags⟩

/-! ## Jumps -/

/-- Settles O44: JMP is the jump rule whose condition always holds. -/
theorem jmpGoesToTarget : Obligations.JmpGoesToTarget :=
  fun s target h => jump_taken s target (fun _ => true) h rfl

/-- What a jump instruction with target `target` does from `s` where its condition means `P`: it goes to the target, or only
counts. -/
def JumpsWhen (i : Instr) (target : Operand) (s : State) (P : Prop) : Prop :=
  (P → exec i s = .next (s.counted.set .rip (s.readOp target))) ∧ (¬ P → exec i s = .next s.counted)

section Jumps

variable {s : State} {target : Operand}

/-- An instruction that is the jump rule of a condition jumps when the condition holds (R246). -/
theorem JumpsWhen.of_rule {i : Instr} {P : Prop} (h : s.readable target = true) (cond : State → Bool)
    (he : exec i s = jumpRule cond target s) (hP : cond s.clearPending = true ↔ P) : JumpsWhen i target s P := by
  rw [JumpsWhen, he]
  exact jump_law s target cond P h hP

end Jumps

/-- Settles O45: each row of R246 is the jump rule of its condition. -/
theorem conditionalJumpsFollowFlags : Obligations.ConditionalJumpsFollowFlags := by
  intro s target h p hp
  show JumpsWhen (p.1 target) target s (p.2 s)
  fin_cases hp
  · exact .of_rule h (fun s => s.flag .zf) rfl (by simp)
  · exact .of_rule h (fun s => !s.flag .zf) rfl (by simp)
  · exact .of_rule h (fun s => s.flag .cf) rfl (by simp)
  · exact .of_rule h (fun s => !s.flag .cf) rfl (by simp)
  · exact .of_rule h (fun s => s.flag .sf) rfl (by simp)
  · exact .of_rule h (fun s => !s.flag .sf) rfl (by simp)
  · exact .of_rule h (fun s => s.flag .of) rfl (by simp)
  · exact .of_rule h (fun s => !s.flag .of) rfl (by simp)
  · exact .of_rule h (fun s => s.flag .pf) rfl (by simp)
  · exact .of_rule h (fun s => !s.flag .pf) rfl (by simp)
  · exact .of_rule h (fun s => s.flag .sf != s.flag .of) rfl (by simp)
  · exact .of_rule h (fun s => s.flag .sf == s.flag .of) rfl (by simp)
  · exact .of_rule h (fun s => s.flag .zf || s.flag .sf != s.flag .of) rfl (by simp)
  · exact .of_rule h (fun s => !s.flag .zf && s.flag .sf == s.flag .of) rfl (by simp)

/-! ## A comparison and a jump -/

theorem truncInt_lt (W : Nat) (v : Int) : truncInt W v < 2 ^ W := wrapInt_lt W v

/-- A number between `-N` and `N`, reduced modulo `N`. -/
theorem emod_of_bounds {D N : Int} (hlo : -N ≤ D) (hhi : D < N) : D % N = if 0 ≤ D then D else D + N := by
  split
  · exact Int.emod_eq_of_lt (by assumption) hhi
  · rw [← Int.add_emod_right, Int.emod_eq_of_lt (by omega) (by omega)]

/-- The difference modulo `2^W` is 0 exactly when the operands are equal. -/
theorem truncInt_sub_eq_zero {W x y : Nat} (hx : x < 2 ^ W) (hy : y < 2 ^ W) :
    truncInt W ((x : Int) - y) % 2 ^ W = 0 ↔ x = y := by
  have hx' : (x : Int) < 2 ^ W := by exact_mod_cast hx
  have hy' : (y : Int) < 2 ^ W := by exact_mod_cast hy
  rw [Nat.mod_eq_of_lt (truncInt_lt W _), truncInt, emod_of_bounds (by omega) (by omega)]
  split <;> omega

/-- A signed value is its number modulo `2^W`. -/
theorem signedOf_emod {W a : Nat} (hW : 0 < W) (ha : a < 2 ^ W) : signedOf W a % 2 ^ W = (a : Int) % 2 ^ W := by
  rw [← signed_eq W a hW ha, signed]
  split
  · exact Int.sub_emod_right ..
  · rfl

/-- The sign bit of a number below `2^W`. -/
theorem testBit_sign {W r : Nat} (hW : 0 < W) (hr : r < 2 ^ W) : r.testBit (W - 1) = decide (2 ^ (W - 1) ≤ r) := by
  by_cases h : 2 ^ (W - 1) ≤ r
  · rw [decide_eq_true h]
    exact Nat.testBit_of_two_pow_le_and_two_pow_add_one_gt h (by rwa [Nat.sub_add_cancel hW])
  · rw [decide_eq_false h]
    exact Nat.testBit_lt_two_pow (by omega)

/-- After a subtraction SF differs from OF exactly when the first operand is the smaller one, signed (R257): without
overflow SF is the sign of the difference, with overflow the opposite. -/
theorem testBit_ne_overflows {W x y : Nat} (hW : 0 < W) (hx : x < 2 ^ W) (hy : y < 2 ^ W) :
    (truncInt W ((x : Int) - y)).testBit (W - 1) ≠ overflows W (signedOf W x - signedOf W y) ↔
      signedOf W x < signedOf W y := by
  obtain ⟨hxlo, hxhi⟩ := signedOf_bounds W x
  obtain ⟨hylo, hyhi⟩ := signedOf_bounds W y
  have hN : (2 : Int) ^ W = 2 * 2 ^ (W - 1) := by rw [← pow_succ', Nat.sub_add_cancel hW]
  have hr : truncInt W ((x : Int) - y) = ((signedOf W x - signedOf W y) % 2 ^ W).toNat := by
    rw [truncInt, Int.sub_emod, ← signedOf_emod hW hx, ← signedOf_emod hW hy, ← Int.sub_emod]
  have hcast : ((2 ^ (W - 1) : Nat) : Int) = 2 ^ (W - 1) := by push_cast; rfl
  rw [testBit_sign hW (truncInt_lt W _), hr, emod_of_bounds (by omega) (by omega), overflows, Ne, decide_eq_decide, hN]
  split <;> omega

/-- Settles O39: the flags CMP leaves decide the relations of R246. -/
theorem compareThenJump : Obligations.CompareThenJump := by
  intro s a b target ha hb W x y
  obtain ⟨t, hexec, -, hcf, hof, hzf, hsf, -⟩ := exec_cmp_flags ha hb
  have hx : x < 2 ^ W := s.readOp_lt a
  have hy : y < 2 ^ W := Nat.mod_lt _ (by positivity)
  have hz : t.flag .zf = true ↔ x = y := by
    rw [hzf, decide_eq_true_eq]
    exact truncInt_sub_eq_zero hx hy
  have hless : t.flag .sf ≠ t.flag .of ↔ signedOf W x < signedOf W y := by
    rw [hsf, hof]
    exact testBit_ne_overflows (Width.zero_lt_bits a.width) hx hy
  have hc : t.flag .cf = true ↔ x < y := by rw [hcf, decide_eq_true_eq]
  have hle : (t.flag .zf || t.flag .sf != t.flag .of) = true ↔ signedOf W x ≤ signedOf W y := by
    rw [Bool.or_eq_true, bne_iff_ne, hz, hless, le_iff_eq_or_lt, signedOf_inj hx hy]
  refine ⟨t, hexec, fun htarget p hp => ?_⟩
  show JumpsWhen p.1 target t p.2
  fin_cases hp
  · exact .of_rule htarget (fun s => s.flag .zf) rfl hz
  · exact .of_rule htarget (fun s => !s.flag .zf) rfl (by simpa using not_congr hz)
  · exact .of_rule htarget (fun s => s.flag .cf) rfl hc
  · exact .of_rule htarget (fun s => !s.flag .cf) rfl (by simpa using not_congr hc)
  · exact .of_rule htarget (fun s => s.flag .sf != s.flag .of) rfl (by simpa using hless)
  · exact .of_rule htarget (fun s => s.flag .sf == s.flag .of) rfl (by simpa using not_congr hless)
  · exact .of_rule htarget (fun s => s.flag .zf || s.flag .sf != s.flag .of) rfl hle
  · exact .of_rule htarget (fun s => !s.flag .zf && s.flag .sf == s.flag .of) rfl (by simpa using not_congr hle)

/-! ## Shifts and rotates -/

section Shifts

variable {i : Instr} {s : State} {dst count : Operand}

/-- A shift or rotate with a count that is not 0 writes all five flags, OF as 0 (R230). -/
theorem exec_shiftWrote {op : Nat → Nat → Bool → Nat → AluOut} {r : Nat} {cf : Bool}
    (he : exec i s = shiftRule op dst count s) (hd : s.writable dst = true) (hc : s.readable count = true)
    (hz : (s.readOp count).toNat ≠ 0)
    (h : op dst.width.bits (s.readOp dst).toNat (s.flag .cf) (s.readOp count).toNat = shiftOut dst.width.bits r cf) :
    ∃ t, exec i s = .next t ∧ AluWrote s t dst r cf false := by
  rw [he]
  obtain ⟨t, hexec, hwrote, hflags⟩ := shiftRule_ok s dst count hd hc op r cf hz h
  exact ⟨t, hexec, hwrote, hflags⟩

/-- A shift or rotate with a count of 0 is counted and writes nothing (R230). -/
theorem exec_shift_zero {op : Nat → Nat → Bool → Nat → AluOut}
    (he : exec i s = shiftRule op dst count s) (hd : s.writable dst = true) (hc : s.readable count = true)
    (hz : s.readOp count = 0) : exec i s = .next s.counted := by
  have hcheck : s.check [(.rw, dst), (.r, count)] [] = none :=
    s.check_of_access _ _ (by simp [Role.writes, hd, hc]) (by simp)
  rw [← complete_clearPending]
  refine exec_of_rule he hcheck ?_
  simp [hz]

end Shifts

/-- Settles O43: the eight are one rule. -/
theorem zeroCountWritesNothing : Obligations.ZeroCountWritesNothing := by
  intro s dst count hd hc hz i hi
  fin_cases hi
  · exact exec_shift_zero (op := shlOp) rfl hd hc hz
  · exact exec_shift_zero (op := shrOp) rfl hd hc hz
  · exact exec_shift_zero (op := shlOp) rfl hd hc hz
  · exact exec_shift_zero (op := sarOp) rfl hd hc hz
  · exact exec_shift_zero (op := rolOp) rfl hd hc hz
  · exact exec_shift_zero (op := rorOp) rfl hd hc hz
  · exact exec_shift_zero (op := rclOp) rfl hd hc hz
  · exact exec_shift_zero (op := rcrOp) rfl hd hc hz

/-- SHL with the unbounded count of R231. -/
theorem shlOp_eq (W a c : Nat) (cf : Bool) :
    shlOp W a cf c = shiftOut W (a * 2 ^ c % 2 ^ W) (decide (c ≤ W) && a.testBit (W - c)) := by
  rw [shlOp, shlOp_result]
  by_cases h : c ≤ W <;> simp [h]

/-- SHR with the unbounded count of R232. -/
theorem shrOp_eq {W a : Nat} (c : Nat) (cf : Bool) (ha : a < 2 ^ W) :
    shrOp W a cf c = shiftOut W (a / 2 ^ c) (decide (c ≤ W) && a.testBit (c - 1)) := by
  rw [shrOp, shrOp_result W a c ha]
  by_cases h : c ≤ W <;> simp [h]

/-- SAR with the unbounded count of R234: past the width every bit out is the sign. -/
theorem sarOp_eq {W a : Nat} (c : Nat) (cf : Bool) (hW : 0 < W) (ha : a < 2 ^ W) :
    sarOp W a cf c = shiftOut W (truncInt W (signedOf W a / 2 ^ c)) (a.testBit (min c W - 1)) := by
  obtain ⟨hlo, hhi⟩ := signedOf_bounds W a
  have hpow : (2 : Int) ^ (W - 1) ≤ 2 ^ W := pow_le_pow_right₀ (by norm_num) (by omega)
  rw [sarOp, signed_eq W a hW ha, wrapInt_eq, sarOp_result W _ c (by omega) (by omega)]
  by_cases h : c ≤ W
  · simp [h]
  · simp [h, Nat.min_eq_right (Nat.le_of_not_le h)]

/-- Settles O40: the counts the model cuts at the width change no result. -/
theorem shiftResult : Obligations.ShiftResult := by
  intro s dst count hd hc hz W a c
  exact ⟨exec_shiftWrote (op := shlOp) rfl hd hc hz (shlOp_eq ..),
    exec_shiftWrote (op := shlOp) rfl hd hc hz (shlOp_eq ..),
    exec_shiftWrote (op := shrOp) rfl hd hc hz (shrOp_eq _ _ (s.readOp_lt dst)),
    exec_shiftWrote (op := sarOp) rfl hd hc hz
      (sarOp_eq _ _ (Width.zero_lt_bits dst.width) (s.readOp_lt dst))⟩

/-- Settles O41: the results are the rotations of `W` bits by `c mod W`. -/
theorem rotateResult : Obligations.RotateResult := by
  intro s dst count hd hc hz W a c
  have ha : a < 2 ^ W := s.readOp_lt dst
  obtain ⟨t, hexec, hwrote⟩ := exec_shiftWrote (i := .rol dst count) (op := rolOp) rfl hd hc hz rfl
  obtain ⟨t', hexec', hwrote'⟩ := exec_shiftWrote (i := .ror dst count) (op := rorOp) rfl hd hc hz rfl
  exact ⟨⟨t, _, hexec, Nat.mod_lt _ (by positivity), fun i hi => rotl_spec W a c i ha hi, hwrote⟩,
    ⟨t', _, hexec', Nat.mod_lt _ (by positivity), fun i hi => rotr_spec W a c i ha hi, hwrote'⟩⟩

/-- Settles O42: the results are the rotations of the `W + 1` bits CF:a by `c mod (W + 1)`. -/
theorem rotateThroughCarryResult : Obligations.RotateThroughCarryResult := by
  intro s dst count hd hc hz W v c
  have ha : (s.readOp dst).toNat < 2 ^ W := s.readOp_lt dst
  have hv : v < 2 ^ (W + 1) := by
    have hmul : (s.flag .cf).toNat * 2 ^ W ≤ 1 * 2 ^ W := Nat.mul_le_mul_right _ (Bool.toNat_le _)
    rw [pow_succ]
    omega
  obtain ⟨t, hexec, hwrote⟩ := exec_shiftWrote (i := .rcl dst count) (op := rclOp) rfl hd hc hz rfl
  obtain ⟨t', hexec', hwrote'⟩ := exec_shiftWrote (i := .rcr dst count) (op := rcrOp) rfl hd hc hz rfl
  exact ⟨⟨t, _, hexec, Nat.mod_lt _ (by positivity), fun i hi => rotl_spec (W + 1) v c i hv hi, hwrote⟩,
    ⟨t', _, hexec', Nat.mod_lt _ (by positivity), fun i hi => rotr_spec (W + 1) v c i hv hi, hwrote'⟩⟩

end Sys2Proof.Machine

/-! The stack (47_stack.md) with CALL and RET (46_control_transfer.md): each instruction is pushes or pops, whose effect on
registers, memory and the history is said once (R70, R272, R273); what was pushed is read back where no two slots share a
byte (R263, R266, R271). -/

namespace Sys2Proof.Machine

/-! ## Slots in memory -/

/-- What memory holds is a matter of memory and its size. -/
theorem State.memHolds_congr {t u : State} {p n : Nat} {v : Word} (h : u.memHolds p n v) (hm : t.mem = u.mem)
    (hc : t.config = u.config) : t.memHolds p n v := by
  intro i hi
  rw [State.memSize, hm, hc]
  exact h i hi

/-- The slot a push stores holds the value pushed (R70). -/
theorem State.push_memHolds (s : State) {n : Nat} (v : Word) (hn : n ≤ 8) :
    (s.push n v).memHolds (s.phys .ss (s.get .rsp - BitVec.ofNat 64 n)) n v := by
  have hsize := s.memSize_pos
  exact State.memHolds_congr (s.memWrite_memHolds _ n v (by omega)) (s.push_mem n v) (s.push_config n v)

/-- The physical index of a stack offset is a matter of SS and the size of memory. -/
theorem State.phys_congr {s t : State} (hc : t.config = s.config) (hss : t.get .ss = s.get .ss) (off : Word) :
    t.phys .ss off = s.phys .ss off := by
  rw [State.phys, State.phys, State.memSize, State.memSize, hc, hss]

theorem State.slotOk_congr {s t : State} (hc : t.config = s.config) (hss : t.get .ss = s.get .ss) (off : Word) (n : Nat) :
    t.slotOk off n = s.slotOk off n := by
  rw [State.slotOk, State.slotOk, State.inBounds, State.inBounds, State.phys_congr hc hss, State.memSize, State.memSize, hc]

/-- Slots that share no byte, stored one after the other and left intact, read back as the values stored. -/
theorem State.memRead_of_slotsStored {s t u : State} {ws : List (Word × Word)} (hc : u.config = s.config)
    (hstored : ∀ a, Memory.get t.mem a = s.slotsStored a ws (Memory.get s.mem a))
    (hintact : ∀ a, a ∈ (ws.flatMap fun w => s.slotBytes w.1 8) → Memory.get u.mem a = Memory.get t.mem a)
    (hdisjoint : ws.Pairwise fun w w' => ∀ a ∈ s.slotBytes w.1 8, a ∉ s.slotBytes w'.1 8)
    {w : Word × Word} (hw : w ∈ ws) : u.memRead (s.phys .ss w.1) 8 = w.2 := by
  apply State.memRead8_of_holds
  intro i hi
  rw [State.memSize, hc]
  have hmem : (s.phys .ss w.1 + i) % s.memSize ∈ s.slotBytes w.1 8 := mem_byteRange.2 ⟨i, hi, rfl⟩
  rw [← State.memSize, hintact _ (List.mem_flatMap.2 ⟨w, hw, hmem⟩), hstored]
  exact s.slotsStored_of_mem ws (fun a => Memory.get s.mem a) hdisjoint hw hi

/-! ## PUSH, PUSHF -/

section Push

variable {i : Instr} {s : State} {ops : List (Role × Operand)} {slots : List StackSlot}
  {rule : State → Except ExecError State}

/-- An instruction whose rule is one push (R70, R272). -/
theorem exec_pushed {n : Nat} {v : Word} (he : exec i s = runRule s ops slots rule)
    (hcheck : s.check ops slots = none) (hrule : rule s.clearPending = .ok (s.clearPending.push n v))
    (hn : n ∈ [1, 2, 4, 8]) (hv : v.toNat < 256 ^ n) :
    ∃ t, exec i s = .next t ∧ t.get .rsp = s.get .rsp - BitVec.ofNat 64 n ∧
      t.memHolds (s.phys .ss (s.get .rsp - BitVec.ofNat 64 n)) n v ∧
      Frame s t [.rsp] [] (s.slotBytes (s.get .rsp - BitVec.ofNat 64 n) n) ∧
      StackStep s t (s.observed.pushed v (s.get .rsp - BitVec.ofNat 64 n) n) := by
  have hn8 : n ≤ 8 := (by decide : ∀ k ∈ [1, 2, 4, 8], k ≤ 8) n hn
  have hslots : (s.clearPending.push n v).complete.slots = (s.clearPending.push n v).slots :=
    State.complete_slots (by simp)
  have hframe := (State.push_effect s.clearPending n v hn hv).frame
  refine ⟨_, exec_of_rule he hcheck hrule, ?_, ?_, ?_, ?_⟩
  · rw [State.get_congr hslots]
    simp
  · exact State.memHolds_congr (s.clearPending.push_memHolds v hn8) (by simp) (by simp)
  · exact clearFrame (hframe.of_slots hslots (by simp) (by simp) (by simp) (by simp))
  · exact stackStep_complete (by simp) (by simp) (by simp) (by simp) (by simp) (State.push_observed _ _ _)

end Push

/-- PUSH's rule (R265). -/
theorem exec_push_eq (src : Operand) (s : State) :
    exec (.push src) s =
      runRule s [(.r, src)] [(s.get .rsp - BitVec.ofNat 64 src.width.bytes, src.width.bytes)] fun s =>
        .ok (s.push src.width.bytes (s.readOp src)) := rfl

/-- PUSHF's rule (R267). -/
theorem exec_pushf_eq (s : State) :
    exec .pushf s = runRule s [] [(s.get .rsp - 8, 8)] fun s => .ok (s.push 8 (s.get .rflags)) := rfl

/-- Settles O49: PUSH is one push of the operand's value at its width. -/
theorem pushStores : Obligations.PushStores := by
  intro s src hs n sp hslot
  refine exec_pushed (exec_push_eq src s) ?_ ?_ (Width.bytes_mem _) (s.readOp_lt_bytes src)
  · exact s.check_of_access _ _ (by simp [Role.writes, hs]) (by simpa using hslot)
  · simp only [State.clearPending_readOp]
    rfl

/-! ## POP, POPF -/

/-- POP's rule (R266). -/
theorem exec_pop_eq (dst : Operand) (s : State) :
    exec (.pop dst) s = runRule s [(.w, dst)] [(s.get .rsp, dst.width.bytes)] fun s =>
      .ok (s.writeOp dst (s.popValue dst.width.bytes) (s.popMove dst.width.bytes)) := rfl

/-- POPF's rule (R268). -/
theorem exec_popf_eq (s : State) :
    exec .popf s = runRule s [] [(s.get .rsp, 8)] fun s => .ok ((s.popMove 8).set .rflags (s.popValue 8)) := rfl

/-- Settles O50: POP is one pop, then the write of its destination at the address before the pop. -/
theorem popLoads : Obligations.PopLoads := by
  intro s dst hd n sp hslot
  have hcheck : s.check [(.w, dst)] [(s.get .rsp, dst.width.bytes)] = none :=
    s.check_of_access _ _ (by simp [Role.writes, hd]) (by simpa using hslot)
  have hexec := exec_of_rule (exec_pop_eq dst s) hcheck rfl
  have hslots : (s.clearPending.writeOp dst (s.clearPending.popValue n) (s.clearPending.popMove n)).complete.slots =
      (s.clearPending.writeOp dst (s.clearPending.popValue n) (s.clearPending.popMove n)).slots :=
    State.complete_slots (by simp)
  have hholds := State.writeOp_holds s.clearPending dst (s.clearPending.popValue n) (s.clearPending.popMove n) []
    (State.popMove_config _ n) (isImm_of_writable hd)
  refine ⟨_, hexec, fun hrsp => ?_, ?_, (exec_frame (by simp) hexec).weaken ?_ (List.Subset.refl _) ?_, ?_⟩
  · rw [State.get_congr hslots, State.writeOp_get _ _ _ _ _ hrsp]
    simp [sp]
  · exact hholds.of_eq rfl rfl (State.popMove_slots s.clearPending n).symm hslots (State.complete_mem _)
      (State.complete_config _)
  · simp [Instr.mayWriteRegs, Instr.destinations, Instr.roles, Role.writes, Instr.implicitRegs, List.subset_def, or_comm]
  · simp [State.mayWriteBytes, Instr.destinations, Instr.roles, Role.writes, Instr.storedSlots]
  · exact stackStep_complete (by simp) (by simp) (by simp) (by simp) (by simp)
      ((State.writeOp_observed ..).trans (State.popMove_observed s.clearPending n))

/-- Settles O52: PUSHF is one push of RFLAGS, POPF one pop into it. -/
theorem pushfPopfMoveFlags : Obligations.PushfPopfMoveFlags := by
  refine ⟨fun s hslot => ?_, fun s hslot => ?_⟩
  · have hcheck : s.check [] [(s.get .rsp - 8, 8)] = none := s.check_of_access _ _ (by simp) (by simpa using hslot)
    exact exec_pushed (n := 8) (exec_pushf_eq s) hcheck rfl (by simp) (word_lt_8 _)
  · have hcheck : s.check [] [(s.get .rsp, 8)] = none := s.check_of_access _ _ (by simp) (by simpa using hslot)
    have hexec := exec_of_rule (exec_popf_eq s) hcheck rfl
    have hslots : ((s.clearPending.popMove 8).set .rflags (s.clearPending.popValue 8)).complete.slots =
        ((s.clearPending.popMove 8).set .rflags (s.clearPending.popValue 8)).slots := State.complete_slots (by simp)
    refine ⟨_, hexec, ?_, ?_, exec_frame (by simp) hexec, ?_⟩
    · rw [State.get_congr hslots]
      simp
    · rw [State.get_congr hslots, State.get_set_self]
      rfl
    · exact stackStep_complete (by simp) (by simp) (by simp) (by simp) (by simp) (State.popMove_observed _ 8)

/-! ## PUSH, then POP -/

/-- A pop at the offset of the last entry reports no mismatch and drops that entry, if the entries before it lie above. -/
theorem Observed.popped_pushed {o : Observed} {v p : Word} {n : Nat} (ip0 : Word) (opc : Byte)
    (habove : ∀ e ∈ o.history, (p + BitVec.ofNat 64 n).toNat ≤ e.address.toNat)
    (hp : p.toNat < (p + BitVec.ofNat 64 n).toNat) :
    ((o.pushed v p n).popped ip0 opc n p).history = o.history ∧ ((o.pushed v p n).popped ip0 opc n p).diags = o.diags := by
  simp only [Observed.popped]
  generalize p + BitVec.ofNat 64 n = q at *
  have hkeep : o.history.filter (fun e => decide (q.toNat ≤ e.address.toNat)) = o.history :=
    List.filter_eq_self.2 fun e he => decide_eq_true (habove e he)
  have hdrop : ¬ q.toNat ≤ p.toNat := by omega
  simp [Observed.pushed, Observed.dropped, hkeep, hdrop]

/-- A destination that is not RSP holds its value whatever RSP was before the write. -/
theorem Holds.of_set_rsp {pre old new : State} {dst : Operand} {v sp : Word} {fs : List Flag}
    (h : Holds pre (old.set .rsp sp) new dst v fs) (hdst : .rsp ∉ Operand.destRegs dst) : Holds pre old new dst v fs := by
  cases dst with
  | imm w l => exact h
  | mem w seg m => exact h
  | reg r =>
    have hr : r.reg ≠ .rsp := fun e => hdst (by simp [Operand.destRegs, e])
    intro i hi hflags
    have := h i hi hflags
    rwa [State.get_set_of_ne _ _ hr] at this

/-- Settles O51: the slot POP reads is the one PUSH stored. -/
theorem pushThenPopReturnsValue : Obligations.PushThenPopReturnsValue := by
  intro s t src dst hs hwidth hslot hpush hd hdst habove hroom
  obtain ⟨t', hexec, hrsp, hholds, hframe, hstep⟩ := pushStores s src hs hslot
  obtain rfl := next_inj (hexec.symm.trans hpush)
  have hss : t'.get .ss = s.get .ss := hframe.otherRegs _ (by decide) (by decide)
  have hphys := State.phys_congr hframe.config hss
  have hback : t'.get .rsp + BitVec.ofNat 64 dst.width.bytes = s.get .rsp := by
    rw [hrsp, hwidth, BitVec.sub_add_cancel]
  have hslot' : t'.slotOk (t'.get .rsp) dst.width.bytes = true := by
    rw [State.slotOk_congr hframe.config hss, hrsp, ← hwidth]
    exact hslot
  have hvalue : t'.memRead (t'.phys .ss (t'.get .rsp)) dst.width.bytes = s.readOp src := by
    apply BitVec.eq_of_toNat_eq
    rw [hphys, hrsp, ← hwidth, State.memRead_of_holds _ _ _ _ hholds, Nat.mod_eq_of_lt (s.readOp_lt_bytes src)]
  obtain ⟨v, hpop, hvrsp, hvholds, -, hvstep⟩ := popLoads t' dst hd hslot'
  have hlt : (t'.get .rsp).toNat < (t'.get .rsp + BitVec.ofNat 64 dst.width.bytes).toNat := by
    have hpos := Width.bytes_pos src.width
    have h8 := Width.bytes_le src.width
    rw [hback, hrsp, BitVec.toNat_sub, BitVec.toNat_ofNat]
    omega
  have hobs := Observed.popped_pushed (o := s.observed) (v := s.readOp src) t'.ip0 t'.opc (by rw [hback]; exact habove) hlt
  have hvobs : v.observed = (s.observed.pushed (s.readOp src) (t'.get .rsp) dst.width.bytes).popped t'.ip0 t'.opc
      dst.width.bytes (t'.get .rsp) := by
    rw [hvstep.observed, hstep.observed, hrsp, hwidth]
  refine ⟨v, hpop, ?_, (hvrsp hdst).trans hback, ?_, ?_⟩
  · rw [hvalue] at hvholds
    exact hvholds.of_set_rsp hdst
  · exact (congrArg Observed.history hvobs).trans hobs.1
  · exact (congrArg Observed.diags hvobs).trans hobs.2

end Sys2Proof.Machine

/-! Frames and register lists (46_control_transfer.md, 47_stack.md): CALL and PUSHA are pushes one after the other, RET and
POPA the pops that undo them (R261 to R263, R270, R271). -/

namespace Sys2Proof.Machine

/-! ## CALL -/

/-- CALL's rule: two pushes, the frame pointer, the jump (R261). -/
theorem exec_call_eq (target : Operand) (s : State) :
    exec (.call target) s = runRule s [(.t, target)] [(s.get .rsp - 8, 8), (s.get .rsp - 16, 8)] fun s =>
      let u := (s.push 8 (s.get .rip)).push 8 (s.get .rbp)
      .ok ((u.set .rbp (u.get .rsp)).jump (s.readOp target)) := rfl

/-- The stack offset after two pushes of 8 bytes. -/
theorem sub_8_sub_8 (x : Word) : x - BitVec.ofNat 64 8 - BitVec.ofNat 64 8 = x - 16 := by
  rw [BitVec.sub_sub]
  rfl

/-- The byte at `a` after two pushes of 8 bytes. -/
theorem State.push_push_memGet (s : State) (v w : Word) (a : Nat) :
    Memory.get ((s.push 8 v).push 8 w).mem a =
      s.slotsStored a [(s.get .rsp - 8, v), (s.get .rsp - 16, w)] (Memory.get s.mem a) := by
  have hsize := s.memSize_pos
  have hphys := State.phys_congr (s := s) (t := s.push 8 v) (s.push_config 8 v) (by simp)
  rw [State.push_memGet _ _ _ _ (by simp; omega), State.push_memGet _ _ _ _ (by omega), State.push_memSize, hphys,
    State.push_get, if_pos rfl, sub_8_sub_8]
  rfl

/-- Settles O46: two pushes, then RBP set to the RSP they leave, then the jump. -/
theorem callOpensFrame : Obligations.CallOpensFrame := by
  intro s target hs hslot hslot'
  have hcheck : s.check [(.t, target)] [(s.get .rsp - 8, 8), (s.get .rsp - 16, 8)] = none :=
    s.check_of_access _ _ (by simp [Role.writes, hs]) (by simpa using ⟨hslot, hslot'⟩)
  have hexec := exec_of_rule (exec_call_eq target s) hcheck rfl
  simp only [State.clearPending_get, State.clearPending_readOp] at hexec
  set u := (s.clearPending.push 8 (s.get .rip)).push 8 (s.get .rbp) with hu
  have hget := State.complete_get_jump ((u.set .rbp (u.get .rsp)).jump (s.readOp target)) _ rfl
  have hrsp : u.get .rsp = s.get .rsp - 16 := by
    simp only [hu, State.push_get, if_true, State.clearPending_get]
    exact sub_8_sub_8 _
  refine ⟨_, hexec, ?_, ?_, ?_, fun a => ?_, ?_, ?_⟩
  · rw [hget, if_pos rfl]
  · rw [hget]
    simp [hrsp]
  · rw [hget]
    simp [hrsp]
  · rw [State.complete_mem, State.jump_mem, State.set_mem, hu, State.push_push_memGet]
    exact State.slotsStored_congr rfl rfl _ _ _
  · refine (exec_frame (by simp) hexec).weaken (List.Subset.refl _) (List.Subset.refl _) ?_
    simp [State.mayWriteBytes, Instr.destinations, Instr.roles, Role.writes, Instr.storedSlots, Instr.slots]
  · refine stackStep_complete (by simp [hu]) (by simp [hu]) (by simp [hu]) (by simp [hu]) (by simp [hu]) ?_
    rw [State.jump_observed, State.set_observed, hu, State.push_observed, State.push_observed, State.push_get, if_pos rfl,
      sub_8_sub_8]
    rfl

/-! ## RET -/

/-- RET's rule: two pops, the count dropped, the jump (R262). -/
theorem exec_ret_eq (count : Operand) (s : State) :
    exec (.ret count) s = runRule s [(.r, count)] [(s.get .rsp, 8), (s.get .rsp + 8, 8)] fun s =>
      let u := ((s.popMove 8).popMove 8).set .rbp (s.popValue 8)
      let sp := u.get .rsp + s.readOp count
      .ok (((u.set .rsp sp).dropBelow sp).jump ((s.popMove 8).popValue 8)) := rfl

/-- The stack offset after two pops of 8 bytes. -/
theorem add_8_add_8 (x : Word) : x + BitVec.ofNat 64 8 + BitVec.ofNat 64 8 = x + 16 := by
  rw [BitVec.add_assoc]
  rfl

/-- The value of a second pop: the slot above the first (R70). -/
theorem State.popMove_popValue (s : State) :
    (s.popMove 8).popValue 8 = s.memRead (s.phys .ss (s.get .rsp + 8)) 8 := by
  have hphys := State.phys_congr (s := s) (t := s.popMove 8) (s.popMove_config 8) (by simp)
  rw [State.popValue, hphys, State.memRead_congr _ _ (s.popMove_config 8) fun a _ => by rw [State.popMove_mem],
    State.popMove_get, if_pos rfl]
  rfl

/-- Settles O47: two pops, whose values are read before and between them, then the drop and the jump. -/
theorem retClosesFrame : Obligations.RetClosesFrame := by
  intro s count hs hslot hslot'
  have hcheck : s.check [(.r, count)] [(s.get .rsp, 8), (s.get .rsp + 8, 8)] = none :=
    s.check_of_access _ _ (by simp [Role.writes, hs]) (by simpa using ⟨hslot, hslot'⟩)
  have hexec := exec_of_rule (exec_ret_eq count s) hcheck rfl
  simp only [State.clearPending_readOp] at hexec
  set u := ((s.clearPending.popMove 8).popMove 8).set .rbp (s.clearPending.popValue 8) with hu
  have hrsp : u.get .rsp = s.get .rsp + 16 := by
    simp only [hu, State.get_set, State.popMove_get, if_true, State.clearPending_get]
    exact add_8_add_8 _
  have hbp : u.get .rbp = s.memRead (s.phys .ss (s.get .rsp)) 8 := State.get_set_self ..
  rw [hrsp] at hexec
  set sp := s.get .rsp + 16 + s.readOp count
  have hget := State.complete_get_jump (((u.set .rsp sp).dropBelow sp).jump ((s.clearPending.popMove 8).popValue 8)) _ rfl
  refine ⟨_, hexec, ?_, ?_, ?_, exec_frame (by simp) hexec, ?_⟩
  · rw [hget]
    simp [hbp]
  · rw [hget, if_pos rfl, State.popMove_popValue]
    rfl
  · rw [hget]
    simp
  · refine stackStep_complete (by simp [hu]) (by simp [hu]) (by simp [hu]) (by simp [hu]) (by simp [hu]) ?_
    rw [State.jump_observed, State.dropBelow_observed, State.set_observed, hu, State.set_observed, State.popMove_observed,
      State.popMove_observed, State.popMove_get, if_pos rfl]
    simp

/-- Settles O48: the two slots of the frame share no byte, so RET reads back what CALL stored. -/
theorem callThenRetRestores : Obligations.CallThenRetRestores := by
  intro s t u target count hs hslot hslot' hlinear hcall hconfig hss hrsp hintact hcount
  obtain ⟨t', hexec, -, -, hbp, hmem, -, -⟩ := callOpensFrame s target hs hslot hslot'
  obtain rfl := next_inj (hexec.symm.trans hcall)
  have hsp : u.get .rsp = s.get .rsp - 16 := hrsp.trans hbp
  have hsp8 : u.get .rsp + 8 = s.get .rsp - 8 := by
    rw [hsp]
    bv_omega
  have hphys := State.phys_congr hconfig hss
  have hdisjoint : [(s.get .rsp - 8, s.get .rip), (s.get .rsp - 16, s.get .rbp)].Pairwise
      fun w w' => ∀ a ∈ s.slotBytes w.1 8, a ∉ s.slotBytes w'.1 8 := by
    have hsize := s.memSize_pos
    rw [List.pairwise_pair]
    exact s.slotBytes_disjoint (s.get .rsp) (j := 8) (k := 16) hlinear (by omega) (by omega)
  have hread := fun w => State.memRead_of_slotsStored hconfig hmem (by simpa using hintact) hdisjoint (w := w)
  obtain ⟨v, hret, hvbp, hvip, hvsp, -, -⟩ := retClosesFrame u count hcount
    (by rw [hsp, State.slotOk_congr hconfig hss]; exact hslot')
    (by rw [hsp8, State.slotOk_congr hconfig hss]; exact hslot)
  refine ⟨v, hret, ?_, ?_, ?_⟩
  · rw [hvip, hsp8, hphys]
    exact hread (s.get .rsp - 8, s.get .rip) (by simp)
  · rw [hvbp, hsp, hphys]
    exact hread (s.get .rsp - 16, s.get .rbp) (by simp)
  · rw [hvsp, hsp, BitVec.sub_add_cancel]

/-! ## PUSHA, POPA -/

/-- PUSHA's rule: the 14 registers pushed in order (R270). -/
theorem exec_pusha_eq (s : State) :
    exec .pusha s = runRule s [] (stackSlots (s.get .rsp - 8) (-8) 14) fun s => .ok (s.pushAll registerList) := rfl

/-- POPA's rule: the 14 registers popped in reverse order (R271). -/
theorem exec_popa_eq (s : State) :
    exec .popa s = runRule s [] (stackSlots (s.get .rsp) 8 14) fun s => .ok (s.popAll registerList.reverse) := rfl

/-- The slots PUSHA checks are those it writes. -/
theorem pusha_slots_eq (s : State) : Instr.slots s .pusha = s.pushaSlots.map fun k => (k.1, 8) := rfl

/-- Settles O53: `pushAll_law` for the list of R269. -/
theorem pushaStores : Obligations.PushaStores := by
  intro s hslots
  have hcheck : s.check [] (stackSlots (s.get .rsp - 8) (-8) 14) = none := by
    refine s.check_of_access _ _ (by simp) ?_
    rw [stackSlots_down]
    rintro k hk
    obtain ⟨i, hi, rfl⟩ := List.mem_map.1 hk
    exact hslots i (List.mem_range.1 hi)
  have hexec := exec_of_rule (exec_pusha_eq s) hcheck rfl
  obtain ⟨hrsp, hmem, hobs⟩ := pushAll_law registerList s.clearPending (by decide)
  have hget := State.complete_get (s.clearPending.pushAll registerList) (by simp)
  refine ⟨_, hexec, ?_, fun a => ?_, ?_, ?_⟩
  · rw [hget, hrsp]
    rfl
  · rw [State.complete_mem, hmem]
    exact State.slotsStored_congr rfl rfl _ _ _
  · refine (exec_frame (by simp) hexec).weaken (List.Subset.refl _) (List.Subset.refl _) ?_
    rw [State.mayWriteBytes, Instr.storedSlots, pusha_slots_eq, List.flatMap_map]
    exact List.Subset.refl _
  · exact stackStep_complete (by simp) (by simp) (by simp) (by simp) (by simp) hobs

/-- Settles O54: `popAll_law` for the list of R269 in reverse. -/
theorem popaLoads : Obligations.PopaLoads := by
  intro s hslots
  have hcheck : s.check [] (stackSlots (s.get .rsp) 8 14) = none := by
    refine s.check_of_access _ _ (by simp) ?_
    rw [stackSlots_up]
    rintro k hk
    obtain ⟨i, hi, rfl⟩ := List.mem_map.1 hk
    exact hslots i (List.mem_range.1 hi)
  have hexec := exec_of_rule (exec_popa_eq s) hcheck rfl
  obtain ⟨hrsp, hregs, hobs⟩ := popAll_law registerList.reverse s.clearPending (by decide) (by decide) (by decide)
  have hget := State.complete_get (s.clearPending.popAll registerList.reverse) (by simp)
  refine ⟨_, hexec, ?_, fun i r hi hr => ?_, exec_frame (by simp) hexec, ?_⟩
  · rw [hget, hrsp]
    rfl
  · rw [hget, hregs i r]
    · rfl
    · rw [List.getElem?_reverse hi]
      exact hr
  · exact stackStep_complete (by simp) (by simp) (by simp) (by simp) (by simp) hobs

/-- The slot of the register at place `k` of PUSHA's list (R270). -/
theorem State.pushaSlots_getElem (s : State) {k : Nat} (h : k < 14) :
    s.pushaSlots[k]'h = (s.get .rsp - BitVec.ofNat 64 (8 * (k + 1)), s.get (registerList[k]'h)) := by
  interval_cases k <;> rfl

/-- The slots PUSHA writes share no byte, where they fit in memory and do not wrap below linear address 0. -/
theorem State.pushaSlots_disjoint (s : State) (hsize : 112 ≤ s.memSize)
    (hlinear : 112 ≤ (s.get .rsp + s.get .ss * 16#64).toNat) :
    s.pushaSlots.Pairwise fun w w' => ∀ a ∈ s.slotBytes w.1 8, a ∉ s.slotBytes w'.1 8 := by
  have hlen : s.pushaSlots.length = 14 := rfl
  rw [List.pairwise_iff_getElem]
  intro i j hi hj hij
  rw [s.pushaSlots_getElem hi, s.pushaSlots_getElem hj]
  exact s.slotBytes_disjoint (s.get .rsp) (by omega) (by omega) (by omega)

/-- Settles O55: the register at place `k` of PUSHA's list is the one POPA loads from the slot it was stored in. -/
theorem pushaThenPopaRestores : Obligations.PushaThenPopaRestores := by
  intro s t u hslots hsize hlinear hpusha hconfig hss hrsp hintact
  obtain ⟨t', hexec, hsp, hmem, -, -⟩ := pushaStores s hslots
  obtain rfl := next_inj (hexec.symm.trans hpusha)
  have hphys := State.phys_congr hconfig hss
  have hread := fun w => State.memRead_of_slotsStored hconfig hmem hintact (s.pushaSlots_disjoint hsize hlinear) (w := w)
  have hoff : ∀ k, k < 14 → u.get .rsp + BitVec.ofNat 64 (8 * (13 - k)) = s.get .rsp - BitVec.ofNat 64 (8 * (k + 1)) := by
    intro k hk
    rw [hrsp, hsp]
    apply BitVec.eq_of_toNat_eq
    have h112 : (112 : Word).toNat = 112 := rfl
    simp only [BitVec.toNat_add, BitVec.toNat_sub, BitVec.toNat_ofNat, h112]
    omega
  have hslots' : ∀ i, i < 14 → u.slotOk (u.get .rsp + BitVec.ofNat 64 (8 * i)) 8 = true := by
    intro i hi
    have hsame := hoff (13 - i) (by omega)
    rw [Nat.sub_sub_self (Nat.le_of_lt_succ hi)] at hsame
    rw [hsame, State.slotOk_congr hconfig hss]
    exact hslots _ (by omega)
  obtain ⟨v, hpopa, hvsp, hregs, -, -⟩ := popaLoads u hslots'
  refine ⟨v, hpopa, fun r hr => ?_, ?_⟩
  · obtain ⟨k, hk, rfl⟩ := List.getElem_of_mem hr
    have hk14 : k < 14 := hk
    have hplace : registerList[13 - (13 - k)]? = some registerList[k] := by
      rw [Nat.sub_sub_self (Nat.le_of_lt_succ hk14)]
      exact List.getElem?_eq_getElem hk
    rw [hregs (13 - k) registerList[k] (by omega) hplace, hoff k hk14, hphys]
    exact hread (s.get .rsp - BitVec.ofNat 64 (8 * (k + 1)), s.get registerList[k])
      (by rw [← s.pushaSlots_getElem hk14]; exact List.getElem_mem _)
  · rw [hvsp, hrsp, hsp, BitVec.sub_add_cancel]

end Sys2Proof.Machine

/-! Input, output and interrupts (48_io_system.md, 60_exceptions.md): IN and OUT with and without a device (R275, R276), and
INT as the interrupt mechanism at the commit of its step (R278, R290 to R294). -/

namespace Sys2Proof.Machine

/-- Settles O56: NOP's rule commits the state it is given. -/
theorem nopOnlyCounts : Obligations.NopOnlyCounts := fun _ => rfl

/-! ## Devices -/

/-- A device is registered at a port (R279). -/
theorem State.hasDevice_iff (s : State) (p : Word) : s.hasDevice p = true ↔ ∃ x ∈ s.config.devices, x.port = p := by
  simp [State.hasDevice]

@[simp] theorem State.clearPending_hasDevice (s : State) (p : Word) : s.clearPending.hasDevice p = s.hasDevice p := rfl

/-- IN's rule (R275). -/
theorem exec_inp_eq (port address dst : Operand) (s : State) :
    exec (.inp port address dst) s = runRule s [(.r, port), (.r, address), (.w, dst)] [] fun s =>
      if s.hasDevice (s.readOp port) then
        let v := s.deviceAnswer (s.readOp port) (s.readOp address)
        .ok (s.writeOp dst v (s.deviceReadEvent (s.readOp port) (s.readOp address) v))
      else .ok (s.writeOp dst 0 (s.diag (.info .noDeviceIn))) := rfl

/-- OUT's rule (R276). -/
theorem exec_out_eq (port address src : Operand) (s : State) :
    exec (.out port address src) s = runRule s [(.r, port), (.r, address), (.r, src)] [] fun s =>
      if s.hasDevice (s.readOp port) then .ok (s.deviceWrite (s.readOp port) (s.readOp address) (s.readOp src))
      else .ok (s.diag (.info .noDeviceOut)) := rfl

/-- A destination written over outputs that keep registers and memory: it holds the value, and nothing else changed. -/
theorem counted_writeOp (s : State) {o : State} {dst : Operand} (v : Word) (hd : Operand.isImm dst = false)
    (hslots : o.slots = s.slots) (hmem : o.mem = s.mem) (hconfig : o.config = s.config) (hip0 : o.ip0 = s.ip0)
    (hopc : o.opc = s.opc) :
    Holds s s (s.writeOp dst v o).counted dst v [] ∧
      Frame s (s.writeOp dst v o).counted (Operand.destRegs dst) [] (s.destBytes dst) :=
  ⟨(s.writeOp_holds dst v o [] hconfig hd).of_eq rfl rfl hslots.symm rfl rfl rfl,
    ((s.writeOp_frame dst v o [] hconfig).of_slots_left hslots.symm hmem.symm hconfig.symm hip0.symm hopc.symm).of_slots
      rfl rfl rfl rfl rfl⟩

/-- Settles O57: the destination is written over the record of the access, or over the report that there is no device. -/
theorem inReadsDevice : Obligations.InReadsDevice := by
  intro s port address dst hp ha hd p d v
  have hcheck : s.check [(.r, port), (.r, address), (.w, dst)] [] = none :=
    s.check_of_access _ _ (by simp [Role.writes, hp, ha, hd]) (by simp)
  have himm := isImm_of_writable hd
  refine ⟨fun hdev => ?_, fun hdev => ?_⟩
  · have hdev : s.hasDevice (s.readOp port) = true := (s.hasDevice_iff p).2 hdev
    have hexec : exec (.inp port address dst) s = .next (s.writeOp dst v (s.deviceReadEvent p d v)).counted := by
      rw [← complete_clearPending, ← State.clearPending_writeOp]
      refine exec_of_rule (exec_inp_eq port address dst s) hcheck ?_
      simp only [State.clearPending_readOp, State.clearPending_hasDevice, hdev, if_true]
      rfl
    obtain ⟨hholds, hframe⟩ := counted_writeOp s v himm (o := s.deviceReadEvent p d v) rfl rfl rfl rfl rfl
    refine ⟨_, hexec, hholds, hframe, ⟨?_, rfl⟩, ⟨?_, ?_⟩, ⟨?_, ?_⟩, ?_, ?_, ?_⟩ <;> simp [State.counted]
  · have hdev : s.hasDevice (s.readOp port) = false := by
      rw [← Bool.not_eq_true, s.hasDevice_iff p]
      exact hdev
    have hexec : exec (.inp port address dst) s = .next (s.writeOp dst 0 (s.diag (.info .noDeviceIn))).counted := by
      rw [← complete_clearPending, ← State.clearPending_writeOp]
      refine exec_of_rule (exec_inp_eq port address dst s) hcheck ?_
      simp only [State.clearPending_readOp, State.clearPending_hasDevice, hdev]
      rfl
    obtain ⟨hholds, hframe⟩ := counted_writeOp s 0 himm (o := s.diag (.info .noDeviceIn)) rfl rfl rfl rfl rfl
    refine ⟨_, hexec, hholds, hframe, ⟨?_, rfl⟩, ⟨?_, ?_⟩, ⟨?_, ?_⟩, ⟨?_, ?_⟩, ?_⟩ <;> simp [State.counted]

/-- Settles O58: the rule answers the state with the one record added. -/
theorem outWritesDevice : Obligations.OutWritesDevice := by
  intro s port address src hp ha hs p
  have hcheck : s.check [(.r, port), (.r, address), (.r, src)] [] = none :=
    s.check_of_access _ _ (by simp [Role.writes, hp, ha, hs]) (by simp)
  refine ⟨fun hdev => ?_, fun hdev => ?_⟩
  · have hdev : s.hasDevice (s.readOp port) = true := (s.hasDevice_iff p).2 hdev
    refine exec_of_rule (t := s.clearPending.deviceWrite p (s.readOp address) (s.readOp src))
      (exec_out_eq port address src s) hcheck ?_
    simp only [State.clearPending_readOp, State.clearPending_hasDevice, hdev, if_true, p]
  · have hdev : s.hasDevice (s.readOp port) = false := by
      rw [← Bool.not_eq_true, s.hasDevice_iff p]
      exact hdev
    refine exec_of_rule (t := s.clearPending.diag (.info .noDeviceOut)) (exec_out_eq port address src s) hcheck ?_
    simp only [State.clearPending_readOp, State.clearPending_hasDevice, hdev]
    rfl

/-! ## Interrupts -/

/-- INT's rule (R278). -/
theorem exec_int_eq (code : Operand) (s : State) :
    exec (.int code) s = runRule s [(.r, code)] [] fun s => .ok (s.interrupt (s.readOp code)) := rfl

/-- INT is the interrupt mechanism at its commit, one step counted (R278, R294). -/
theorem exec_int_counted {s : State} {code : Operand} (h : s.readable code = true) :
    exec (.int code) s = .next (s.interrupt (s.readOp code)).counted := by
  have hcheck : s.check [(.r, code)] [] = none := s.check_of_access _ _ (by simp [Role.writes, h]) (by simp)
  rw [← complete_clearPending, ← State.interrupt_clearPending]
  refine exec_of_rule (exec_int_eq code s) hcheck ?_
  rw [State.clearPending_readOp]

/-- Code 0 is recorded at once (R290). -/
theorem State.interrupt_zero (s : State) : s.interrupt 0 = { s with interrupted := true, intCode := 0 } := rfl

/-- Settles O59: INT is `Interrupt` of its code, counted. -/
theorem intDeliversCode : Obligations.IntDeliversCode := by
  intro s code h c
  refine ⟨fun hc => ⟨?_, rfl⟩, fun hc => ?_⟩
  · rw [exec_int_counted h, show s.readOp code = 0 from hc, State.interrupt_zero]
    rfl
  · obtain ⟨handled, u, hoffered, hu⟩ := s.interrupt_offered c hc
    refine ⟨handled, u, hoffered, ?_⟩
    rw [exec_int_counted h, show s.readOp code = c from rfl, hu]
    cases handled <;> rfl

/-- Settles O60: the host's call is `Interrupt` itself. -/
theorem hostInterruptIsNotAStep : Obligations.HostInterruptIsNotAStep := by
  intro s c
  refine ⟨fun hc => ?_, fun hc => s.interrupt_offered c hc, fun hl => s.interrupt_no_listeners c hl,
    fun code h hcode => ?_, ?_⟩
  · subst hc
    exact s.interrupt_zero
  · rw [exec_int_counted h, hcode, State.hostInterrupt]
  · simp [State.hostIsExiting, State.isExiting]

end Sys2Proof.Machine
